-- ==== Sys2Proof/Word.lean ====
section
/-! DEFINITION. The words the block's ports carry, the packet buffer, and the two tracks. -/

namespace Sys2Proof

/-- A word of the command port, of the response port or of the pulse ring: 32 bits (20_memory R62, R63). -/
abbrev Word := BitVec 32

/-- A byte: the reply of NEXTBYTE, and the unit of a packet buffer (00_scope R8). -/
abbrev Byte := BitVec 8

/-- A packet buffer: the ten bytes `buf[0] .. buf[9]`, held as one 80-bit value with byte 0 in its top eight bits,
so that it reads from left to right in the order of transmission (00_scope R8, 20_memory R61, R62). -/
abbrev Buf := BitVec 80

/-- The two rotator sides of the block (00_scope R6): `MAIN` is track 0, `PROG` track 1. -/
inductive Track where
  | main
  | prog
deriving DecidableEq, Repr, Inhabited

/-- The other track. -/
def Track.other : Track → Track
  | .main => .prog
  | .prog => .main

end Sys2Proof
end

