-- ==== Sys2Proof/Config.lean ====
section
/-! DEFINITION. What an implementation fixes: the parameters of 00_scope R5, the data types they speak of, the moves the
environment of the block can make, and the free values. -/

namespace Sys2Proof

/-- A packet `(buf, nbits, rep)` (10_state R20, 00_scope R13). -/
structure Packet where
  buf   : Buf
  nbits : BitVec 7
  rep   : BitVec 8
deriving DecidableEq, Repr, Inhabited

/-- A packet is legal when it has 1 to 80 bits (00_scope R13). -/
abbrev Packet.Legal (k : Packet) : Prop := 1 ≤ k.nbits.toNat ∧ k.nbits.toNat ≤ 80

/-- One register of the packet register file: two slots, the index of the active one and the pending-swap flag
(10_state R20). `act = false` is slot 0. -/
structure Register where
  slot0 : Packet
  slot1 : Packet
  act   : Bool
  pend  : Bool
deriving DecidableEq, Repr, Inhabited

/-- `CFG.kind` (10_state R39). Code 3 is never stored. -/
inductive DriverKind where
  | none
  | timer
  | ring
deriving DecidableEq, Repr, Inhabited

/-- `CFG.gran` (10_state R39). Code 3 is never stored. -/
inductive Gran where
  | bit
  | byte
  | packet
deriving DecidableEq, Repr, Inhabited

/-- `CFG`: the driver configuration of a track (10_state R39). -/
structure DriverConfig where
  kind   : DriverKind
  gran   : Gran
  thresh : BitVec 8
  pin    : BitVec 16
  unit   : BitVec 16
deriving DecidableEq, Repr, Inhabited

/-- The arguments of `PLATFORM_ACCEPTS` (00_scope R5, 44 R210): the track, the kind, the pin and unit asked for, and
the other track's configuration. -/
structure PlatformQuery where
  track : Track
  kind  : DriverKind
  pin   : BitVec 16
  unit  : BitVec 16
  other : DriverConfig
deriving DecidableEq, Repr, Inhabited

/-- The implementation parameters of 00_scope R5 as one record. `refuses` gives the predicate `PLATFORM_ACCEPTS` as
data: the argument tuples the platform refuses. Its domain is finite, so every predicate is such a list (log 4). -/
structure Params where
  nMain       : Nat
  seqCap      : Nat
  ringCap     : Nat
  ticksPerUs  : Nat
  resetPacket : Packet
  refuses     : List PlatformQuery
deriving DecidableEq, Repr, Inhabited

/-- The legal ranges of 00_scope R5. -/
structure Params.Legal (p : Params) : Prop where
  nMain       : 2 ≤ p.nMain ∧ p.nMain ≤ 128
  seqCap      : 1 ≤ p.seqCap ∧ p.seqCap ≤ 128
  ringCap     : 1 ≤ p.ringCap ∧ p.ringCap ≤ 4096
  ticksPerUs  : 1 ≤ p.ticksPerUs ∧ p.ticksPerUs ≤ 327
  resetPacket : p.resetPacket.Legal

/-- The default `RESET_PACKET` (00_scope R15): the idle packet framed explicitly, 42 bits. -/
def Config.idlePacket : Packet where
  buf := 0xFFFDFE007FC000000000#80
  nbits := 42
  rep := 0

/-- The defaults of 00_scope R5: `N_MAIN` 12, `SEQ_CAP` 16, `RING_CAP` 64, `TICKS_PER_US` 1, the idle packet. No default
of `PLATFORM_ACCEPTS` is given: this record accepts every argument (log 4, DESIGN CHOICE). -/
def Params.default : Params where
  nMain := 12
  seqCap := 16
  ringCap := 64
  ticksPerUs := 1
  resetPacket := Config.idlePacket
  refuses := []

/-- `N_PROG` (00_scope R5). -/
def Config.nProg : Nat := 2

/-- `MAXBITS` (00_scope R5). -/
def Config.maxBits : Nat := 80

/-- `T1_HALF_US` (00_scope R5, 43 R170). -/
def Config.t1HalfUs : Nat := 58

/-- `T0_HALF_US` (00_scope R5, 43 R170). -/
def Config.t0HalfUs : Nat := 100

/-- One move of the block's environment or of one of its agents (20_memory R64, R65, 70 R260, R282). A pull is no move of
its own: only a track's driver pulls, inside TA and REFILL (30_encoding R96, 20_memory R65). -/
inductive Move where
  /-- the producer drives a word into the command port (30_encoding R80) -/
  | word (w : Word)
  /-- the transition of a held WAIT (41 R126) -/
  | waitEnd
  /-- timer A expires at tick `now` (43 R172; the host gives the time, 70 R282) -/
  | ta (t : Track) (now : Nat)
  /-- timer B expires (43 R173) -/
  | tb (t : Track)
  /-- one refill of one unit (43 R182) -/
  | refill (t : Track)
  /-- the pulse peripheral sends one descriptor (43 R185) -/
  | drain (t : Track)
  /-- the pulse peripheral finds the ring empty (43 R186) -/
  | underrun (t : Track)
  /-- the reset input (70 R260) -/
  | reset
deriving DecidableEq, Repr, Inhabited

/-- FREE VALUE: the n-th move of the environment once the placed moves are used up (20_memory R66: steps interleave in
any order; 70 R282: the host sends any words, times and resets). Nothing is known of it (log 1). -/
opaque Config.move : Nat → Move

/-- FREE VALUE: `seqCur` after entry 127 retires: its 7 bits cannot hold 128 (10_state R33, 42 R141, log 10). -/
opaque Config.cursorPastEnd : BitVec 7

/-- FREE VALUE: what the register file holds at an index with no register. No reachable state reads it (log 8). -/
opaque Config.absentRegister : Nat → Register

/-- FREE VALUE: what the sequence buffer holds at an index with no entry. No reachable state reads it (log 8). -/
opaque Config.absentEntry : Nat → Packet

/-- FREE VALUE: what the ring holds at an index at or beyond `RING_CAP`. No reachable state reads it (log 8). -/
opaque Config.absentDescriptor : Nat → Word

/-- FREE VALUE: a packet bit at a position of 80 or more. No reachable state reads it (log 8). -/
opaque Config.absentBit : Buf → Nat → Bool

end Sys2Proof
end

