-- ==== Sys2Proof/Syntax.lean ====
section
/-! DEFINITION. The instructions: one constructor per row of spec/opcode_table.json. -/

namespace Sys2Proof

/-- One constructor per row of the opcode table (30_encoding R83). A command keeps the reserved bits of its header
(`rsv`): decode looks at the opcode alone (R91) and a nonzero reserved field is reported when the command executes (R92).
`W3[15:0]` of format P is ignored (R85) and is no operand. A pull is of the track whose pull port carries it (R96). -/
inductive Instr where
  /-- LOAD, format P (R84, R85, R110) -/
  | load (t : Track) (idx nbits : BitVec 7) (rsv : BitVec 5) (rep : BitVec 8) (buf : Buf)
  /-- SEQW, format P (R84 to R86, R120) -/
  | seqw (t : Track) (idx nbits : BitVec 7) (rsv : BitVec 5) (rep : BitVec 8) (buf : Buf)
  /-- SCHED, format C (R87, R122) -/
  | sched (t : Track) (rsv : BitVec 19) (cnt : BitVec 8)
  /-- KILL, format Z (R88, R124) -/
  | kill (t : Track) (rsv : BitVec 27)
  /-- WAIT, format C (R87, R126) -/
  | wait (t : Track) (rsv : BitVec 19) (cnt : BitVec 8)
  /-- STAT, format Z (R88, R214) -/
  | stat (t : Track) (rsv : BitVec 27)
  /-- ATTACH, format A (R89, R210) -/
  | attach (t : Track) (kind gran : BitVec 2) (thresh : BitVec 8) (rsv : BitVec 15) (pin unit : BitVec 16)
  /-- opcode 0 (R93): `rest` is `W0[26:0]` -/
  | illegal0 (t : Track) (rest : BitVec 27)
  /-- opcodes 8 to F (R93): `op` is `W0[30:28]`, `rest` is `W0[26:0]` -/
  | illegal8F (op : BitVec 3) (t : Track) (rest : BitVec 27)
  /-- pull code 01 (R96, R150) -/
  | pullBit (t : Track)
  /-- pull code 10 (R96, R151) -/
  | pullByte (t : Track)
  /-- pull code 11 (R96, R152) -/
  | pullPacket (t : Track)
deriving DecidableEq, Repr

/-- The track an instruction is about: `W0[27]` of a command (R80), the port's own track of a pull (R96). -/
def Instr.track : Instr → Track
  | .load t _ _ _ _ _ => t
  | .seqw t _ _ _ _ _ => t
  | .sched t _ _ => t
  | .kill t _ => t
  | .wait t _ _ => t
  | .stat t _ => t
  | .attach t _ _ _ _ _ _ => t
  | .illegal0 t _ => t
  | .illegal8F _ t _ => t
  | .pullBit t => t
  | .pullByte t => t
  | .pullPacket t => t

/-- Whether an instruction is a command of the producer rather than a pull (60 R236). -/
def Instr.isCommand : Instr → Bool
  | .load _ _ _ _ _ _ => true
  | .seqw _ _ _ _ _ _ => true
  | .sched _ _ _ => true
  | .kill _ _ => true
  | .wait _ _ _ => true
  | .stat _ _ => true
  | .attach _ _ _ _ _ _ _ => true
  | .illegal0 _ _ => true
  | .illegal8F _ _ _ => true
  | .pullBit _ => false
  | .pullByte _ => false
  | .pullPacket _ => false

end Sys2Proof
end

