-- ==== Sys2Proof/WellFormed.lean ====
section
/-! DEFINITION. Which instructions are well formed: the ones whose encoding carries no illegal bit. -/

namespace Sys2Proof

/-- A command is well formed when its opcode is legal (30_encoding R93) and the reserved bits of its header are zero
(R92). Every pull request is. An ill-formed command still executes: it ends with EILLEGAL. -/
def Instr.wf : Instr → Bool
  | .load _ _ _ rsv _ _ => rsv == 0
  | .seqw _ _ _ rsv _ _ => rsv == 0
  | .sched _ rsv _ => rsv == 0
  | .kill _ rsv => rsv == 0
  | .wait _ rsv _ => rsv == 0
  | .stat _ rsv => rsv == 0
  | .attach _ _ _ _ rsv _ _ => rsv == 0
  | .illegal0 _ _ => false
  | .illegal8F _ _ _ => false
  | .pullBit _ => true
  | .pullByte _ => true
  | .pullPacket _ => true

end Sys2Proof
end

