-- ==== Sys2Proof/Decode.lean ====
section
/-! DEFINITION. Decoding command words and pull requests (30_encoding), the encoder, and the host's view of the opcode
table's words. -/

namespace Sys2Proof

/-- Why nothing decodes yet: words of the command are missing (R81), or the pull port carries no request (R96). -/
inductive DecodeError where
  | incomplete (got need : Nat)
  | noRequest
deriving DecidableEq, Repr

/-- What carries an instruction: words on the command port, or a request code on a track's pull port. -/
inductive Request where
  | command (ws : List Word)
  | pull (t : Track) (pq : BitVec 2)
deriving DecidableEq, Repr

/-- `W0[31:28]` (R80). -/
def opcode (w0 : Word) : BitVec 4 := w0.extractLsb' 28 4

/-- `W0[27]`: 0 is `MAIN`, 1 is `PROG` (R80). -/
def trackOf (w0 : Word) : Track := if w0.getLsbD 27 then .prog else .main

/-- The track number as the bit `TRK` (00_scope R6). -/
def Track.bit : Track → BitVec 1
  | .main => 0
  | .prog => 1

/-- The number of words of a command, fixed by `OP` alone (R81). -/
def commandLength (w0 : Word) : Nat :=
  if opcode w0 = 1 ∨ opcode w0 = 2 then 4 else if opcode w0 = 7 then 2 else 1

/-- The packet bytes of the payload words, big-endian; `W3[15:0]` is ignored (R85). -/
def payload (w1 w2 w3 : Word) : Buf := w1 ++ w2 ++ w3.extractLsb' 16 16

/-- The command of a header word and of the payload words that follow it. Only the words of the command's own length
are read (R84 to R91, R93). -/
def decodeFields (w0 w1 w2 w3 : Word) : Instr :=
  let t := trackOf w0
  let op := opcode w0
  let idx : BitVec 7 := w0.extractLsb' 20 7
  let nbits : BitVec 7 := w0.extractLsb' 13 7
  let low8 : BitVec 8 := w0.extractLsb' 0 8
  let low27 : BitVec 27 := w0.extractLsb' 0 27
  if op = 0 then .illegal0 t low27
  else if op = 1 then .load t idx nbits (w0.extractLsb' 8 5) low8 (payload w1 w2 w3)
  else if op = 2 then .seqw t idx nbits (w0.extractLsb' 8 5) low8 (payload w1 w2 w3)
  else if op = 3 then .sched t (w0.extractLsb' 8 19) low8
  else if op = 4 then .kill t low27
  else if op = 5 then .wait t (w0.extractLsb' 8 19) low8
  else if op = 6 then .stat t low27
  else if op = 7 then
    .attach t (w0.extractLsb' 25 2) (w0.extractLsb' 23 2) (w0.extractLsb' 15 8) (w0.extractLsb' 0 15)
      (w1.extractLsb' 16 16) (w1.extractLsb' 0 16)
  else .illegal8F (w0.extractLsb' 28 3) t low27

/-- One command from the front of a list of words, and the words after it (R81, R91): total, and refused only while
words of the command are missing. -/
def decode (ws : List Word) : Except DecodeError (Instr × List Word) :=
  match ws with
  | [] => .error (.incomplete 0 1)
  | w0 :: rest =>
    if ws.length < commandLength w0 then .error (.incomplete ws.length (commandLength w0))
    else .ok (decodeFields w0 (rest.getD 0 0) (rest.getD 1 0) (rest.getD 2 0), ws.drop (commandLength w0))

/-- The pull-port request code `PQ` (R96). -/
def decodePull (t : Track) (pq : BitVec 2) : Except DecodeError Instr :=
  if pq = 1 then .ok (.pullBit t)
  else if pq = 2 then .ok (.pullByte t)
  else if pq = 3 then .ok (.pullPacket t)
  else .error .noRequest

/-- The instruction of a request; a command must be there whole, with nothing after it. -/
def decodeRequest : Request → Except DecodeError Instr
  | .command ws => (decode ws).map Prod.fst
  | .pull t pq => decodePull t pq

/-- The header of format P (R84). -/
def headerP (op : BitVec 4) (t : Track) (idx nbits : BitVec 7) (rsv : BitVec 5) (rep : BitVec 8) : Word :=
  op ++ t.bit ++ idx ++ nbits ++ rsv ++ rep

/-- The payload words of format P, with `W3[15:0]` zero (R85). -/
def payloadWords (buf : Buf) : List Word :=
  [buf.extractLsb' 48 32, buf.extractLsb' 16 32, buf.extractLsb' 0 16 ++ (0 : BitVec 16)]

/-- The header of format C (R87). -/
def headerC (op : BitVec 4) (t : Track) (rsv : BitVec 19) (cnt : BitVec 8) : Word :=
  op ++ t.bit ++ rsv ++ cnt

/-- The header of format Z (R88), and the word of an illegal opcode (R93). -/
def headerZ (op : BitVec 4) (t : Track) (rest : BitVec 27) : Word :=
  op ++ t.bit ++ rest

/-- The header of format A (R89). -/
def headerA (t : Track) (kind gran : BitVec 2) (thresh : BitVec 8) (rsv : BitVec 15) : Word :=
  (7 : BitVec 4) ++ t.bit ++ kind ++ gran ++ thresh ++ rsv

/-- The words, or the pull code, of an instruction (R84 to R89, R93, R96). -/
def encode : Instr → Request
  | .load t idx nbits rsv rep buf => .command (headerP 1 t idx nbits rsv rep :: payloadWords buf)
  | .seqw t idx nbits rsv rep buf => .command (headerP 2 t idx nbits rsv rep :: payloadWords buf)
  | .sched t rsv cnt => .command [headerC 3 t rsv cnt]
  | .kill t rsv => .command [headerZ 4 t rsv]
  | .wait t rsv cnt => .command [headerC 5 t rsv cnt]
  | .stat t rsv => .command [headerZ 6 t rsv]
  | .attach t kind gran thresh rsv pin unit => .command [headerA t kind gran thresh rsv, pin ++ unit]
  | .illegal0 t rest => .command [headerZ 0 t rest]
  | .illegal8F op t rest => .command [headerZ ((1 : BitVec 1) ++ op) t rest]
  | .pullBit t => .pull t 1
  | .pullByte t => .pull t 2
  | .pullPacket t => .pull t 3

/-- The four words of an instruction numbered as the opcode table numbers its bits: bit 0 is the least significant bit of
the first word, and later words count on from it. Bits at or above `nbits` are zero. -/
def tableWords (nbits w : Nat) : List Word :=
  let v := w % 2 ^ nbits
  [BitVec.ofNat 32 v, BitVec.ofNat 32 (v / 2 ^ 32), BitVec.ofNat 32 (v / 2 ^ 64), BitVec.ofNat 32 (v / 2 ^ 96)]

/-- What the decoder reads from an instruction of the opcode table whose bits are `w`. A row of less than one command
word is a pull-port request, its code in bits 1..0 (R96); it is read on the `MAIN` port. Every other row is a command. -/
def decodeTableWord (nbits w : Nat) : Option Instr :=
  if nbits < 32 then (decodePull .main (BitVec.ofNat 2 w)).toOption
  else (decode (tableWords nbits w)).toOption.map Prod.fst

end Sys2Proof
end

