-- ==== Sys2Proof/Machine/State.lean ====
section
/-! DEFINITION. The state of the block (10_state), its reset value (70 R260), and the reasons a step could stop. -/

namespace Sys2Proof.Machine

/-- `LATCH`: the packet in flight (10_state R28). -/
structure Latch where
  buf   : Buf
  nbits : BitVec 7
deriving DecidableEq, Repr, Inhabited

/-- The status codes (60 R230). Codes 9 to 15 are never produced, so they have no constructor. -/
inductive Status where
  | ok
  | eBadReg
  | eBadLen
  | eBusy
  | eBadCnt
  | eIllegal
  | eCfg
  | eAttached
  | eBadIdx
deriving DecidableEq, Repr, Inhabited

/-- `tPhase`: idle, armed, high phase, low phase (10_state R42). -/
inductive Phase where
  | idle
  | armed
  | high
  | low
deriving DecidableEq, Repr, Inhabited

/-- A compare timer (10_state R43): disarmed, armed with no compare time yet (60 R237, log 5), due at once (43 R171), or
due at an absolute tick. -/
inductive Timer where
  | disarmed
  | armed
  | dueAtOnce
  | due (tick : Nat)
deriving DecidableEq, Repr, Inhabited

/-- The duration of a waveform segment: ticks, or the marker `FREEZE` (10_state R52). -/
inductive Duration where
  | ticks (n : Nat)
  | freeze
deriving DecidableEq, Repr, Inhabited

/-- One segment of the output trace (10_state R52). -/
structure Segment where
  level : Bool
  dur   : Duration
deriving DecidableEq, Repr, Inhabited

/-- A held WAIT: its track and its threshold (10_state R46). -/
structure WaitHold where
  track : Track
  thr   : BitVec 8
deriving DecidableEq, Repr, Inhabited

/-- Everything the spec gives one track (10_state R20 to R44, R52). -/
structure TrackState where
  /-- `REG[t]` (R20) -/
  regs         : List Register
  /-- `maxLoaded[t]` (R25) -/
  maxLoaded    : BitVec 7
  /-- `curReg[t]` (R26) -/
  curReg       : BitVec 7
  /-- `nextV[t]` (R27) -/
  nextV        : Bool
  /-- `nextIdx[t]` (R27) -/
  nextIdx      : BitVec 7
  /-- `LATCH[t]` (R28) -/
  latch        : Latch
  /-- `bitPos[t]` (R28) -/
  bitPos       : BitVec 7
  /-- `SEQ[t]` (R30) -/
  seq          : List Packet
  /-- `seqActive[t]` (R31) -/
  seqActive    : Bool
  /-- `seqLen[t]` (R32) -/
  seqLen       : BitVec 8
  /-- `seqCur[t]` (R33) -/
  seqCur       : BitVec 7
  /-- `seqRetire[t]` (R34) -/
  seqRetire    : Bool
  /-- `lastStatus[t]` (R35) -/
  lastStatus   : Status
  /-- `UNDERRUN[t]` (R36) -/
  underrunFlag : Bool
  /-- `MIX[t]` (R37) -/
  mix          : Bool
  /-- `CFG[t]` (R39) -/
  cfg          : DriverConfig
  /-- `pin[t]` (R41) -/
  pin          : Bool
  /-- `tPhase[t]` (R42) -/
  tPhase       : Phase
  /-- `tBit[t]` (R42) -/
  tBit         : Bool
  /-- `tA[t]`, an annotation (R43) -/
  tA           : Timer
  /-- `tB[t]`, an annotation (R43) -/
  tB           : Timer
  /-- `RING[t]` (R44) -/
  ring         : List Word
  /-- `rHead[t]` (R44) -/
  rHead        : Nat
  /-- `rCount[t]` (R44) -/
  rCount       : Nat
  /-- `refilling[t]` (R44) -/
  refilling    : Bool
  /-- `running[t]` (R44) -/
  running      : Bool
  /-- `frozen[t]` (R44) -/
  frozen       : Bool
  /-- `WAVE[t]`, oldest segment first; an observation (R52) -/
  wave         : List Segment
  /-- the reply line of the pull port for NEXTBIT: the bit last pulled (30_encoding R96, log 6) -/
  replyBit     : Bool
  /-- the reply lines of the pull port for NEXTBYTE: the byte last pulled (30_encoding R96, log 6) -/
  replyByte    : Byte
  /-- the reply lines of the pull port for NEXTPACKET: the packet last pulled (30_encoding R96, log 6) -/
  replyPacket  : Latch
deriving DecidableEq, Repr, Inhabited

/-- The state of the block: its parameters (log 3), the two tracks, the command port, and the model's own environment
fields `pending` and `moveNo` (log 1). -/
structure State where
  /-- the implementation parameters (00_scope R5); no step changes them -/
  params    : Params
  /-- track `MAIN` -/
  main      : TrackState
  /-- track `PROG` -/
  prog      : TrackState
  /-- the words of the command being received (10_state R45) -/
  cmdWords  : List Word
  /-- the pending WAIT (10_state R46) -/
  waitHold  : Option WaitHold
  /-- the response words since reset, oldest first (10_state R53) -/
  responses : List Word
  /-- the moves the environment has placed, the next one first -/
  pending   : List Move
  /-- how many moves have been taken from `Config.move` -/
  moveNo    : Nat
deriving DecidableEq, Repr, Inhabited

/-- Why a step would stop with a fault. The block has no fault: nothing traps, halts or saves state (60 R232), and no
state is final (70 R281). So there is no constructor, nobody raises a fault, and leaving them out is as the spec says. -/
inductive Fault where
deriving DecidableEq, Repr

/-- Why an instruction would have no meaning. -/
inductive Refusal where
  /-- An instruction whose meaning is not written yet. No arm of `exec` raises it: every row of the opcode table has its
  meaning. Raising it would be safe (the model would stop where the block goes on). -/
  | notModelled (mnemonic : String)
deriving DecidableEq, Repr

/-- The packet every slot and every sequence entry holds after reset: `RESET_PACKET` with `rep = 0` (10_state R24, R30). -/
def resetContent (p : Params) : Packet := { p.resetPacket with rep := 0 }

/-- The reset value of a register (10_state R24). -/
def resetRegister (p : Params) : Register where
  slot0 := resetContent p
  slot1 := resetContent p
  act := false
  pend := false

/-- No driver (10_state R39). -/
def resetConfig : DriverConfig where
  kind := .none
  gran := .bit
  thresh := 0
  pin := 0
  unit := 0

/-- The reset value of a track with `nreg` registers (70 R260). -/
def TrackState.resetWith (p : Params) (nreg : Nat) : TrackState where
  regs := List.replicate nreg (resetRegister p)
  maxLoaded := 1
  curReg := 1
  nextV := false
  nextIdx := 0
  latch := { buf := 0, nbits := 0 }
  bitPos := 0
  seq := List.replicate p.seqCap (resetContent p)
  seqActive := false
  seqLen := 0
  seqCur := 0
  seqRetire := false
  lastStatus := .ok
  underrunFlag := false
  mix := false
  cfg := resetConfig
  pin := false
  tPhase := .idle
  tBit := false
  tA := .disarmed
  tB := .disarmed
  ring := List.replicate p.ringCap 0
  rHead := 0
  rCount := 0
  refilling := false
  running := false
  frozen := false
  wave := []
  replyBit := false
  replyByte := 0
  replyPacket := { buf := 0, nbits := 0 }

/-- The state after reset of a block with parameters `p`, no move placed (70 R260). -/
def State.resetWith (p : Params) : State where
  params := p
  main := TrackState.resetWith p p.nMain
  prog := TrackState.resetWith p Config.nProg
  cmdWords := []
  waitHold := none
  responses := []
  pending := []
  moveNo := 0

/-- The state after reset of a block with the spec's default parameters (00_scope R5, 70 R260). -/
def State.reset : State := State.resetWith Params.default

end Sys2Proof.Machine
end

