-- ==== Sys2Proof/Machine/Operands.lean ====
section
/-! DEFINITION. Operand forms: the field enumerations of ATTACH and their codes, the sizes that a granularity and a track
give, packet bits, bit periods and pulse descriptors. -/

namespace Sys2Proof

/-- The 2-bit code of `CFG.kind` (10_state R39). -/
def DriverKind.code : DriverKind → BitVec 2
  | .none => 0
  | .timer => 1
  | .ring => 2

/-- The 2-bit code of `CFG.gran` (10_state R39). -/
def Gran.code : Gran → BitVec 2
  | .bit => 0
  | .byte => 1
  | .packet => 2

/-- `KIND` of ATTACH: 1 and 2 select a driver, 0 and 3 are reserved (30_encoding R89, R90). -/
def kindOf (k : BitVec 2) : Option DriverKind :=
  if k = 1 then some .timer else if k = 2 then some .ring else none

/-- `GRAN` of ATTACH: 3 is reserved (30_encoding R89, R90). -/
def granOf (g : BitVec 2) : Option Gran :=
  if g = 0 then some .bit else if g = 1 then some .byte else if g = 2 then some .packet else none

/-- `unit(gran)`: the descriptors of one refill (10_state R39, 43 R180). -/
def Gran.unit : Gran → Nat
  | .bit => 1
  | .byte => 8
  | .packet => Config.maxBits

/-- `NREG(t)` (00_scope R6). -/
def Params.nreg (p : Params) : Track → Nat
  | .main => p.nMain
  | .prog => Config.nProg

/-- `PLATFORM_ACCEPTS` (00_scope R5). -/
def Params.accepts (p : Params) (q : PlatformQuery) : Bool := !p.refuses.contains q

/-- `buf[k]`, a byte of a packet buffer (00_scope R8). -/
def byteOf (buf : Buf) (k : Nat) : Byte := buf.extractLsb' (72 - 8 * k) 8

/-- `pbit(buf, i) = buf[i div 8][7 - (i mod 8)]` (00_scope R8). -/
def pbit (buf : Buf) (i : Nat) : Bool :=
  if i < 80 then (byteOf buf (i / 8)).getLsbD (7 - i % 8) else Config.absentBit buf i

/-- `H(b)`: the half-period of bit `b` in ticks (00_scope R10, 43 R170). -/
def Params.halfPeriod (p : Params) (b : Bool) : Nat :=
  (if b then Config.t1HalfUs else Config.t0HalfUs) * p.ticksPerUs

/-- `desc(b)`: high for `H(b)` ticks, then low for `H(b)` ticks (30_encoding R95). -/
def Params.desc (p : Params) (b : Bool) : Word :=
  (1 : BitVec 1) ++ BitVec.ofNat 15 (p.halfPeriod b) ++ (0 : BitVec 1) ++ BitVec.ofNat 15 (p.halfPeriod b)

/-- `L0` of a descriptor (30_encoding R95). -/
def descL0 (d : Word) : Bool := d.getLsbD 31

/-- `DUR0` of a descriptor (30_encoding R95). -/
def descDur0 (d : Word) : Nat := (d.extractLsb' 16 15).toNat

/-- `L1` of a descriptor (30_encoding R95). -/
def descL1 (d : Word) : Bool := d.getLsbD 15

/-- `DUR1` of a descriptor (30_encoding R95). -/
def descDur1 (d : Word) : Nat := (d.extractLsb' 0 15).toNat

end Sys2Proof
end

