-- ==== Sys2Proof/Machine/Ops.lean ====
section
/-! DEFINITION. The named operations over the block's storage: tracks, registers, sequence entries, the ring, the output
trace. The block has no trap and so no trap entry or return (60 R232). -/

namespace Sys2Proof

/-- `slot[act]` (10_state R21). -/
def Register.active (r : Register) : Packet := if r.act then r.slot1 else r.slot0

/-- `slot[1 - act]` (10_state R21). -/
def Register.inactive (r : Register) : Packet := if r.act then r.slot0 else r.slot1

/-- Write the inactive slot and set `pend` (40 R110, 10_state R22). -/
def Register.load (r : Register) (k : Packet) : Register :=
  if r.act then { r with slot0 := k, pend := true } else { r with slot1 := k, pend := true }

/-- The swap of TAKE: if `pend` is set, flip `act` and clear `pend` (10_state R22, 42 R142). -/
def Register.swap (r : Register) : Register :=
  if r.pend then { r with act := !r.act, pend := false } else r

/-- Write `rep` of the active slot (42 R141 step 2, R142). -/
def Register.setActiveRep (r : Register) (v : BitVec 8) : Register :=
  if r.act then { r with slot1 := { r.slot1 with rep := v } } else { r with slot0 := { r.slot0 with rep := v } }

namespace Machine

/-- The state of a track. -/
def State.track (s : State) : Track → TrackState
  | .main => s.main
  | .prog => s.prog

/-- Write the state of a track. -/
def State.setTrack (s : State) (t : Track) (ts : TrackState) : State :=
  match t with
  | .main => { s with main := ts }
  | .prog => { s with prog := ts }

/-- `REG[t][r]` (10_state R20). An index with no register reads a free value (log 8). -/
def TrackState.register (ts : TrackState) (r : BitVec 7) : Register :=
  ts.regs.getD r.toNat (Config.absentRegister r.toNat)

/-- Write `REG[t][r]`. -/
def TrackState.setRegister (ts : TrackState) (r : BitVec 7) (g : Register) : TrackState :=
  { ts with regs := ts.regs.set r.toNat g }

/-- `SEQ[t][i]` (10_state R30). An index with no entry reads a free value (log 8). -/
def TrackState.entry (ts : TrackState) (i : BitVec 7) : Packet :=
  ts.seq.getD i.toNat (Config.absentEntry i.toNat)

/-- Write `SEQ[t][i]`. -/
def TrackState.setEntry (ts : TrackState) (i : BitVec 7) (k : Packet) : TrackState :=
  { ts with seq := ts.seq.set i.toNat k }

/-- Load `LATCH` with a copy of a packet and set `bitPos` to 0 (10_state R28). -/
def TrackState.setLatch (ts : TrackState) (k : Packet) : TrackState :=
  { ts with latch := { buf := k.buf, nbits := k.nbits }, bitPos := 0 }

/-- `emit(t, level, d)` (00_scope R10). -/
def TrackState.emit (ts : TrackState) (level : Bool) (d : Duration) : TrackState :=
  { ts with wave := ts.wave ++ [{ level := level, dur := d }] }

/-- The oldest descriptor of the ring (43 R185). -/
def TrackState.ringFront (ts : TrackState) : Word :=
  ts.ring.getD ts.rHead (Config.absentDescriptor ts.rHead)

/-- `push(t, d)` with `RING_CAP = cap` (43 R181). -/
def TrackState.push (cap : Nat) (ts : TrackState) (d : Word) : TrackState :=
  { ts with ring := ts.ring.set ((ts.rHead + ts.rCount) % cap) d, rCount := ts.rCount + 1 }

/-- Push one descriptor per bit, in order (43 R182). -/
def TrackState.pushBits (p : Params) (ts : TrackState) (bits : List Bool) : TrackState :=
  bits.foldl (fun ts b => ts.push p.ringCap (p.desc b)) ts

/-- `respond(w)` (00_scope R10). -/
def State.respond (s : State) (w : Word) : State := { s with responses := s.responses ++ [w] }

end Machine

end Sys2Proof
end

