-- ==== Sys2Proof/Machine/Flags.lean ====
section
/-! DEFINITION. Status codes and flags: the code of a status, the end of a command, the STATUS word, and the saturating
decrement of the repeat counters. The block has no arithmetic condition codes (10_state R38). -/

namespace Sys2Proof.Machine

/-- `satdec8` (00_scope R9). -/
def satdec8 (v : BitVec 8) : BitVec 8 := if v = 0 then 0 else v - 1

/-- The 4-bit status code (60 R230). -/
def Status.code : Status → BitVec 4
  | .ok => 0
  | .eBadReg => 1
  | .eBadLen => 2
  | .eBusy => 3
  | .eBadCnt => 4
  | .eIllegal => 5
  | .eCfg => 6
  | .eAttached => 7
  | .eBadIdx => 8

/-- `status(c)`: write `lastStatus[t]`, then respond with the code (00_scope R10). -/
def State.status (s : State) (t : Track) (c : Status) : State :=
  (s.setTrack t { s.track t with lastStatus := c }).respond (c.code.setWidth 32)

/-- The STATUS word (10_state R40, 44 R214). -/
def TrackState.statusWord (ts : TrackState) : Word :=
  ts.curReg ++ ts.maxLoaded ++ ts.cfg.kind.code ++ BitVec.ofBool ts.mix ++ BitVec.ofBool ts.underrunFlag ++
    BitVec.ofBool ts.nextV ++ ts.seqLen ++ BitVec.ofBool ts.seqActive ++ ts.lastStatus.code

end Sys2Proof.Machine
end

