-- ==== Sys2Proof/Machine/Control.lean ====
section
/-! DEFINITION. ATTACH and STAT (44 R210 to R215), and the illegal opcodes (30_encoding R93). -/

namespace Sys2Proof.Machine

/-- Start the timer driver: phase ARMED, both timers armed: A is due at once, B gets its compare time from the first TA
(44 R210, 43 R171, 60 R237, log 5). -/
def TrackState.attachTimer (ts : TrackState) (pin unit : BitVec 16) : TrackState :=
  { ts with
    cfg := { kind := .timer, gran := .bit, thresh := 0, pin := pin, unit := unit }
    tPhase := .armed
    tA := .dueAtOnce
    tB := .armed }

/-- Start the ring driver: an empty ring, asked to fill, not yet draining (44 R210). -/
def TrackState.attachRing (ts : TrackState) (g : Gran) (thresh : BitVec 8) (pin unit : BitVec 16) : TrackState :=
  { ts with
    cfg := { kind := .ring, gran := g, thresh := thresh, pin := pin, unit := unit }
    rHead := 0
    rCount := 0
    refilling := true
    running := false
    frozen := false }

/-- Whether the platform accepts a driver for track `t`; it may look at the other track's configuration (44 R210). -/
def State.platformAccepts (s : State) (t : Track) (k : DriverKind) (pin unit : BitVec 16) : Bool :=
  s.params.accepts { track := t, kind := k, pin := pin, unit := unit, other := (s.track t.other).cfg }

/-- ATTACH after its reserved bits and the track's being unattached are checked: a reserved kind, then a reserved
granularity or a threshold with no room for a unit, then the platform's refusal are ECFG (44 R210, 60 R231). -/
def State.attachDriver (s : State) (t : Track) (kind gran : BitVec 2) (thresh : BitVec 8) (pin unit : BitVec 16) :
    State :=
  match kindOf kind with
  | some .timer =>
    if s.platformAccepts t .timer pin unit then
      (s.setTrack t ((s.track t).attachTimer pin unit)).status t .ok
    else s.status t .eCfg
  | some .ring =>
    match granOf gran with
    | some g =>
      if s.params.ringCap < thresh.toNat + g.unit then s.status t .eCfg
      else if s.platformAccepts t .ring pin unit then
        (s.setTrack t ((s.track t).attachRing g thresh pin unit)).status t .ok
      else s.status t .eCfg
    | none => s.status t .eCfg
  | _ => s.status t .eCfg

/-- ATTACH (44 R210). -/
def execAttach (t : Track) (kind gran : BitVec 2) (thresh : BitVec 8) (rsv : BitVec 15) (pin unit : BitVec 16)
    (s : State) : Host.Outcome State Fault Refusal :=
  .next (
    if rsv ≠ 0 then s.status t .eIllegal
    else if (s.track t).cfg.kind ≠ .none then s.status t .eAttached
    else s.attachDriver t kind gran thresh pin unit)

/-- STAT: respond with STATUS, write nothing (44 R214). -/
def execStat (t : Track) (rsv : BitVec 27) (s : State) : Host.Outcome State Fault Refusal :=
  .next (if rsv ≠ 0 then s.status t .eIllegal else s.respond (s.track t).statusWord)

/-- Opcode 0: EILLEGAL on track `W0[27]` (30_encoding R93, R94). -/
def execIllegal0 (t : Track) (_rest : BitVec 27) (s : State) : Host.Outcome State Fault Refusal :=
  .next (s.status t .eIllegal)

/-- Opcodes 8 to F: EILLEGAL on track `W0[27]` (30_encoding R93, R94). -/
def execIllegal8F (_op : BitVec 3) (t : Track) (_rest : BitVec 27) (s : State) : Host.Outcome State Fault Refusal :=
  .next (s.status t .eIllegal)

end Sys2Proof.Machine
end

