-- ==== Sys2Proof/Machine/Advance.lean ====
section
/-! DEFINITION. The advance decision AD and TAKE (42 R140 to R146). -/

namespace Sys2Proof.Machine

/-- The cursor after the current entry. Entry 127 has no 7-bit successor: a free value, which nothing reads, since the
sequence ends there (10_state R33, 42 R141, log 10). -/
def TrackState.nextCursor (ts : TrackState) : BitVec 7 :=
  if ts.seqCur = 127 then Config.cursorPastEnd else ts.seqCur + 1

/-- Part (a) of AD: retire the sequence entry whose last repeat has just completed (42 R141). -/
def TrackState.retire (ts : TrackState) : TrackState :=
  if ts.seqRetire then
    { ts with
      seqRetire := false
      seqLen := ts.seqLen - 1
      seqCur := ts.nextCursor
      seqActive := if ts.seqLen - 1 = 0 then false else ts.seqActive }
  else ts

/-- Step 1 of AD: send the current sequence entry (42 R141). -/
def TrackState.sendEntry (ts : TrackState) : TrackState :=
  let e := ts.entry ts.seqCur
  let ts := (ts.setLatch e).setEntry ts.seqCur { e with rep := satdec8 e.rep }
  if satdec8 e.rep = 0 then { ts with seqRetire := true } else ts

/-- Step 2 of AD: send register 0's packet again (42 R141). -/
def TrackState.repeatOneShot (ts : TrackState) : TrackState :=
  let g := ts.register 0
  (ts.setRegister 0 (g.setActiveRep (g.active.rep - 1))).setLatch g.active

/-- TAKE: make register `r` the source of the next packet (42 R142). -/
def TrackState.take (ts : TrackState) (r : BitVec 7) : TrackState :=
  let g := (ts.register r).swap
  let k := g.active
  let g := if r = 0 then g.setActiveRep (satdec8 k.rep) else g
  (ts.setRegister r g).setLatch k

/-- The register steps 3 and 4 of AD choose: the pending hot swap, else round robin (42 R141, R144). -/
def TrackState.nextRegister (ts : TrackState) : BitVec 7 :=
  if ts.nextV then ts.nextIdx else if ts.maxLoaded ≤ ts.curReg then 1 else ts.curReg + 1

/-- Steps 3 and 4 of AD (42 R141). -/
def TrackState.rotate (ts : TrackState) : TrackState :=
  ({ ts with nextV := false, curReg := ts.nextRegister }).take ts.nextRegister

/-- `AD(t)`: part (a), then the first of steps 1 to 4 whose condition holds (42 R141). -/
def TrackState.advance (ts : TrackState) : TrackState :=
  let ts := ts.retire
  if ts.seqActive then ts.sendEntry
  else if ts.curReg = 0 ∧ 0 < (ts.register 0).active.rep then ts.repeatOneShot
  else ts.rotate

end Sys2Proof.Machine
end

