-- ==== Sys2Proof/Machine/Pull.lean ====
section
/-! DEFINITION. The pulls NEXTBIT, NEXTBYTE and NEXTPACKET (42 R150 to R154) and the meanings of the table's PULL rows. -/

namespace Sys2Proof.Machine

/-- The packet boundary of a pull of bits: AD runs when the current packet is exhausted (42 R140). -/
def TrackState.boundary (ts : TrackState) : TrackState :=
  if ts.bitPos = ts.latch.nbits then ts.advance else ts

/-- NEXTBIT: the bit, and the track after it (42 R150). -/
def TrackState.nextBit (ts : TrackState) : Bool × TrackState :=
  let ts := ts.boundary
  (pbit ts.latch.buf ts.bitPos.toNat, { ts with bitPos := ts.bitPos + 1 })

/-- `n` NEXTBITs in a row: the bits in pull order, and the track after them. -/
def TrackState.nextBits : Nat → TrackState → List Bool × TrackState
  | 0, ts => ([], ts)
  | n + 1, ts =>
    let r := ts.nextBit
    let q := r.2.nextBits n
    (r.1 :: q.1, q.2)

/-- The byte of eight bits, the first in bit 7 (42 R151). -/
def byteOfBits (bits : List Bool) : Byte :=
  bits.foldl (fun v b => v <<< 1 ||| (BitVec.ofBool b).setWidth 8) 0

/-- NEXTBYTE: eight NEXTBITs, any boundary included (42 R151). -/
def TrackState.nextByte (ts : TrackState) : Byte × TrackState :=
  let r := ts.nextBits 8
  (byteOfBits r.1, r.2)

/-- The bits that are left of the current packet are discarded: `MIX` records it (42 R152, 10_state R37). -/
def TrackState.discard (ts : TrackState) : TrackState :=
  if ts.bitPos < ts.latch.nbits then { ts with mix := true } else ts

/-- NEXTPACKET: the packet, and the track after it (42 R152). -/
def TrackState.nextPacket (ts : TrackState) : Latch × TrackState :=
  let ts := ts.discard.advance
  (ts.latch, { ts with bitPos := ts.latch.nbits })

/-- NEXTBIT, its reply on the pull port (42 R150, 30_encoding R96). -/
def TrackState.pullBit (ts : TrackState) : TrackState :=
  let r := ts.nextBit
  { r.2 with replyBit := r.1 }

/-- NEXTBYTE, its reply on the pull port (42 R151, 30_encoding R96). -/
def TrackState.pullByte (ts : TrackState) : TrackState :=
  let r := ts.nextByte
  { r.2 with replyByte := r.1 }

/-- NEXTPACKET, its reply on the pull port (42 R152, 30_encoding R96). -/
def TrackState.pullPacket (ts : TrackState) : TrackState :=
  let r := ts.nextPacket
  { r.2 with replyPacket := r.1 }

/-- PULL.BIT: NEXTBIT on the pull port of track `t` (42 R150, 30_encoding R96). -/
def execPullBit (t : Track) (s : State) : Host.Outcome State Fault Refusal :=
  .next (s.setTrack t (s.track t).pullBit)

/-- PULL.BYTE: NEXTBYTE on the pull port of track `t` (42 R151, 30_encoding R96). -/
def execPullByte (t : Track) (s : State) : Host.Outcome State Fault Refusal :=
  .next (s.setTrack t (s.track t).pullByte)

/-- PULL.PACKET: NEXTPACKET on the pull port of track `t` (42 R152, 30_encoding R96). -/
def execPullPacket (t : Track) (s : State) : Host.Outcome State Fault Refusal :=
  .next (s.setTrack t (s.track t).pullPacket)

end Sys2Proof.Machine
end

