-- ==== Sys2Proof/Machine/Load.lean ====
section
/-! DEFINITION. LOAD (40 R110 to R114). -/

namespace Sys2Proof.Machine

/-- The hot-swap request after a LOAD of register `r`: a pending request for register 0 is not displaced by a LOAD of
another register (40 R110, R111). -/
def TrackState.requestSwap (ts : TrackState) (r : BitVec 7) : TrackState :=
  if ts.nextV = true ∧ ts.nextIdx = 0 ∧ r ≠ 0 then ts else { ts with nextV := true, nextIdx := r }

/-- The high-water mark after a LOAD of register `r` (40 R113). -/
def TrackState.raiseMark (ts : TrackState) (r : BitVec 7) : TrackState :=
  if 1 ≤ r then { ts with maxLoaded := if ts.maxLoaded < r then r else ts.maxLoaded } else ts

/-- What an accepted LOAD does to its track (40 R110). -/
def TrackState.loadRegister (ts : TrackState) (r : BitVec 7) (k : Packet) : TrackState :=
  ((ts.setRegister r ((ts.register r).load k)).requestSwap r).raiseMark r

/-- A packet length no LOAD or SEQW accepts: 0, or above 80 (40 R110, 41 R120). -/
def badLength (nbits : BitVec 7) : Bool := nbits == 0 || decide (80 < nbits.toNat)

/-- LOAD (40 R110), its checks in the order of 60 R231. -/
def execLoad (t : Track) (idx nbits : BitVec 7) (rsv : BitVec 5) (rep : BitVec 8) (buf : Buf) (s : State) :
    Host.Outcome State Fault Refusal :=
  .next (
    if rsv ≠ 0 then s.status t .eIllegal
    else if s.params.nreg t ≤ idx.toNat then s.status t .eBadReg
    else if badLength nbits then s.status t .eBadLen
    else (s.setTrack t ((s.track t).loadRegister idx { buf := buf, nbits := nbits, rep := rep })).status t .ok)

end Sys2Proof.Machine
end

