-- ==== Sys2Proof/Machine/Sequence.lean ====
section
/-! DEFINITION. The priority sequence operations SEQW, SCHED, KILL and WAIT (41 R120 to R127). -/

namespace Sys2Proof.Machine

/-- SEQW: stage one entry (41 R120), its checks in the order of 60 R231. -/
def execSeqw (t : Track) (idx nbits : BitVec 7) (rsv : BitVec 5) (rep : BitVec 8) (buf : Buf) (s : State) :
    Host.Outcome State Fault Refusal :=
  .next (
    if rsv ≠ 0 then s.status t .eIllegal
    else if (s.track t).seqActive then s.status t .eBusy
    else if s.params.seqCap ≤ idx.toNat then s.status t .eBadIdx
    else if badLength nbits then s.status t .eBadLen
    else (s.setTrack t ((s.track t).setEntry idx { buf := buf, nbits := nbits, rep := rep })).status t .ok)

/-- SCHED: install the first `cnt` staged entries (41 R122). -/
def execSched (t : Track) (rsv : BitVec 19) (cnt : BitVec 8) (s : State) : Host.Outcome State Fault Refusal :=
  .next (
    if rsv ≠ 0 then s.status t .eIllegal
    else if (s.track t).seqActive then s.status t .eBusy
    else if cnt = 0 ∨ s.params.seqCap < cnt.toNat then s.status t .eBadCnt
    else
      (s.setTrack t
        { s.track t with seqActive := true, seqLen := cnt, seqCur := 0, seqRetire := false }).status t .ok)

/-- KILL: end the active sequence; the latch and `bitPos` are not touched (41 R124). -/
def execKill (t : Track) (rsv : BitVec 27) (s : State) : Host.Outcome State Fault Refusal :=
  .next (
    if rsv ≠ 0 then s.status t .eIllegal
    else
      (s.setTrack t
        { s.track t with seqActive := false, seqLen := 0, seqCur := 0, seqRetire := false }).status t .ok)

/-- The test that ends a WAIT: "at most" (41 R126). -/
def State.waitDone (s : State) (h : WaitHold) : Bool := decide ((s.track h.track).seqLen ≤ h.thr)

/-- WAIT: respond at once if the remaining length is at most the threshold, else hold the command port (41 R126). -/
def execWait (t : Track) (rsv : BitVec 19) (cnt : BitVec 8) (s : State) : Host.Outcome State Fault Refusal :=
  .next (
    if rsv ≠ 0 then s.status t .eIllegal
    else if s.waitDone { track := t, thr := cnt } then ({ s with waitHold := none }).status t .ok
    else { s with waitHold := some { track := t, thr := cnt } })

/-- The transition of a held WAIT: it has none until the remaining length is at most the threshold (41 R126, log 11). -/
def State.endWait (s : State) : State :=
  match s.waitHold with
  | none => s
  | some h => if s.waitDone h then ({ s with waitHold := none }).status h.track .ok else s

end Sys2Proof.Machine
end

