-- ==== Sys2Proof/Machine/Dispatch.lean ====
section
/-! DEFINITION. The meaning of each instruction: one arm per constructor of `Instr`. -/

namespace Sys2Proof.Machine

/-- The effect of a command or of a pull as one atomic step (20_memory R64). -/
def exec (i : Instr) (s : State) : Host.Outcome State Fault Refusal :=
  match i with
  | .load t idx nbits rsv rep buf => Sys2Proof.Machine.execLoad t idx nbits rsv rep buf s
  | .seqw t idx nbits rsv rep buf => Sys2Proof.Machine.execSeqw t idx nbits rsv rep buf s
  | .sched t rsv cnt => Sys2Proof.Machine.execSched t rsv cnt s
  | .kill t rsv => Sys2Proof.Machine.execKill t rsv s
  | .wait t rsv cnt => Sys2Proof.Machine.execWait t rsv cnt s
  | .stat t rsv => Sys2Proof.Machine.execStat t rsv s
  | .attach t kind gran thresh rsv pin unit => Sys2Proof.Machine.execAttach t kind gran thresh rsv pin unit s
  | .illegal0 t rest => Sys2Proof.Machine.execIllegal0 t rest s
  | .illegal8F op t rest => Sys2Proof.Machine.execIllegal8F op t rest s
  | .pullBit t => Sys2Proof.Machine.execPullBit t s
  | .pullByte t => Sys2Proof.Machine.execPullByte t s
  | .pullPacket t => Sys2Proof.Machine.execPullPacket t s

end Sys2Proof.Machine
end

