-- ==== Sys2Proof/Machine/Drivers.lean ====
section
/-! DEFINITION. The driver events (43), each with its enabling condition: TB, DRAIN and UNDERRUN whole, TA and REFILL as what they
do before and after their pull. -/

namespace Sys2Proof.Machine

/-- TA is enabled (43 R172). -/
def TrackState.taEnabled (ts : TrackState) : Bool :=
  decide (ts.cfg.kind = .timer ∧ (ts.tPhase = .armed ∨ ts.tPhase = .low))

/-- TA before its pull: the pin goes high (43 R172). -/
def TrackState.startTa (ts : TrackState) : TrackState := { ts with pin := true }

/-- TA at tick `now` after its pull, whose reply is the bit that begins here (43 R172). -/
def TrackState.finishTa (p : Params) (now : Nat) (ts : TrackState) : TrackState :=
  let h := p.halfPeriod ts.replyBit
  { ({ ts with tBit := ts.replyBit }).emit true (.ticks h) with
    tB := .due (now + h)
    tA := .due (now + 2 * h)
    tPhase := .high }

/-- TB is enabled (43 R173). -/
def TrackState.tbEnabled (ts : TrackState) : Bool :=
  decide (ts.cfg.kind = .timer ∧ ts.tPhase = .high)

/-- TB: the middle of a bit (43 R173). -/
def TrackState.tb (p : Params) (ts : TrackState) : TrackState :=
  { ({ ts with pin := false }).emit false (.ticks (p.halfPeriod ts.tBit)) with tPhase := .low }

/-- REFILL is enabled (43 R182). -/
def TrackState.refillEnabled (p : Params) (ts : TrackState) : Bool :=
  decide (ts.cfg.kind = .ring ∧ ts.refilling = true ∧ ts.cfg.gran.unit ≤ p.ringCap - ts.rCount)

/-- The bits of the pull that a refill made, in order, read from the reply lines of its granularity (43 R182). -/
def TrackState.replyBits (ts : TrackState) : List Bool :=
  match ts.cfg.gran with
  | .bit => [ts.replyBit]
  | .byte => [7, 6, 5, 4, 3, 2, 1, 0].map (fun j => ts.replyByte.getLsbD j)
  | .packet => (List.range ts.replyPacket.nbits.toNat).map (pbit ts.replyPacket.buf)

/-- The end of a refill: with less than a unit of room the burst ends and the peripheral runs (43 R182). -/
def TrackState.endRefill (p : Params) (ts : TrackState) : TrackState :=
  if p.ringCap - ts.rCount < ts.cfg.gran.unit then { ts with refilling := false, running := true } else ts

/-- REFILL after its pull: one descriptor per bit joins the ring (43 R182). -/
def TrackState.finishRefill (p : Params) (ts : TrackState) : TrackState :=
  (ts.pushBits p ts.replyBits).endRefill p

/-- DRAIN is enabled (43 R185). -/
def TrackState.drainEnabled (ts : TrackState) : Bool :=
  decide (ts.cfg.kind = .ring ∧ ts.running = true ∧ 0 < ts.rCount)

/-- DRAIN: the peripheral sends one descriptor (43 R185). -/
def TrackState.drain (p : Params) (ts : TrackState) : TrackState :=
  let d := ts.ringFront
  let ts := { ts with rHead := (ts.rHead + 1) % p.ringCap, rCount := ts.rCount - 1 }
  let ts := ({ ts with pin := descL0 d }).emit (descL0 d) (.ticks (descDur0 d))
  let ts := ({ ts with pin := descL1 d }).emit (descL1 d) (.ticks (descDur1 d))
  let ts := { ts with frozen := false }
  if ts.rCount ≤ ts.cfg.thresh.toNat then { ts with refilling := true } else ts

/-- UNDERRUN is enabled (43 R186). -/
def TrackState.underrunEnabled (ts : TrackState) : Bool :=
  decide (ts.cfg.kind = .ring ∧ ts.running = true ∧ ts.rCount = 0 ∧ ts.frozen = false)

/-- UNDERRUN: the peripheral finds the ring empty (43 R186). -/
def TrackState.underrun (ts : TrackState) : TrackState :=
  ({ ts with underrunFlag := true, frozen := true }).emit ts.pin .freeze

/-- The request code that the track's own driver puts on its pull port: NEXTBIT for the timer driver (43 R172), the pull of
its granularity for the ring driver (43 R180), none without a driver (44 R211, 30_encoding R96). -/
def TrackState.pullCode (ts : TrackState) : BitVec 2 :=
  match ts.cfg.kind, ts.cfg.gran with
  | .none, _ => 0
  | .timer, _ => 1
  | .ring, .bit => 1
  | .ring, .byte => 2
  | .ring, .packet => 3

/-- An agent's step where it is enabled; where it is not, there is no step and the state stays (20_memory R65, log 2). -/
def State.agentStep (s : State) (t : Track) (enabled : Bool) (ts : TrackState) : State :=
  if enabled then s.setTrack t ts else s

/-- The TB event of a track. -/
def State.eventTb (s : State) (t : Track) : State :=
  s.agentStep t (s.track t).tbEnabled ((s.track t).tb s.params)

/-- The DRAIN event of a track. -/
def State.eventDrain (s : State) (t : Track) : State :=
  s.agentStep t (s.track t).drainEnabled ((s.track t).drain s.params)

/-- The UNDERRUN event of a track. -/
def State.eventUnderrun (s : State) (t : Track) : State :=
  s.agentStep t (s.track t).underrunEnabled (s.track t).underrun

end Sys2Proof.Machine
end

