-- ==== Sys2Proof/Machine/Port.lean ====
section
/-! DEFINITION. The two ports that carry instructions, the driver events that pull, the reset input, and what each move of the environment does. -/

namespace Sys2Proof.Machine

/-- A word is driven into the command port (30_encoding R81): while a WAIT is held the port takes none (41 R126); the
last word of a command makes it execute, and `cmdWords` empties. -/
def takeWord (w : Word) (s : State) : Host.Outcome State Fault Refusal :=
  match s.waitHold with
  | some _ => .next s
  | none =>
    match decode (s.cmdWords ++ [w]) with
    | .ok (i, _) => exec i { s with cmdWords := [] }
    | .error _ => .next { s with cmdWords := s.cmdWords ++ [w] }

/-- The pull port of track `t`: its own driver's request is decoded and run; no driver, no request, no pull
(30_encoding R96, 44 R211). -/
def takePull (t : Track) (s : State) : Host.Outcome State Fault Refusal :=
  match decodePull t (s.track t).pullCode with
  | .ok i => exec i s
  | .error _ => .next s

/-- What a driver does on its track once its pull has answered. -/
def thenTrack (o : Host.Outcome State Fault Refusal) (t : Track) (f : TrackState → TrackState) :
    Host.Outcome State Fault Refusal :=
  match o with
  | .next s => .next (s.setTrack t (f (s.track t)))
  | .fault r => .fault r
  | .refused r => .refused r

/-- TA at tick `now`: start a bit. One step with its pull inside (43 R172, 20_memory R64); where it is not enabled there is
no step (log 2). -/
def State.eventTa (s : State) (t : Track) (now : Nat) : Host.Outcome State Fault Refusal :=
  if (s.track t).taEnabled then
    thenTrack (takePull t (s.setTrack t (s.track t).startTa)) t (TrackState.finishTa s.params now)
  else .next s

/-- REFILL: one refill of one unit. One step with its pull inside (43 R182, 20_memory R64); where it is not enabled there is
no step (log 2). -/
def State.eventRefill (s : State) (t : Track) : Host.Outcome State Fault Refusal :=
  if (s.track t).refillEnabled s.params then thenTrack (takePull t s) t (TrackState.finishRefill s.params)
  else .next s

/-- The reset input: every piece of state takes its reset value; the parameters and the environment's own fields are
no state of the block (70 R260). -/
def State.resetInput (s : State) : State :=
  { State.resetWith s.params with pending := s.pending, moveNo := s.moveNo }

/-- What a move does (20_memory R64, R65). -/
def applyMove (m : Move) (s : State) : Host.Outcome State Fault Refusal :=
  match m with
  | .word w => takeWord w s
  | .waitEnd => .next s.endWait
  | .ta t now => s.eventTa t now
  | .tb t => .next (s.eventTb t)
  | .refill t => s.eventRefill t
  | .drain t => .next (s.eventDrain t)
  | .underrun t => .next (s.eventUnderrun t)
  | .reset => .next s.resetInput

/-- The next move: the first of the placed ones, else a free one; and the state with that move drawn (log 1). -/
def State.draw (s : State) : Move × State :=
  match s.pending with
  | m :: ms => (m, { s with pending := ms })
  | [] => (Config.move s.moveNo, { s with moveNo := s.moveNo + 1 })

end Sys2Proof.Machine
end

