-- ==== Sys2Proof/Machine/Step.lean ====
section
/-! DEFINITION. One step of the block, and how an instruction is placed before it. -/

namespace Sys2Proof.Machine

/-- One atomic step of the block or of its environment (20_memory R64 to R66): the next move is drawn and made. -/
def step (s : State) : Host.Outcome State Fault Refusal :=
  applyMove s.draw.1 s.draw.2

/-- The ring a refill of granularity `g` needs: storage for at least one unit, the new entries zero (log 12). -/
def TrackState.growRing (cap : Nat) (g : Gran) (ts : TrackState) : TrackState :=
  { ts with ring := ts.ring ++ List.replicate (g.unit - cap) 0 }

/-- `s` with a pull of granularity `g` as the next move: `MAIN` has the ring driver of that granularity, its ring empty and
asked to fill, and REFILL is the move. A ring too small for a unit is enlarged to one unit on both tracks (log 12). -/
def State.withPull (s : State) (g : Gran) : State :=
  { s with
    params := { s.params with ringCap := max s.params.ringCap g.unit }
    main := (s.main.growRing s.params.ringCap g).attachRing g 0 s.main.cfg.pin s.main.cfg.unit
    prog := s.prog.growRing s.params.ringCap g
    pending := .refill .main :: s.pending }

/-- `s` with an instruction of the opcode table placed so that the very next step runs it. A command's words but its
last are in `cmdWords`, its last word is the next move, and no WAIT is held. A pull is placed on the `MAIN` port, in the
REFILL of a ring driver of its granularity (log 12). The pull code 0 is no request, and nothing is placed for it. -/
def State.withFetchWord (s : State) (nbits w : Nat) : State :=
  if nbits < 32 then
    let pq := BitVec.ofNat 2 w
    if pq = 1 then s.withPull .bit else if pq = 2 then s.withPull .byte else if pq = 3 then s.withPull .packet else s
  else
    let ws := (tableWords nbits w).take (commandLength ((tableWords nbits w).getD 0 0))
    { s with
      cmdWords := ws.dropLast
      waitHold := none
      pending := .word (ws.getLastD 0) :: s.pending }

end Sys2Proof.Machine
end

