-- ==== Sys2Proof/Safety.lean ====
section
/-! DEFINITION. What claims speak of: the invariants of the block, the end of a command as the spec writes it, runs of
advance decisions, of pulls and of moves, the contents of the ring as a queue, and the waveform of a bit. -/

namespace Sys2Proof

/-- What the latch holds of a packet (10_state R28). -/
def Packet.latch (k : Packet) : Machine.Latch := { buf := k.buf, nbits := k.nbits }

namespace Machine

/-- Both slots of a register hold legal packets (10_state R48 invariant 1). -/
abbrev LegalRegister (g : Register) : Prop := g.slot0.Legal ∧ g.slot1.Legal

/-- The invariants of 10_state R48, of the sizes R20, R30, R44, and of the sequence cursor R33, for one track. -/
structure TrackState.Inv (p : Params) (t : Track) (ts : TrackState) : Prop where
  /-- R20 -/
  regsSize : ts.regs.length = p.nreg t
  /-- R30 -/
  seqSize : ts.seq.length = p.seqCap
  /-- R44 -/
  ringSize : ts.ring.length = p.ringCap
  /-- R48 invariant 1 -/
  regsLegal : ∀ g ∈ ts.regs, LegalRegister g
  /-- R48 invariant 1 -/
  seqLegal : ∀ e ∈ ts.seq, e.Legal
  /-- R48 invariant 2 -/
  markRange : 1 ≤ ts.maxLoaded.toNat ∧ ts.maxLoaded.toNat < p.nreg t
  /-- R48 invariant 2 -/
  curRange : ts.curReg.toNat ≤ ts.maxLoaded.toNat
  /-- R48 invariant 3 -/
  nextPending : ts.nextV = true → ts.nextIdx.toNat ≤ ts.maxLoaded.toNat ∧ (ts.register ts.nextIdx).pend = true
  /-- R48 invariant 4 -/
  zeroPending : (ts.register 0).pend = true ↔ ts.nextV = true ∧ ts.nextIdx = 0
  /-- R48 invariant 5 -/
  activeLen : ts.seqActive = true ↔ 1 ≤ ts.seqLen.toNat
  /-- R48 invariant 6 -/
  retireActive : ts.seqRetire = true → ts.seqActive = true
  /-- R33: the cursor and the remaining length stay within the buffer -/
  seqFits : ts.seqActive = true → ts.seqCur.toNat + ts.seqLen.toNat ≤ p.seqCap
  /-- R28 -/
  latchSize : ts.latch.nbits.toNat ≤ 80
  /-- R48 invariant 7 -/
  bitPosRange : ts.bitPos.toNat ≤ ts.latch.nbits.toNat
  /-- R48 invariant 8 -/
  ringCount : ts.rCount ≤ p.ringCap
  /-- R44: the head is an index of the ring -/
  ringHead : ts.rHead < p.ringCap

/-- The invariant of the block: legal parameters and both tracks' invariants (10_state R48). -/
structure State.Inv (s : State) : Prop where
  params : s.params.Legal
  tracks : ∀ t, (s.track t).Inv s.params t

/-- What the drivers keep true of a track (43 R171 to R186, 44 R210). -/
structure TrackState.DriverInv (p : Params) (ts : TrackState) : Prop where
  /-- the phase register is idle exactly on a track without the timer driver (10_state R42, 43 R171) -/
  phaseKind : ts.tPhase = .idle ↔ ts.cfg.kind ≠ .timer
  /-- the pin is high exactly in the high phase; the ring driver leaves it low (43 R172, R173, R185, 10_state R41) -/
  pinLevel : ts.pin = true ↔ ts.tPhase = .high
  /-- no descriptor ends high (43 R185: the pin ends each descriptor at 0) -/
  ringLow : ∀ d ∈ ts.ring, descL1 d = false
  /-- without the ring driver the ring is idle and empty (10_state R44, 44 R210) -/
  ringKind : ts.cfg.kind ≠ .ring →
    ts.rCount = 0 ∧ ts.refilling = false ∧ ts.running = false ∧ ts.frozen = false ∧ ts.underrunFlag = false
  /-- granularity and threshold are stored for the ring driver only (44 R210) -/
  ringOnly : ts.cfg.kind ≠ .ring → ts.cfg.gran = .bit ∧ ts.cfg.thresh = 0
  /-- ATTACH admits only thresholds that leave room for a unit (43 R183) -/
  threshFits : ts.cfg.kind = .ring → ts.cfg.thresh.toNat + ts.cfg.gran.unit ≤ p.ringCap
  /-- a ring at or below its threshold is being refilled (43 R183, R186) -/
  refillAsked : ts.cfg.kind = .ring → ts.rCount ≤ ts.cfg.thresh.toNat → ts.refilling = true
  /-- a ring that is asked to fill has room for a unit (43 R183) -/
  refillRoom : ts.cfg.kind = .ring → ts.refilling = true → ts.cfg.gran.unit ≤ p.ringCap - ts.rCount
  /-- a peripheral that has not started is being filled (43 R182) -/
  startAsked : ts.cfg.kind = .ring → ts.running = false → ts.refilling = true
  /-- a frozen peripheral has underrun and is running (43 R186) -/
  frozenRunning : ts.frozen = true → ts.underrunFlag = true ∧ ts.running = true
  /-- an unattached track has put nothing on the wire (10_state R41, R52, 44 R211) -/
  silent : ts.cfg.kind = .none → ts.wave = []

/-- The driver invariant on both tracks. -/
def State.DriverInv (s : State) : Prop := ∀ t, (s.track t).DriverInv s.params

/-- The command port holds part of a command only, and none while a WAIT is held (10_state R45, R46, 30_encoding R81). -/
structure State.PortInv (s : State) : Prop where
  partOnly : ∀ w ws, s.cmdWords = w :: ws → s.cmdWords.length < commandLength w
  heldEmpty : s.waitHold ≠ none → s.cmdWords = []

/-- What the drivers keep true of their pulls: no packet was cut short, and NEXTPACKET always finds the packet exhausted
(42 R152, 43 R180). -/
def TrackState.WholePackets (ts : TrackState) : Prop :=
  ts.mix = false ∧
    (ts.cfg.kind = .none ∨ (ts.cfg.kind = .ring ∧ ts.cfg.gran = .packet) → ts.bitPos = ts.latch.nbits)

/-- A command that has ended with status `c`, whose response is `code`: `lastStatus[t]` and the response port are
written, and nothing else (00_scope R10, 60 R230). -/
def State.endedWith (s : State) (t : Track) (c : Status) (code : Word) : State :=
  { s.setTrack t { s.track t with lastStatus := c } with responses := s.responses ++ [code] }

/-- `n` advance decisions in a row. -/
def TrackState.advances : Nat → TrackState → TrackState
  | 0, ts => ts
  | n + 1, ts => (ts.advances n).advance

/-- How often a packet with this repeat count is sent: `max(1, rep)` (41 R123, 42 R143). -/
def timesSent (rep : BitVec 8) : Nat := max 1 rep.toNat

/-- How many packets a sequence sends before its entry `i` (41 R123). -/
def TrackState.sentBefore (ts : TrackState) : Nat → Nat
  | 0 => 0
  | i + 1 => ts.sentBefore i + timesSent (ts.entry (BitVec.ofNat 7 i)).rep

/-- `n` NEXTBYTEs in a row: the bytes in pull order, and the track after them. -/
def TrackState.nextBytes : Nat → TrackState → List Byte × TrackState
  | 0, ts => ([], ts)
  | n + 1, ts =>
    let r := ts.nextByte
    let q := r.2.nextBytes n
    (r.1 :: q.1, q.2)

/-- `n` NEXTPACKETs in a row: the packets in pull order, and the track after them. -/
def TrackState.nextPackets : Nat → TrackState → List Latch × TrackState
  | 0, ts => ([], ts)
  | n + 1, ts =>
    let r := ts.nextPacket
    let q := r.2.nextPackets n
    (r.1 :: q.1, q.2)

/-- The bits of a byte, bit 7 first (42 R153). -/
def byteBits (v : Byte) : List Bool := (List.range 8).map v.getMsbD

/-- The bits of a packet that are transmitted, in order: bit 0 is the most significant bit of byte 0 (00_scope R8, R12). -/
def Latch.bits (l : Latch) : List Bool := (List.range l.nbits.toNat).map l.buf.getMsbD

/-- What can make a command fail, in the order of the checks of 60 R231: whether each cause applies, and its code. -/
def State.causes (s : State) : Instr → List (Bool × Status)
  | .load t idx nbits rsv _ _ =>
    [(decide (rsv ≠ 0), .eIllegal), (decide (s.params.nreg t ≤ idx.toNat), .eBadReg),
      (decide (nbits.toNat = 0 ∨ 80 < nbits.toNat), .eBadLen)]
  | .seqw t idx nbits rsv _ _ =>
    [(decide (rsv ≠ 0), .eIllegal), ((s.track t).seqActive, .eBusy),
      (decide (s.params.seqCap ≤ idx.toNat), .eBadIdx), (decide (nbits.toNat = 0 ∨ 80 < nbits.toNat), .eBadLen)]
  | .sched t rsv cnt =>
    [(decide (rsv ≠ 0), .eIllegal), ((s.track t).seqActive, .eBusy),
      (decide (cnt.toNat = 0 ∨ s.params.seqCap < cnt.toNat), .eBadCnt)]
  | .kill _ rsv => [(decide (rsv ≠ 0), .eIllegal)]
  | .wait _ rsv _ => [(decide (rsv ≠ 0), .eIllegal)]
  | .stat _ rsv => [(decide (rsv ≠ 0), .eIllegal)]
  | .attach t kind gran thresh rsv pin unit =>
    [(decide (rsv ≠ 0), .eIllegal), (decide ((s.track t).cfg.kind ≠ .none), .eAttached),
      (decide (kind = 0 ∨ kind = 3), .eCfg),
      (decide (kind = 2 ∧ (gran = 3 ∨
        s.params.ringCap < thresh.toNat + (if gran = 0 then 1 else if gran = 1 then 8 else 80))), .eCfg),
      (!s.platformAccepts t (if kind = 1 then .timer else .ring) pin unit, .eCfg)]
  | .illegal0 _ _ => [(true, .eIllegal)]
  | .illegal8F _ _ _ => [(true, .eIllegal)]
  | .pullBit _ => []
  | .pullByte _ => []
  | .pullPacket _ => []

/-- The code of the first cause that applies. -/
def firstCause (l : List (Bool × Status)) : Option Status := (l.find? Prod.fst).map Prod.snd

/-- The descriptors the ring holds, oldest first (43 R181, R185). -/
def TrackState.ringQueue (cap : Nat) (ts : TrackState) : List Word :=
  (List.range ts.rCount).map fun k =>
    ts.ring.getD ((ts.rHead + k) % cap) (Config.absentDescriptor ((ts.rHead + k) % cap))

/-- The waveform of a bit: high for `H(b)`, then low for `H(b)` (43 R170). -/
def bitWave (p : Params) (b : Bool) : List Segment :=
  [{ level := true, dur := .ticks (p.halfPeriod b) }, { level := false, dur := .ticks (p.halfPeriod b) }]

/-- The waveform of a descriptor (30_encoding R95, 43 R185). -/
def descWave (d : Word) : List Segment :=
  [{ level := descL0 d, dur := .ticks (descDur0 d) }, { level := descL1 d, dur := .ticks (descDur1 d) }]

/-- The bits of the stream that a move pulls on track `t`: the bit of an enabled TA, the unit of an enabled REFILL, in pull
order (43 R172, R182). No other move pulls (30_encoding R96). -/
def State.bitsPulled (s : State) (t : Track) (m : Move) : List Bool :=
  match m with
  | .ta u _ => if u = t ∧ (s.track t).taEnabled = true then [(s.track t).nextBit.1] else []
  | .refill u =>
    if u = t ∧ (s.track t).refillEnabled s.params = true then
      match (s.track t).cfg.gran with
      | .bit => [(s.track t).nextBit.1]
      | .byte => byteBits (s.track t).nextByte.1
      | .packet => (s.track t).nextPacket.1.bits
    else []
  | .word _ => []
  | .waitEnd => []
  | .tb _ => []
  | .drain _ => []
  | .underrun _ => []
  | .reset => []

/-- A run: the moves one after the other, each on the state the earlier ones left (20_memory R66). -/
def runMoves : List Move → State → Host.Outcome State Fault Refusal
  | [], s => .next s
  | m :: ms, s =>
    match applyMove m s with
    | .next s' => runMoves ms s'
    | .fault r => .fault r
    | .refused r => .refused r

/-- The bits of the stream that a run pulls on track `t`, in pull order. -/
def runBits (t : Track) : List Move → State → List Bool
  | [], _ => []
  | m :: ms, s =>
    match applyMove m s with
    | .next s' => s.bitsPulled t m ++ runBits t ms s'
    | .fault _ => []
    | .refused _ => []

/-- What the timer driver has still to put on the wire of a bit it has begun: in the high phase, the low half (43 R173). -/
def TrackState.owed (p : Params) (ts : TrackState) : List Segment :=
  if ts.tPhase = .high then [{ level := false, dur := .ticks (p.halfPeriod ts.tBit) }] else []

/-- Two states of a track agree in all that the rotator is made of (10_state R20 to R34, R37). -/
def TrackState.SameRotator (a b : TrackState) : Prop :=
  a.regs = b.regs ∧ a.maxLoaded = b.maxLoaded ∧ a.curReg = b.curReg ∧ a.nextV = b.nextV ∧ a.nextIdx = b.nextIdx ∧
    a.latch = b.latch ∧ a.bitPos = b.bitPos ∧ a.seq = b.seq ∧ a.seqActive = b.seqActive ∧ a.seqLen = b.seqLen ∧
    a.seqCur = b.seqCur ∧ a.seqRetire = b.seqRetire ∧ a.mix = b.mix

/-- The positions, among the next `n` bits pulled one by one, of the bits whose pull runs a boundary (42 R140, R150). -/
def TrackState.bitBoundaries : Nat → TrackState → List Nat
  | 0, _ => []
  | n + 1, ts =>
    (if ts.bitPos = ts.latch.nbits then [0] else []) ++ (ts.nextBit.2.bitBoundaries n).map (· + 1)

/-- The positions, among the bits of the next `n` bytes pulled, of the bits whose pull runs a boundary: those inside each
byte, behind the eight bits of each earlier byte (42 R151). -/
def TrackState.byteBoundaries : Nat → TrackState → List Nat
  | 0, _ => []
  | n + 1, ts => ts.bitBoundaries 8 ++ (ts.nextByte.2.byteBoundaries n).map (· + 8)

/-- The positions of the first bits of packets sent one after the other. -/
def packetStarts : List Latch → List Nat
  | [] => []
  | l :: ls => 0 :: (packetStarts ls).map (· + l.nbits.toNat)

end Machine

end Sys2Proof
end

