-- ==== Sys2Proof/Certificates/Slice0/Obligations.lean ====
section
/-! DEFINITION. The statements about the model, for the provers. -/

open Sys2Proof Sys2Proof.Machine

/-- One word or group of words per format and opcode, and the four pull codes, decode to the instruction, fields and
track the spec gives them (vectors V-E1, V-E4, V-E7, V-E8, V-E10, V-E11, V-E12, the PROG half of V-E13, V-E14,
V-E16, V-E17, V-E18, and the codes of R96). A sanity statement about a few fixed words. (30_encoding.md R83-R96,
95_test_vectors.md 2.1) -/
def Obligations.WordsDecode : Prop :=
  decode [0x10108000#32, 0xA0000000#32, 0#32, 0#32] = .ok (.load .main 1 4 0 0 0xA0000000000000000000#80, []) ∧
  decode [0x10004003#32, 0x40000000#32, 0#32, 0#32] = .ok (.load .main 0 2 0 3 0x40000000000000000000#80, []) ∧
  decode [0x101A0000#32, 0x01020304#32, 0x05060708#32, 0x090A0000#32] =
    .ok (.load .main 1 80 0 0 0x0102030405060708090A#80, []) ∧
  decode [0x20006002#32, 0x60000000#32, 0#32, 0#32] = .ok (.seqw .main 0 3 0 2 0x60000000000000000000#80, []) ∧
  decode [0x30000002#32] = .ok (.sched .main 0 2, []) ∧
  decode [0x40000000#32] = .ok (.kill .main 0, []) ∧
  decode [0x50000000#32] = .ok (.wait .main 0 0, []) ∧
  decode [0x68000000#32] = .ok (.stat .prog 0, []) ∧
  decode [0x72000000#32, 0x00050001#32] = .ok (.attach .main 1 0 0 0 5 1, []) ∧
  decode [0x7D000000#32, 0x00060002#32] = .ok (.attach .prog 2 2 0 0 6 2, []) ∧
  decode [0x00000000#32] = .ok (.illegal0 .main 0, []) ∧
  decode [0xF8000000#32] = .ok (.illegal8F 7 .prog 0, []) ∧
  decodePull .main 0 = .error .noRequest ∧
  decodePull .main 1 = .ok (.pullBit .main) ∧
  decodePull .prog 2 = .ok (.pullByte .prog) ∧
  decodePull .main 3 = .ok (.pullPacket .main)

/-- For every instruction, with every operand at every value (reserved fields included, so illegal commands too): its
words followed by any other words decode to exactly it and leave the other words; its pull code decodes to it.
(30_encoding.md R80, 30_encoding.md R84-R91, 30_encoding.md R96) -/
def Obligations.DecodeOfEncode : Prop :=
  ∀ i : Instr,
    match encode i with
    | .command ws => ∀ rest, decode (ws ++ rest) = .ok (i, rest)
    | .pull t pq => decodePull t pq = .ok i

/-- For every four words: encoding what they decode to gives back the words of the command, with W3[15:0] zero (R85:
those bits are ignored), and the words after the command are left. (30_encoding.md R81, 30_encoding.md R85,
30_encoding.md R91) -/
def Obligations.EncodeOfDecode : Prop :=
  ∀ w0 w1 w2 w3 : Word, ∃ i rest, decode [w0, w1, w2, w3] = .ok (i, rest) ∧
    encode i = .command ([w0, w1, w2, w3 &&& 0xFFFF0000#32].take ([w0, w1, w2, w3].length - rest.length)) ∧
    rest = [w0, w1, w2, w3].drop (if w0.extractLsb' 28 4 = 1 ∨ w0.extractLsb' 28 4 = 2 then 4
      else if w0.extractLsb' 28 4 = 7 then 2 else 1)

/-- Byte 4k+j of the packet a LOAD or SEQW carries is bits [31-8j : 24-8j] of payload word k+1, for all ten bytes; the
rest of the third payload word makes no difference. (R61) -/
def Obligations.PayloadIsBigEndian : Prop :=
  ∀ w0 w1 w2 w3 : Word, ∀ i buf rest, decode [w0, w1, w2, w3] = .ok (i, rest) →
    (∃ t idx nbits rsv rep, i = .load t idx nbits rsv rep buf ∨ i = .seqw t idx nbits rsv rep buf) →
    ∀ k j : Nat, k < 3 → j < 4 → 4 * k + j < 10 →
      byteOf buf (4 * k + j) = ([w1, w2, w3].getD k 0).extractLsb' (24 - 8 * j) 8

/-- For every buffer and every i below 80, pbit(buf, i) is bit 7-(i mod 8) of byte i div 8, and that is the i-th bit of
the 80-bit buffer from the top, bit 0 the most significant bit of byte 0. (R8) -/
def Obligations.PacketBitOrder : Prop :=
  ∀ (buf : Buf) (i : Nat), i < 80 →
    pbit buf i = (byteOf buf (i / 8)).getLsbD (7 - i % 8) ∧ pbit buf i = buf.getMsbD i

/-- For legal parameters, desc(b) has L0 = 1 at bit 31, DUR0 = H(b) in [30:16], L1 = 0 at bit 15, DUR1 = H(b) in [14:0],
with H(1) = 58 and H(0) = 100 times TICKS_PER_US; it spans the whole word. (R95) -/
def Obligations.DescriptorOfBit : Prop :=
  ∀ p : Params, p.Legal → ∀ b : Bool,
    let h := (if b then 58 else 100) * p.ticksPerUs
    p.desc b = (1 : BitVec 1) ++ BitVec.ofNat 15 h ++ (0 : BitVec 1) ++ BitVec.ofNat 15 h ∧
    (p.desc b).getLsbD 31 = true ∧ ((p.desc b).extractLsb' 16 15).toNat = h ∧
    (p.desc b).getLsbD 15 = false ∧ ((p.desc b).extractLsb' 0 15).toNat = h ∧ 0 < h

/-- With no WAIT held, a word that leaves words of the command missing (4 words for opcodes 1 and 2, 2 for opcode 7,
else 1) has no effect but to be collected; the last word runs the decoded command as one step on the state with
cmdWords empty. (R81) -/
def Obligations.CommandRunsOnLastWord : Prop :=
  ∀ (s : State) (w w0 : Word) (ws : List Word), s.waitHold = none → s.cmdWords ++ [w] = w0 :: ws →
    let need := if w0.extractLsb' 28 4 = 1 ∨ w0.extractLsb' 28 4 = 2 then 4 else if w0.extractLsb' 28 4 = 7 then 2 else 1
    ((w0 :: ws).length < need → applyMove (.word w) s = .next { s with cmdWords := s.cmdWords ++ [w] }) ∧
    ((w0 :: ws).length = need →
      ∃ i, decode (w0 :: ws) = .ok (i, []) ∧ applyMove (.word w) s = exec i { s with cmdWords := [] })

/-- When the next placed move drives the word that completes a command, step is exec of the decoded instruction on the
state with that move drawn and cmdWords empty. When it is an enabled TA, step is one event: the pin goes high, exec
of PULL.BIT, then the end of TA; when it is an enabled REFILL, exec of the pull of the configured granularity, then
the end of REFILL. With no move placed, step makes the move the free value gives. THE MODEL'S CHOICE, stated by no
rule (log 1, DESIGN CHOICE): the list pending, the draw from Config.move and the counter moveNo are the model's own
device for the order of steps that R66 leaves open. (20_memory.md R64, 20_memory.md R66, 30_encoding.md R81,
30_encoding.md R96, 43_signal_drivers.md R172, 43_signal_drivers.md R180, 43_signal_drivers.md R182) -/
def Obligations.StepRunsDecodedInstruction : Prop :=
  ∀ (s : State) (ms : List Move),
    (∀ w i after, s.pending = .word w :: ms → s.waitHold = none → decode (s.cmdWords ++ [w]) = .ok (i, after) →
      step s = exec i { s with pending := ms, cmdWords := [] }) ∧
    (∀ t now, s.pending = .ta t now :: ms → (s.track t).taEnabled = true →
      step s = thenTrack (exec (.pullBit t) (({ s with pending := ms } : State).setTrack t { s.track t with pin := true })) t
        (TrackState.finishTa s.params now)) ∧
    (∀ t, s.pending = .refill t :: ms → (s.track t).refillEnabled s.params = true →
      step s = thenTrack
        (exec (match (s.track t).cfg.gran with | .bit => .pullBit t | .byte => .pullByte t | .packet => .pullPacket t)
          { s with pending := ms }) t (TrackState.finishRefill s.params)) ∧
    (s.pending = [] → step s = applyMove (Config.move s.moveNo) { s with moveNo := s.moveNo + 1 })

/-- If the bits w of a row of nbits bits decode to i, the step after withFetchWord is, for a command, exec of i on the
state with no words collected and no WAIT held; for a pull, exec of i on the placed state, completed by the end of
the REFILL it is part of. THE MODEL'S CHOICE, stated by no rule (log 12): withFetchWord itself, which fills cmdWords
and drops a held WAIT for a command (DEDUCED), and for a pull reads the code on the MAIN port and gives MAIN a ring
driver of that granularity, asked to fill, with a ring of at least one unit (DESIGN CHOICE). (30_encoding.md R81,
30_encoding.md R96, 43_signal_drivers.md R182) -/
def Obligations.PlacedInstructionRuns : Prop :=
  ∀ (s : State) (nbits w : Nat) (i : Instr), decodeTableWord nbits w = some i →
    let placed : State := { s.withFetchWord nbits w with pending := s.pending }
    step (s.withFetchWord nbits w) =
      if nbits < 32 then thenTrack (exec i placed) .main (TrackState.finishRefill placed.params)
      else exec i { s with cmdWords := [], waitHold := none }

/-- In every state, whatever move comes next, reset included, the step answers a next state, and the parameters of the
block are unchanged in it. (60_exceptions.md R232, 70_reset_and_hazards.md R281, 00_scope.md R5) -/
def Obligations.StepNeverStops : Prop :=
  ∀ s : State, ∃ s', step s = .next s' ∧ s'.params = s.params

/-- LOAD ends with EILLEGAL on a nonzero reserved field, else EBADREG on an index at or above NREG, else EBADLEN on a
length of 0 or above 80; else it writes the packet to the inactive slot of the register, sets pend, requests the
swap unless a request for register 0 is pending and the register is another one, raises maxLoaded to the index, and
ends OK. Nothing else changes. R110 stated whole. (R110) -/
def Obligations.LoadResult : Prop :=
  ∀ (s : State) (t : Track) (idx nbits : BitVec 7) (rsv : BitVec 5) (rep : BitVec 8) (buf : Buf) (g : Register),
    (idx.toNat < s.params.nreg t → (s.track t).regs[idx.toNat]? = some g) →
    exec (.load t idx nbits rsv rep buf) s = .next (
      if rsv ≠ 0 then s.endedWith t .eIllegal 5
      else if s.params.nreg t ≤ idx.toNat then s.endedWith t .eBadReg 1
      else if nbits.toNat = 0 ∨ 80 < nbits.toNat then s.endedWith t .eBadLen 2
      else
        (s.setTrack t { s.track t with
          regs := (s.track t).regs.set idx.toNat
            { slot0 := if g.act then { buf := buf, nbits := nbits, rep := rep } else g.slot0
              slot1 := if g.act then g.slot1 else { buf := buf, nbits := nbits, rep := rep }
              act := g.act
              pend := true }
          nextV := true
          nextIdx := if (s.track t).nextV = true ∧ (s.track t).nextIdx = 0 ∧ idx ≠ 0 then 0 else idx
          maxLoaded := if (s.track t).maxLoaded.toNat < idx.toNat then idx else (s.track t).maxLoaded }).endedWith
            t .ok 0)

/-- SEQW ends with EILLEGAL on a nonzero reserved field, else EBUSY while a sequence is active, else EBADIDX on an index
at or above SEQ_CAP, else EBADLEN on a length of 0 or above 80; else it writes the one entry and ends OK. Nothing
else changes. (R120) -/
def Obligations.SeqwResult : Prop :=
  ∀ (s : State) (t : Track) (idx nbits : BitVec 7) (rsv : BitVec 5) (rep : BitVec 8) (buf : Buf),
    (s.track t).seq.length = s.params.seqCap →
    ∃ s', exec (.seqw t idx nbits rsv rep buf) s = .next s' ∧
      if rsv ≠ 0 then s' = s.endedWith t .eIllegal 5
      else if (s.track t).seqActive then s' = s.endedWith t .eBusy 3
      else if s.params.seqCap ≤ idx.toNat then s' = s.endedWith t .eBadIdx 8
      else if nbits.toNat = 0 ∨ 80 < nbits.toNat then s' = s.endedWith t .eBadLen 2
      else
        s' = (s.setTrack t { s.track t with seq := (s'.track t).seq }).endedWith t .ok 0 ∧
        (s'.track t).seq.length = s.params.seqCap ∧
        ∀ j : Nat, j < s.params.seqCap → (s'.track t).seq[j]? =
          if j = idx.toNat then some { buf := buf, nbits := nbits, rep := rep } else (s.track t).seq[j]?

/-- SCHED ends with EILLEGAL on a nonzero reserved field, else EBUSY while a sequence is active, else EBADCNT on a count
of 0 or above SEQ_CAP; else it sets seqActive, seqLen to the count, seqCur and seqRetire to 0 and ends OK. Nothing
else changes, the latch in particular. (R122) -/
def Obligations.SchedResult : Prop :=
  ∀ (s : State) (t : Track) (rsv : BitVec 19) (cnt : BitVec 8),
    exec (.sched t rsv cnt) s = .next (
      if rsv ≠ 0 then s.endedWith t .eIllegal 5
      else if (s.track t).seqActive then s.endedWith t .eBusy 3
      else if cnt.toNat = 0 ∨ s.params.seqCap < cnt.toNat then s.endedWith t .eBadCnt 4
      else
        (s.setTrack t { s.track t with
          seqActive := true, seqLen := cnt, seqCur := 0, seqRetire := false }).endedWith t .ok 0)

/-- KILL ends with EILLEGAL on a nonzero reserved field; else it clears seqActive, seqLen, seqCur and seqRetire and ends
OK. Nothing else changes: the latch, bitPos and the entries with their remaining repeats stay. (R124) -/
def Obligations.KillResult : Prop :=
  ∀ (s : State) (t : Track) (rsv : BitVec 27),
    exec (.kill t rsv) s = .next (
      if rsv ≠ 0 then s.endedWith t .eIllegal 5
      else
        (s.setTrack t { s.track t with
          seqActive := false, seqLen := 0, seqCur := 0, seqRetire := false }).endedWith t .ok 0)

/-- WAIT ends with EILLEGAL on a nonzero reserved field; with seqLen at most the threshold it ends OK at once; else it
only records the hold, without a response. The transition of a held WAIT drops the hold and ends OK if seqLen is at
most the threshold, and is not enabled otherwise. While the hold lasts the port takes no word, for either track. THE
MODEL'S CHOICE, stated by no rule: that the end is a step of the port after the one that lowers seqLen (log 11,
DEDUCED), and that a transition that is not enabled, with no WAIT held or seqLen still above the threshold, and a
word the held port does not take, answer the same state (log 2, DESIGN CHOICE). (41_priority_sequence.md R126,
41_priority_sequence.md R127, 00_scope.md R10) -/
def Obligations.WaitResult : Prop :=
  ∀ (s : State) (t : Track) (rsv : BitVec 19) (thr : BitVec 8),
    exec (.wait t rsv thr) s = .next (
      if rsv ≠ 0 then s.endedWith t .eIllegal 5
      else if (s.track t).seqLen.toNat ≤ thr.toNat then ({ s with waitHold := none }).endedWith t .ok 0
      else { s with waitHold := some { track := t, thr := thr } }) ∧
    (s.waitHold = some { track := t, thr := thr } →
      applyMove .waitEnd s = .next (
        if (s.track t).seqLen.toNat ≤ thr.toNat then ({ s with waitHold := none }).endedWith t .ok 0 else s)) ∧
    (s.waitHold = none → applyMove .waitEnd s = .next s) ∧
    (s.waitHold = some { track := t, thr := thr } → ∀ w, applyMove (.word w) s = .next s)

/-- STAT ends with EILLEGAL on a nonzero reserved field; else it responds with {curReg, maxLoaded, CFG.kind, MIX,
UNDERRUN, nextV, seqLen, seqActive, lastStatus} and writes nothing, lastStatus in particular. Right after reset it
responds 0x02040000. (R214) -/
def Obligations.StatResult : Prop :=
  ∀ (s : State) (t : Track) (rsv : BitVec 27),
    let ts := s.track t
    exec (.stat t rsv) s = .next (
      if rsv ≠ 0 then s.endedWith t .eIllegal 5
      else { s with responses := s.responses ++
        [ts.curReg ++ ts.maxLoaded ++ ts.cfg.kind.code ++ BitVec.ofBool ts.mix ++ BitVec.ofBool ts.underrunFlag ++
          BitVec.ofBool ts.nextV ++ ts.seqLen ++ BitVec.ofBool ts.seqActive ++ ts.lastStatus.code] }) ∧
    ∀ p : Params, exec (.stat t 0) (State.resetWith p) =
      .next { State.resetWith p with responses := [0x02040000#32] }

/-- Each field of the STATUS word, read from its bit range, is the piece of state R40 names; the kind code is 0 for
none, 1 for TIMER, 2 for RING. (10_state.md R40, 10_state.md R39) -/
def Obligations.StatusLayout : Prop :=
  ∀ ts : TrackState,
    let w := ts.statusWord
    w.extractLsb' 0 4 = ts.lastStatus.code ∧ w.getLsbD 4 = ts.seqActive ∧ w.extractLsb' 5 8 = ts.seqLen ∧
    w.getLsbD 13 = ts.nextV ∧ w.getLsbD 14 = ts.underrunFlag ∧ w.getLsbD 15 = ts.mix ∧
    w.extractLsb' 16 2 = (match ts.cfg.kind with | .none => 0 | .timer => 1 | .ring => 2) ∧
    w.extractLsb' 18 7 = ts.maxLoaded ∧ w.extractLsb' 25 7 = ts.curReg

/-- ATTACH ends with EILLEGAL on a nonzero reserved field, else EATTACHED on an attached track, else ECFG on a reserved
kind, on a reserved granularity or a threshold with no room for a unit (RING only), or on a refusal of the platform,
which may look at the other track's configuration; else it stores the configuration (gran and thresh as 0 for
TIMER), starts the driver and ends OK. Of the timers R210 says nothing, so what they become is left open here. The
rotator state is untouched. (R210) -/
def Obligations.AttachResult : Prop :=
  ∀ (s : State) (t : Track) (kind gran : BitVec 2) (thresh : BitVec 8) (rsv : BitVec 15) (pin unit : BitVec 16),
    let ok := fun k => s.params.accepts
      { track := t, kind := k, pin := pin, unit := unit, other := (s.track t.other).cfg }
    let g : Gran := if gran = 0 then .bit else if gran = 1 then .byte else .packet
    let room := if gran = 0 then 1 else if gran = 1 then 8 else 80
    ∃ a b, exec (.attach t kind gran thresh rsv pin unit) s = .next (
      if rsv ≠ 0 then s.endedWith t .eIllegal 5
      else if (s.track t).cfg.kind ≠ .none then s.endedWith t .eAttached 7
      else if kind ≠ 1 ∧ kind ≠ 2 then s.endedWith t .eCfg 6
      else if kind = 2 ∧ (gran = 3 ∨ s.params.ringCap < thresh.toNat + room) then s.endedWith t .eCfg 6
      else if ok (if kind = 1 then .timer else .ring) = false then s.endedWith t .eCfg 6
      else if kind = 1 then
        (s.setTrack t { s.track t with
          cfg := { kind := .timer, gran := .bit, thresh := 0, pin := pin, unit := unit }
          tPhase := .armed, tA := a, tB := b }).endedWith t .ok 0
      else
        (s.setTrack t { s.track t with
          cfg := { kind := .ring, gran := g, thresh := thresh, pin := pin, unit := unit }
          rHead := 0, rCount := 0, refilling := true, running := false, frozen := false }).endedWith t .ok 0)

/-- A word with opcode 0 or 8 to F, driven into a port with no words collected and no WAIT held, changes only lastStatus
of track W0[27] and responds with code 5; so do the instructions it decodes to. (R93) -/
def Obligations.IllegalOpcodes : Prop :=
  (∀ (s : State) (w : Word), s.waitHold = none → s.cmdWords = [] →
    w.extractLsb' 28 4 = 0 ∨ 8 ≤ (w.extractLsb' 28 4).toNat →
    applyMove (.word w) s = .next (s.endedWith (if w.getLsbD 27 then .prog else .main) .eIllegal 5)) ∧
  (∀ (s : State) (t : Track) (rest : BitVec 27), exec (.illegal0 t rest) s = .next (s.endedWith t .eIllegal 5)) ∧
  (∀ (s : State) (op : BitVec 3) (t : Track) (rest : BitVec 27),
    exec (.illegal8F op t rest) s = .next (s.endedWith t .eIllegal 5))

/-- If any reserved header bit of a legal opcode is 1, the last word of the command (its full length consumed) only
writes lastStatus and responds with code 5. W3[15:0] of a LOAD or SEQW makes no difference to what is decoded. (R92) -/
def Obligations.ReservedBits : Prop :=
  (∀ (s : State) (w w0 : Word) (ws : List Word), s.waitHold = none → s.cmdWords ++ [w] = w0 :: ws →
    let op := w0.extractLsb' 28 4
    (w0 :: ws).length = (if op = 1 ∨ op = 2 then 4 else if op = 7 then 2 else 1) →
    (op = 1 ∨ op = 2) ∧ w0.extractLsb' 8 5 ≠ 0 ∨ (op = 3 ∨ op = 5) ∧ w0.extractLsb' 8 19 ≠ 0 ∨
      (op = 4 ∨ op = 6) ∧ w0.extractLsb' 0 27 ≠ 0 ∨ op = 7 ∧ w0.extractLsb' 0 15 ≠ 0 →
    applyMove (.word w) s =
      .next (({ s with cmdWords := [] }).endedWith (if w0.getLsbD 27 then .prog else .main) .eIllegal 5)) ∧
  (∀ w0 w1 w2 w3 x : Word, (w0.extractLsb' 28 4 = 1 ∨ w0.extractLsb' 28 4 = 2) →
    w3.extractLsb' 16 16 = x.extractLsb' 16 16 → decode [w0, w1, w2, w3] = decode [w0, w1, w2, x])

/-- For every command: if causes of failure apply, the first in the order R231 gives is the status code, and the command
changes only lastStatus and the response port; if none applies, it does not fail: its track's lastStatus is OK
afterwards, or for STAT and a WAIT that holds what it was. (R231) -/
def Obligations.FirstCauseIsReported : Prop :=
  ∀ (s : State) (i : Instr), i.isCommand = true →
    match firstCause (s.causes i) with
    | some c => exec i s = .next (s.endedWith i.track c (c.code.setWidth 32))
    | none => ∃ s', exec i s = .next s' ∧
        ((s'.track i.track).lastStatus = .ok ∨
          (s'.track i.track).lastStatus = (s.track i.track).lastStatus ∧
            ((∃ t rsv, i = .stat t rsv) ∨ ∃ t rsv thr, i = .wait t rsv thr ∧ (s'.waitHold = some { track := t, thr := thr })))

/-- A command that completes appends one word to the responses: STATUS for a successful STAT, else the status code it
left in lastStatus, zero-extended. Only a WAIT that holds appends nothing yet. A pull appends nothing.
(30_encoding.md R82, 41_priority_sequence.md R126) -/
def Obligations.OneResponsePerCommand : Prop :=
  ∀ (s : State) (i : Instr), ∃ s', exec i s = .next s' ∧
    if i.isCommand then
      (∃ t, i = .stat t 0 ∧ s' = { s with responses := s.responses ++ [(s.track t).statusWord] }) ∨
      (∃ t thr, i = .wait t 0 thr ∧ thr.toNat < (s.track t).seqLen.toNat ∧
        s' = { s with waitHold := some { track := t, thr := thr } }) ∨
      ((∀ t, i ≠ .stat t 0) ∧
        s'.responses = s.responses ++ [((s'.track i.track).lastStatus.code.setWidth 32 : Word)])
    else s'.responses = s.responses

/-- The second of two equal LOADs, SEQWs or KILLs changes only the responses. A successful SCHED followed by any SCHED
with zero reserved bits leaves the state but for lastStatus (EBUSY) and the response. (20_memory.md R69) -/
def Obligations.IdempotentCommands : Prop :=
  ∀ s s1 : State,
    (∀ i s2, (∃ t idx nbits rsv rep buf, i = .load t idx nbits rsv rep buf ∨ i = .seqw t idx nbits rsv rep buf) ∨
      (∃ t rsv, i = .kill t rsv) → exec i s = .next s1 → exec i s1 = .next s2 →
      s2 = { s1 with responses := s2.responses }) ∧
    (∀ t c c', exec (.sched t 0 c) s = .next s1 → (s1.track t).lastStatus = .ok →
      exec (.sched t 0 c') s1 = .next (s1.endedWith t .eBusy 3))

/-- While a sequence is active, no command but KILL changes seqActive, seqLen, seqCur or seqRetire of any track with an
active sequence, nor any entry of its sequence buffer. (41_priority_sequence.md R125, 41_priority_sequence.md R121) -/
def Obligations.OnlyKillEndsSequence : Prop :=
  ∀ (s s' : State) (i : Instr) (t : Track), (s.track t).seqActive = true → i.isCommand = true →
    (∀ rsv, i ≠ .kill t rsv) → exec i s = .next s' →
    (s'.track t).seqActive = true ∧ (s'.track t).seqLen = (s.track t).seqLen ∧
      (s'.track t).seqCur = (s.track t).seqCur ∧ (s'.track t).seqRetire = (s.track t).seqRetire ∧
      (s'.track t).seq = (s.track t).seq

/-- A word on the command port (whatever command it completes), the end of a WAIT, TB, DRAIN and UNDERRUN leave LATCH
and bitPos of both tracks as they are. (20_memory.md R70, 40_register_load.md R114, 42_pull_and_advance.md R154) -/
def Obligations.LatchIsolated : Prop :=
  ∀ (s s' : State) (m : Move),
    (∃ w, m = .word w) ∨ m = .waitEnd ∨ (∃ t, m = .tb t ∨ m = .drain t ∨ m = .underrun t) →
    applyMove m s = .next s' →
    ∀ t, (s'.track t).latch = (s.track t).latch ∧ (s'.track t).bitPos = (s.track t).bitPos

/-- Whatever an instruction does, the state of the track it is not for stays as it is. (20_memory.md R68) -/
def Obligations.OtherTrackUntouched : Prop :=
  ∀ (s s' : State) (i : Instr), exec i s = .next s' → s'.track i.track.other = s.track i.track.other

/-- Two states that agree on the parameters, the command port, track t and the other track's configuration (which
PLATFORM_ACCEPTS may read) agree on track t after any move, whatever the rest of the other track holds.
(20_memory.md R68, 60_exceptions.md R239) -/
def Obligations.TracksAreIndependent : Prop :=
  ∀ (s1 s2 s1' s2' : State) (t : Track) (m : Move), s1.params = s2.params → s1.cmdWords = s2.cmdWords →
    s1.waitHold = s2.waitHold → s1.track t = s2.track t → (s1.track t.other).cfg = (s2.track t.other).cfg →
    applyMove m s1 = .next s1' → applyMove m s2 = .next s2' → s1'.track t = s2'.track t

/-- In every state of a track that meets the invariant: a pending retirement is done first (seqLen down by one, cursor
up by one, the sequence ends at 0; after entry 127 the 7-bit cursor has no next value, and what it becomes is left
open, a free value of log 10); then the first of: send the current sequence entry, decrement its rep saturating and
mark the last repeat; send register 0 again with rep one lower; take the requested register and drop the request;
take the next register in the rotation. Everything else of the track stays. R141 stated whole. (R141) -/
def Obligations.AdvanceDecision : Prop :=
  ∀ (p : Params) (t : Track) (ts : TrackState), p.Legal → ts.Inv p t →
    let r : TrackState :=
      if ts.seqRetire then
        { ts with
          seqRetire := false, seqLen := ts.seqLen - 1
          seqCur := if ts.seqCur = 127 then ts.advance.seqCur else ts.seqCur + 1
          seqActive := decide (1 < ts.seqLen.toNat) }
      else ts
    let e := r.entry r.seqCur
    let g := ts.register 0
    let x := if ts.nextV then ts.nextIdx else if ts.maxLoaded.toNat ≤ ts.curReg.toNat then 1 else ts.curReg + 1
    ts.advance =
      if r.seqActive then
        { r with
          latch := { buf := e.buf, nbits := e.nbits }, bitPos := 0
          seq := r.seq.set r.seqCur.toNat { e with rep := BitVec.ofNat 8 (e.rep.toNat - 1) }
          seqRetire := decide (e.rep.toNat ≤ 1) }
      else if ts.curReg = 0 ∧ 0 < g.active.rep.toNat then
        { r with
          latch := { buf := g.active.buf, nbits := g.active.nbits }, bitPos := 0
          regs := ts.regs.set 0
            (if g.act then { g with slot1 := { g.slot1 with rep := g.slot1.rep - 1 } }
             else { g with slot0 := { g.slot0 with rep := g.slot0.rep - 1 } }) }
      else ({ r with nextV := false, curReg := x }).take x

/-- TAKE of an existing register r: if pend is set, act flips and pend clears; the latch gets the buffer and length of
the then active slot and bitPos is 0; for r = 0 only, the active rep is decremented, saturating. Nothing else
changes. (R142) -/
def Obligations.TakeResult : Prop :=
  ∀ (ts : TrackState) (r : BitVec 7) (g : Register), ts.regs[r.toNat]? = some g →
    let act := if g.pend then !g.act else g.act
    let k := if act then g.slot1 else g.slot0
    let k' : Packet := if r = 0 then { k with rep := BitVec.ofNat 8 (k.rep.toNat - 1) } else k
    ts.take r = { ts with
      regs := ts.regs.set r.toNat
        { slot0 := if act then g.slot0 else k', slot1 := if act then k' else g.slot1, act := act, pend := false }
      latch := { buf := k.buf, nbits := k.nbits }
      bitPos := 0 }

/-- From every track state that meets the invariant an advance decision leaves 1 to 80 bits in the latch and bitPos 0:
every path loads the latch, so a pull never fails to find a bit. (42_pull_and_advance.md R146, 10_state.md R48) -/
def Obligations.AdvanceLoadsLegalPacket : Prop :=
  ∀ (p : Params) (t : Track) (ts : TrackState), p.Legal → ts.Inv p t →
    1 ≤ ts.advance.latch.nbits.toNat ∧ ts.advance.latch.nbits.toNat ≤ 80 ∧ ts.advance.bitPos = 0

/-- With no sequence active, no swap requested and register 0 not repeating, the (n+1)-th next boundary takes the
register n+1 places after curReg in the cycle 1, ..., maxLoaded (from 0 the first is 1), never 0, and sends its
newest loaded packet: the inactive slot's if pend is set, else the active one's. (R144) -/
def Obligations.RoundRobin : Prop :=
  ∀ (p : Params) (t : Track) (ts : TrackState), p.Legal → ts.Inv p t → ts.seqActive = false → ts.nextV = false →
    (ts.curReg = 0 → (ts.register 0).active.rep = 0) →
    ∀ n : Nat,
      let u := ts.advances (n + 1)
      let g := ts.register u.curReg
      u.curReg.toNat = (ts.curReg.toNat + ts.maxLoaded.toNat - 1 + (n + 1)) % ts.maxLoaded.toNat + 1 ∧
      u.latch = (if g.pend then g.inactive else g.active).latch

/-- With no sequence active, after an accepted LOAD of register 0: if register 0 was still repeating, its remaining
repeats are sent first (R114 (c)); then the loaded packet is sent max(1, p) times with nothing between, its rep ends
at 0, the next boundary takes register 1, and no later boundary (with no further LOAD) takes register 0. (R143) -/
def Obligations.RegisterZeroBudget : Prop :=
  ∀ (s : State) (t : Track) (nbits : BitVec 7) (rep : BitVec 8) (buf : Buf), s.Inv → (s.track t).seqActive = false →
    1 ≤ nbits.toNat → nbits.toNat ≤ 80 →
    ∃ s', exec (.load t 0 nbits 0 rep buf) s = .next s' ∧
      let old := ((s.track t).register 0).active
      let m := if (s.track t).curReg = 0 then old.rep.toNat else 0
      (∀ n, n < m → ((s'.track t).advances (n + 1)).curReg = 0 ∧ ((s'.track t).advances (n + 1)).latch = old.latch) ∧
      (∀ n, n < max 1 rep.toNat → ((s'.track t).advances (m + n + 1)).curReg = 0 ∧
        ((s'.track t).advances (m + n + 1)).latch = { buf := buf, nbits := nbits }) ∧
      (((s'.track t).advances (m + max 1 rep.toNat)).register 0).active.rep = 0 ∧
      ((s'.track t).advances (m + max 1 rep.toNat + 1)).curReg = 1 ∧
      ∀ n, ((s'.track t).advances (m + max 1 rep.toNat + n + 1)).curReg ≠ 0

/-- After a successful SCHED of c entries, the boundaries send entry 0 max(1, rep0) times, then entry 1, and so on
through entry c-1, with seqLen = c - i while entry i is sent; at the boundary after the last transmission seqLen is
0, the sequence is over, and what is chosen, taken and left in the register file is what the boundary would have
done had there been no sequence. (R123) -/
def Obligations.SequenceTransmission : Prop :=
  ∀ (s : State) (t : Track) (cnt : BitVec 8), s.Inv → (s.track t).seqActive = false →
    1 ≤ cnt.toNat → cnt.toNat ≤ s.params.seqCap →
    ∃ s', exec (.sched t 0 cnt) s = .next s' ∧
      let ts := s.track t
      let run := fun n => (s'.track t).advances n
      (∀ i, i < cnt.toNat → ∀ j, j < max 1 (ts.entry (BitVec.ofNat 7 i)).rep.toNat →
        (run (ts.sentBefore i + j + 1)).latch = (ts.entry (BitVec.ofNat 7 i)).latch ∧
        (run (ts.sentBefore i + j + 1)).seqLen.toNat = cnt.toNat - i) ∧
      let u := run (ts.sentBefore cnt.toNat + 1)
      u.seqActive = false ∧ u.seqLen = 0 ∧ u.latch = ts.advance.latch ∧ u.curReg = ts.advance.curReg ∧
        u.nextV = ts.advance.nextV ∧ u.regs = ts.advance.regs

/-- After an accepted LOAD of register r its packet is in the inactive slot with pend set. Every advance decision then
either leaves it so, or takes r and puts exactly that packet in the latch; it takes r at once if r is the pending
request, no sequence is active and register 0 has no repeats left. (40_register_load.md R112, 40_register_load.md
R111) -/
def Obligations.LoadedPacketIsTakenNext : Prop :=
  (∀ (s : State) (t : Track) (r nbits : BitVec 7) (rep : BitVec 8) (buf : Buf), s.Inv → r.toNat < s.params.nreg t →
    1 ≤ nbits.toNat → nbits.toNat ≤ 80 →
    ∃ s', exec (.load t r nbits 0 rep buf) s = .next s' ∧ ((s'.track t).register r).pend = true ∧
      ((s'.track t).register r).inactive = { buf := buf, nbits := nbits, rep := rep }) ∧
  (∀ (p : Params) (t : Track) (ts : TrackState) (r : BitVec 7) (k : Packet), p.Legal → ts.Inv p t →
    r.toNat < p.nreg t → (ts.register r).pend = true → (ts.register r).inactive = k →
    let u := ts.advance
    let waits := (u.register r).pend = true ∧ (u.register r).inactive = k
    let taken := (u.register r).pend = false ∧ (u.register r).active.latch = k.latch ∧ u.latch = k.latch ∧ u.curReg = r
    (waits ∨ taken) ∧
    (ts.seqActive = false → ¬(ts.curReg = 0 ∧ 0 < (ts.register 0).active.rep.toNat) → ts.nextV = true →
      ts.nextIdx = r → taken))

/-- A pull of a bit runs the advance decision if bitPos equals the packet's length, replies with bit bitPos of the
packet in the latch and raises bitPos by one. Nothing else changes. That the reply line keeps its value until the
next pull of a bit is the model's choice (log 6). (R150) -/
def Obligations.PullBitResult : Prop :=
  ∀ (s : State) (t : Track), s.Inv →
    let u := if (s.track t).bitPos = (s.track t).latch.nbits then (s.track t).advance else s.track t
    exec (.pullBit t) s = .next (s.setTrack t { u with
      bitPos := u.bitPos + 1
      replyBit := u.latch.buf.getMsbD u.bitPos.toNat })

/-- A pull of a byte leaves the track as eight bit pulls in a row would, boundaries included, and replies with their
bits, the j-th in bit 7-j (that the reply lines keep it is log 6). Nothing else changes. (R151) -/
def Obligations.PullByteResult : Prop :=
  ∀ (s : State) (t : Track), ∃ v : Byte,
    exec (.pullByte t) s = .next (s.setTrack t { ((s.track t).nextBits 8).2 with replyByte := v }) ∧
    ∀ j, j < 8 → ((s.track t).nextBits 8).1[j]? = some (v.getLsbD (7 - j))

/-- A pull of a packet sets MIX if bits of the current packet are left, runs the advance decision, consumes the whole
new packet and replies with its buffer and length (that the reply lines keep them is log 6). Nothing else changes.
(R152) -/
def Obligations.PullPacketResult : Prop :=
  ∀ (s : State) (t : Track),
    let u := ({ s.track t with
      mix := (s.track t).mix || decide ((s.track t).bitPos.toNat < (s.track t).latch.nbits.toNat) }).advance
    exec (.pullPacket t) s = .next (s.setTrack t { u with
      bitPos := u.latch.nbits
      replyPacket := u.latch })

/-- After a pull, every slot of every register of the track holds the same buffer and length, and outside register 0 the
same rep; a register's act changes only together with pend going from 1 to 0; entries keep buffer and length; only
the reply line of the pull's own kind is written (THE MODEL'S CHOICE, stated by no rule: that the lines of the other
kinds keep their value is log 6, DESIGN CHOICE); maxLoaded, nextIdx, lastStatus, the driver and the wire, the other
track and the command and response ports are as before. (10_state.md R21, 10_state.md R22, 00_scope.md R14,
20_memory.md R60) -/
def Obligations.PullFrame : Prop :=
  ∀ (s s' : State) (t : Track) (i : Instr), i = .pullBit t ∨ i = .pullByte t ∨ i = .pullPacket t →
    exec i s = .next s' →
    let ts := s.track t
    let u := s'.track t
    s' = s.setTrack t { ts with
      regs := u.regs, curReg := u.curReg, nextV := u.nextV, latch := u.latch, bitPos := u.bitPos, seq := u.seq
      seqActive := u.seqActive, seqLen := u.seqLen, seqCur := u.seqCur, seqRetire := u.seqRetire
      mix := u.mix, replyBit := u.replyBit, replyByte := u.replyByte, replyPacket := u.replyPacket } ∧
    ((∀ t, i ≠ .pullBit t) → u.replyBit = ts.replyBit) ∧ ((∀ t, i ≠ .pullByte t) → u.replyByte = ts.replyByte) ∧
    ((∀ t, i ≠ .pullPacket t) → u.replyPacket = ts.replyPacket) ∧
    (∀ (q : Nat) (g : Register), ts.regs[q]? = some g → ∃ g', u.regs[q]? = some g' ∧
      g'.slot0.latch = g.slot0.latch ∧ g'.slot1.latch = g.slot1.latch ∧
      (q ≠ 0 → g'.slot0 = g.slot0 ∧ g'.slot1 = g.slot1) ∧
      (g'.act = g.act ∧ g'.pend = g.pend ∨ g'.act = (!g.act) ∧ g.pend = true ∧ g'.pend = false)) ∧
    (∀ (q : Nat) (e : Packet), ts.seq[q]? = some e → ∃ e', u.seq[q]? = some e' ∧ e'.latch = e.latch)

/-- From every track state that meets the invariant: n byte pulls give, most significant bit first, the bits of 8n bit
pulls, with their boundaries at the same bit positions, and leave the same track. Every packet pull is exactly one
boundary, whose packet it returns and consumes. From an exhausted packet, n packet pulls give the bits of exactly
their n packets, which are the bits of as many bit pulls, whose boundaries are at the first bit of each of the n
packets and nowhere else, and leave the same track. (R153) -/
def Obligations.PullsAreEquivalent : Prop :=
  ∀ (p : Params) (t : Track) (ts : TrackState), p.Legal → ts.Inv p t → ∀ n : Nat,
    ((ts.nextBytes n).1.flatMap byteBits = (ts.nextBits (8 * n)).1 ∧ (ts.nextBytes n).2 = (ts.nextBits (8 * n)).2 ∧
      ts.byteBoundaries n = ts.bitBoundaries (8 * n)) ∧
    ts.nextPacket = (ts.advance.latch, { ts.advance with
      bitPos := ts.advance.latch.nbits, mix := ts.mix || decide (ts.bitPos.toNat < ts.latch.nbits.toNat) }) ∧
    (ts.bitPos = ts.latch.nbits →
      let r := ts.nextPackets n
      let bits := r.1.flatMap Latch.bits
      r.1.length = n ∧ bits = (ts.nextBits bits.length).1 ∧ r.2 = (ts.nextBits bits.length).2 ∧
      ts.bitBoundaries bits.length = packetStarts r.1)

/-- With the timer driver in ARMED or LOW, TA at tick now pulls one bit b, sets pin and tBit, appends (1, H(b)) to the
wire, arms timer B at now + H(b) and timer A at now + 2 H(b), and goes to HIGH. Beyond what the pull changes (its
reply line too, log 6), nothing else changes. (R172) -/
def Obligations.TimerAResult : Prop :=
  ∀ (s : State) (t : Track) (now : Nat), (s.track t).cfg.kind = .timer →
    (s.track t).tPhase = .armed ∨ (s.track t).tPhase = .low →
    let b := (s.track t).nextBit.1
    let h := (if b then 58 else 100) * s.params.ticksPerUs
    applyMove (.ta t now) s = .next (s.setTrack t { (s.track t).nextBit.2 with
      pin := true, tBit := b, replyBit := b, tPhase := .high, tB := .due (now + h), tA := .due (now + 2 * h)
      wave := (s.track t).wave ++ [{ level := true, dur := .ticks h }] })

/-- With the timer driver in HIGH, TB sets the pin to 0, appends (0, H(tBit)) to the wire and goes to LOW. Nothing else
changes. (R173) -/
def Obligations.TimerBResult : Prop :=
  ∀ (s : State) (t : Track), (s.track t).cfg.kind = .timer → (s.track t).tPhase = .high →
    applyMove (.tb t) s = .next (s.setTrack t { s.track t with
      pin := false, tPhase := .low
      wave := (s.track t).wave ++
        [{ level := false, dur := .ticks ((if (s.track t).tBit then 58 else 100) * s.params.ticksPerUs) }] })

/-- A successful ATTACH of the timer driver arms both timers, A due at once (that B gets its compare time from the first
TA is log 5), and leaves TA enabled and TB not; after an enabled TA only TB is enabled, after an enabled TB only TA;
and no other move but reset changes which one is. (43_signal_drivers.md R174, 43_signal_drivers.md R171,
60_exceptions.md R235, 60_exceptions.md R237) -/
def Obligations.TimerEventsAlternate : Prop :=
  ∀ (s s' : State) (t : Track) (m : Move), applyMove m s = .next s' →
    (∀ now, m = .ta t now → (s.track t).taEnabled = true →
      (s'.track t).taEnabled = false ∧ (s'.track t).tbEnabled = true) ∧
    (m = .tb t → (s.track t).tbEnabled = true → (s'.track t).taEnabled = true ∧ (s'.track t).tbEnabled = false) ∧
    ((∀ now, m ≠ .ta t now) → m ≠ .tb t → m ≠ .reset → (s.track t).cfg.kind ≠ .none →
      (s'.track t).taEnabled = (s.track t).taEnabled ∧ (s'.track t).tbEnabled = (s.track t).tbEnabled) ∧
    ((∀ now, m ≠ .ta t now) → m ≠ .tb t → (s.track t).cfg.kind = .none → (s'.track t).cfg.kind = .timer →
      (s'.track t).taEnabled = true ∧ (s'.track t).tbEnabled = false ∧ (s'.track t).tA = .dueAtOnce ∧
        (s'.track t).tB = .armed)

/-- Over any run without reset of a timer-driven track, producer steps and steps of the other track between as they may:
the wire, with the low half still owed in the HIGH phase, is what it was, followed by (1, H(b)), (0, H(b)) for each
bit b the TAs of the run pulled, in pull order. If the run is of TAs and TBs of the track alone, those bits are the
next bits of the stream and the whole rotator is left as the same bit pulls leave it. If it is TA and TB in turn n
times from a phase with TA enabled, they are n bits and nothing is owed. (R175) -/
def Obligations.TimerWaveform : Prop :=
  ∀ (s : State) (t : Track) (ms : List Move), (s.track t).cfg.kind = .timer → .reset ∉ ms →
    ∃ s', runMoves ms s = .next s' ∧
      let ts := s.track t
      let u := s'.track t
      let bits := runBits t ms s
      u.wave ++ u.owed s.params = ts.wave ++ ts.owed s.params ++ bits.flatMap (bitWave s.params) ∧
      ((∀ m ∈ ms, m = .tb t ∨ ∃ now, m = .ta t now) →
        bits = (ts.nextBits bits.length).1 ∧ u.SameRotator (ts.nextBits bits.length).2) ∧
      (∀ nows : List Nat, ms = nows.flatMap (fun now => [.ta t now, .tb t]) →
        ts.tPhase = .armed ∨ ts.tPhase = .low → bits.length = nows.length ∧ ts.owed s.params = [] ∧ u.owed s.params = [])

/-- With the ring driver asked to fill and room for a unit, REFILL makes the pull of the granularity (one bit, a byte, a
packet), writes the descriptors of its bits in order to the ring entries (rHead + rCount + i) mod RING_CAP, so
behind those held, leaves every other entry, and, if less than a unit of room is left, stops asking and lets the
peripheral run. Beyond what the pull changes (its reply line too, log 6), nothing else changes; the wire is not
touched. (R182) -/
def Obligations.RefillResult : Prop :=
  ∀ (s : State) (t : Track), s.Inv →
    let ts := s.track t
    let cap := s.params.ringCap
    let unit := match ts.cfg.gran with | .bit => 1 | .byte => 8 | .packet => 80
    ts.cfg.kind = .ring → ts.refilling = true → unit ≤ cap - ts.rCount →
    ∃ s', applyMove (.refill t) s = .next s' ∧
      let r : List Bool × TrackState :=
        match ts.cfg.gran with
        | .bit => ((ts.nextBits 1).1, { (ts.nextBits 1).2 with replyBit := ts.nextBit.1 })
        | .byte => ((ts.nextBits 8).1, { (ts.nextBits 8).2 with replyByte := ts.nextByte.1 })
        | .packet => (ts.nextPacket.1.bits, { ts.nextPacket.2 with replyPacket := ts.nextPacket.1 })
      let u := s'.track t
      u.ringQueue cap = ts.ringQueue cap ++ r.1.map s.params.desc ∧
      (∀ i, i < r.1.length → u.ring[(ts.rHead + ts.rCount + i) % cap]? = (r.1[i]?).map s.params.desc) ∧
      (∀ k, (∀ i, i < r.1.length → k ≠ (ts.rHead + ts.rCount + i) % cap) → u.ring[k]? = ts.ring[k]?) ∧
      u.rCount = ts.rCount + r.1.length ∧
      (if cap - u.rCount < unit then u.refilling = false ∧ u.running = true
       else u.refilling = true ∧ u.running = ts.running) ∧
      s' = s.setTrack t { r.2 with
        ring := u.ring, rCount := u.rCount, refilling := u.refilling, running := u.running }

/-- With the ring driver running and a descriptor d held, DRAIN removes the oldest descriptor, appends its two segments
to the wire, leaves the pin at its second level, clears frozen, and asks for a refill if at most thresh descriptors
are left. Nothing else changes. (R185) -/
def Obligations.DrainResult : Prop :=
  ∀ (s : State) (t : Track) (d : Word) (rest : List Word), s.Inv →
    let ts := s.track t
    ts.cfg.kind = .ring → ts.running = true → ts.ringQueue s.params.ringCap = d :: rest →
    ∃ s', applyMove (.drain t) s = .next s' ∧ (s'.track t).ringQueue s.params.ringCap = rest ∧
      s' = s.setTrack t { ts with
        rHead := (ts.rHead + 1) % s.params.ringCap
        rCount := ts.rCount - 1
        pin := d.getLsbD 15
        wave := ts.wave ++ [{ level := d.getLsbD 31, dur := .ticks (d.extractLsb' 16 15).toNat },
          { level := d.getLsbD 15, dur := .ticks (d.extractLsb' 0 15).toNat }]
        frozen := false
        refilling := if ts.rCount - 1 ≤ ts.cfg.thresh.toNat then true else ts.refilling }

/-- With the ring driver running, the ring empty and not frozen, UNDERRUN sets the sticky flag and frozen and appends
(pin, FREEZE) to the wire. Nothing else changes. (R186) -/
def Obligations.UnderrunResult : Prop :=
  ∀ (s : State) (t : Track), (s.track t).cfg.kind = .ring → (s.track t).running = true → (s.track t).rCount = 0 →
    (s.track t).frozen = false →
    applyMove (.underrun t) s = .next (s.setTrack t { s.track t with
      underrunFlag := true, frozen := true
      wave := (s.track t).wave ++ [{ level := (s.track t).pin, dur := .freeze }] })

/-- In every state that meets the two invariants, and in the state after any move from it, a ring driver that is asked
to fill has room for at least one unit, so REFILL is enabled: right after ATTACH, in the middle of a burst, after a
DRAIN. A DRAIN that leaves at most thresh descriptors leaves it asked; so does a successful ATTACH of the ring
driver; nothing else asks. Whatever move but reset ends a burst leaves more than thresh descriptors in the ring. The
room is the field refillRoom of the driver invariant. (43_signal_drivers.md R183, 43_signal_drivers.md R185,
44_control_status.md R210) -/
def Obligations.RefillThreshold : Prop :=
  ∀ (s s' : State) (t : Track) (m : Move), s.Inv → s.DriverInv → applyMove m s = .next s' →
    let ts := s.track t
    let u := s'.track t
    (ts.cfg.kind = .ring → ts.refilling = true → ts.refillEnabled s.params = true) ∧
    (u.cfg.kind = .ring → u.refilling = true → u.refillEnabled s'.params = true) ∧
    (m = .drain t → ts.drainEnabled = true → u.rCount ≤ ts.cfg.thresh.toNat → u.refilling = true) ∧
    (ts.cfg.kind = .none → u.cfg.kind = .ring → u.refilling = true) ∧
    (ts.refilling = false → u.refilling = true →
      m = .drain t ∧ ts.drainEnabled = true ∧ u.rCount ≤ ts.cfg.thresh.toNat ∨
        ts.cfg.kind = .none ∧ u.cfg.kind = .ring) ∧
    (ts.refilling = true → u.refilling = false → m ≠ .reset → ts.cfg.thresh.toNat < u.rCount)

/-- Over any run of a ring-driven track without reset and without UNDERRUN of it, producer steps and steps of the other
track between as they may: what is on the wire followed by what the ring still holds is what was there before,
followed by (1, H(b)), (0, H(b)) for the bits the REFILLs of the run pulled, in pull order. If the run is of REFILLs
and DRAINs of the track alone (and, where it pulls packets, starts with the packet exhausted), those bits are the
next bits of the stream and the whole rotator is left as the same bit pulls leave it. (43_signal_drivers.md R188,
43_signal_drivers.md R175) -/
def Obligations.RingWaveform : Prop :=
  ∀ (s : State) (t : Track) (ms : List Move), s.Inv → (s.track t).cfg.kind = .ring → .reset ∉ ms → .underrun t ∉ ms →
    ∃ s', runMoves ms s = .next s' ∧
      let ts := s.track t
      let u := s'.track t
      let bits := runBits t ms s
      let held := fun v : TrackState => (v.ringQueue s.params.ringCap).flatMap descWave
      u.wave ++ held u = ts.wave ++ held ts ++ bits.flatMap (bitWave s.params) ∧
      ((∀ m ∈ ms, m = .refill t ∨ m = .drain t) → (ts.cfg.gran = .packet → ts.bitPos = ts.latch.nbits) →
        bits = (ts.nextBits bits.length).1 ∧ u.SameRotator (ts.nextBits bits.length).2)

/-- The model answers a driver event whose condition does not hold with the same state (log 2, its own convention for a
step that is not there); an unattached track has none enabled, so nothing is pulled and its pin does not move.
(20_memory.md R65, 44_control_status.md R211, 60_exceptions.md R234) -/
def Obligations.NotEnabledEventsDoNothing : Prop :=
  ∀ (s : State) (t : Track) (now : Nat),
    ((s.track t).taEnabled = false → applyMove (.ta t now) s = .next s) ∧
    ((s.track t).tbEnabled = false → applyMove (.tb t) s = .next s) ∧
    ((s.track t).refillEnabled s.params = false → applyMove (.refill t) s = .next s) ∧
    ((s.track t).drainEnabled = false → applyMove (.drain t) s = .next s) ∧
    ((s.track t).underrunEnabled = false → applyMove (.underrun t) s = .next s) ∧
    ((s.track t).cfg.kind = .none → (s.track t).taEnabled = false ∧ (s.track t).tbEnabled = false ∧
      (s.track t).refillEnabled s.params = false ∧ (s.track t).drainEnabled = false ∧
      (s.track t).underrunEnabled = false)

/-- Reset from any state: every register holds RESET_PACKET with rep 0 in both slots, act and pend 0; every entry the
same packet; every other piece of state of both tracks the value of the table; the command port empty, no WAIT held,
no response words. The parameters stay. The values of the reply lines are the model's choice (log 6), and the fields
pending and moveNo are the model's own (log 1): neither is stated here. (R260) -/
def Obligations.ResetValues : Prop :=
  ∀ s : State, ∃ s', applyMove .reset s = .next s' ∧ s'.params = s.params ∧
    s'.cmdWords = [] ∧ s'.waitHold = none ∧ s'.responses = [] ∧
    ∀ t : Track,
      let ts := s'.track t
      let k : Packet := { s.params.resetPacket with rep := 0 }
      ts.regs = List.replicate (s.params.nreg t) { slot0 := k, slot1 := k, act := false, pend := false } ∧
      ts.seq = List.replicate s.params.seqCap k ∧ ts.ring = List.replicate s.params.ringCap 0 ∧
      ts.maxLoaded = 1 ∧ ts.curReg = 1 ∧ ts.nextV = false ∧ ts.nextIdx = 0 ∧ ts.latch = { buf := 0, nbits := 0 } ∧
      ts.bitPos = 0 ∧ ts.seqActive = false ∧ ts.seqLen = 0 ∧ ts.seqCur = 0 ∧ ts.seqRetire = false ∧
      ts.lastStatus = .ok ∧ ts.underrunFlag = false ∧ ts.mix = false ∧
      ts.cfg = { kind := .none, gran := .bit, thresh := 0, pin := 0, unit := 0 } ∧ ts.pin = false ∧
      ts.tPhase = .idle ∧ ts.tBit = false ∧ ts.tA = .disarmed ∧ ts.tB = .disarmed ∧ ts.rHead = 0 ∧ ts.rCount = 0 ∧
      ts.refilling = false ∧ ts.running = false ∧ ts.frozen = false ∧ ts.wave = []

/-- From the reset state of any legal parameters, every boundary of a track takes register 1 and puts RESET_PACKET in
the latch, for ever. (70_reset_and_hazards.md R261) -/
def Obligations.UnloadedTrackIdles : Prop :=
  ∀ (p : Params) (t : Track) (n : Nat), p.Legal →
    let u := ((State.resetWith p).track t).advances (n + 1)
    u.curReg = 1 ∧ u.latch = { buf := p.resetPacket.buf, nbits := p.resetPacket.nbits }

/-- The invariants of R48, with the storage sizes, and what the drivers keep true of a track hold in the reset state,
for any legal parameters, and for the default ones (whose values where R5 leaves them open are the defaults the spec
suggests, log 3). (10_state.md R48, 10_state.md R39-R44, 70_reset_and_hazards.md R260) -/
def Obligations.ResetMeetsInvariants : Prop :=
  (∀ p : Params, p.Legal → (State.resetWith p).Inv ∧ (State.resetWith p).DriverInv) ∧
  State.reset.Inv ∧ State.reset.DriverInv

/-- From every state that meets the invariant (legal parameters; sizes; legal packets everywhere; cursor, mark and
request in range; a request's register pending, register 0 pending exactly when requested; sequence flag, length and
cursor consistent; bitPos within the packet; ring count and head in range), whatever the next move is, the step
leads to a state that meets it. (10_state.md R48, 10_state.md R25-R34, 10_state.md R44) -/
def Obligations.StepKeepsInvariant : Prop :=
  ∀ s s' : State, s.Inv → step s = .next s' → s'.Inv

/-- From every state that meets both invariants, whatever the next move is: the phase is IDLE exactly without the timer
driver; the pin is high exactly in the HIGH phase; no descriptor ends high; without the ring driver the ring is idle
and empty; the stored threshold leaves room for a unit; a ring at or below its threshold is being filled; a ring
that is asked to fill has room for a unit; a frozen peripheral has underrun; an unattached track has put nothing on
the wire. (10_state.md R41, 10_state.md R42, 43_signal_drivers.md R171-R173, 43_signal_drivers.md R183,
43_signal_drivers.md R186, 44_control_status.md R210) -/
def Obligations.StepKeepsDriverInvariant : Prop :=
  ∀ s s' : State, s.Inv → s.DriverInv → step s = .next s' → s'.DriverInv

/-- From every state in which the collected words are fewer than their command needs and none are collected while a WAIT
is held, every step leads to such a state; the reset state is one. (10_state.md R45, 10_state.md R46, 30_encoding.md
R81) -/
def Obligations.StepKeepsPortInvariant : Prop :=
  (∀ p : Params, (State.resetWith p).PortInv) ∧ ∀ s s' : State, s.PortInv → step s = .next s' → s'.PortInv

/-- After reset, and if so before any move then also after it: on both tracks MIX is 0, and a track whose driver pulls
packets, or that has no driver, has an exhausted packet; so NEXTPACKET never discards bits, because only the track's
own driver pulls, with one granularity from ATTACH onward. (42_pull_and_advance.md R152, 43_signal_drivers.md R180,
30_encoding.md R96) -/
def Obligations.DriversNeverMixPulls : Prop :=
  (∀ (p : Params) (t : Track), ((State.resetWith p).track t).WholePackets) ∧
  ∀ (s s' : State) (m : Move), (∀ t, (s.track t).WholePackets) → applyMove m s = .next s' →
    ∀ t, (s'.track t).WholePackets

/-- Over any move but reset, from a state that meets the invariant: maxLoaded does not decrease, UNDERRUN and MIX do not
clear, and seqLen does not increase unless the move completes a SCHED of that track. (70_reset_and_hazards.md R271,
40_register_load.md R113, 44_control_status.md R215) -/
def Obligations.MonotoneStatusFields : Prop :=
  ∀ (s s' : State) (m : Move) (t : Track), s.Inv → m ≠ .reset → applyMove m s = .next s' →
    (s.track t).maxLoaded.toNat ≤ (s'.track t).maxLoaded.toNat ∧
    ((s.track t).underrunFlag = true → (s'.track t).underrunFlag = true) ∧
    ((s.track t).mix = true → (s'.track t).mix = true) ∧
    ((s'.track t).seqLen.toNat ≤ (s.track t).seqLen.toNat ∨
      ∃ w cnt after, m = .word w ∧ decode (s.cmdWords ++ [w]) = .ok (.sched t 0 cnt, after) ∧
        (s.track t).seqActive = false)

/-- Over any move but reset the configuration of an attached track stays; an unattached track's configuration changes
only when an ATTACH of that track completes. A second ATTACH with zero reserved bits changes only lastStatus
(EATTACHED) and the response. (70_reset_and_hazards.md R276, 10_state.md R39) -/
def Obligations.AttachIsOncePerReset : Prop :=
  ∀ (s s' : State) (m : Move) (t : Track), m ≠ .reset → applyMove m s = .next s' →
    ((s.track t).cfg.kind ≠ .none → (s'.track t).cfg = (s.track t).cfg) ∧
    ((s'.track t).cfg ≠ (s.track t).cfg → ∃ w kind gran thresh pin unit after, m = .word w ∧
      decode (s.cmdWords ++ [w]) = .ok (.attach t kind gran thresh 0 pin unit, after)) ∧
    ((s.track t).cfg.kind ≠ .none → ∀ kind gran thresh pin unit,
      exec (.attach t kind gran thresh 0 pin unit) s = .next (s.endedWith t .eAttached 7))

/-- If a WAIT is held on a track without a driver whose seqLen is above the threshold, then after every move but reset
it is held so still, no word is collected and nothing is responded. (70_reset_and_hazards.md R274,
44_control_status.md R211, 41_priority_sequence.md R126) -/
def Obligations.WaitOnUnattachedTrackHangs : Prop :=
  ∀ (s s' : State) (m : Move) (h : WaitHold), s.waitHold = some h → (s.track h.track).cfg.kind = .none →
    h.thr.toNat < (s.track h.track).seqLen.toNat → m ≠ .reset → applyMove m s = .next s' →
    s'.waitHold = some h ∧ (s'.track h.track).cfg.kind = .none ∧ h.thr.toNat < (s'.track h.track).seqLen.toNat ∧
      s'.cmdWords = s.cmdWords ∧ s'.responses = s.responses

/-- From every state that meets the invariant, over every move but reset that is not an enabled TA or REFILL of track t:
the latch, bitPos, curReg, MIX and the reply lines of t (whose being held is log 6, the model's choice) stay as they
are and seqLen falls only by a KILL; on an unattached track so it is over every move but reset, so no boundary
happens there. (30_encoding.md R96, 44_control_status.md R211, 42_pull_and_advance.md R140, 60_exceptions.md R236,
20_memory.md R65) -/
def Obligations.OnlyTheTracksDriverPulls : Prop :=
  ∀ (s s' : State) (t : Track) (m : Move), s.Inv → applyMove m s = .next s' → m ≠ .reset →
    let still := (s'.track t).latch = (s.track t).latch ∧ (s'.track t).bitPos = (s.track t).bitPos ∧
      (s'.track t).curReg = (s.track t).curReg ∧ (s'.track t).mix = (s.track t).mix ∧
      (s'.track t).replyBit = (s.track t).replyBit ∧ (s'.track t).replyByte = (s.track t).replyByte ∧
      (s'.track t).replyPacket = (s.track t).replyPacket ∧
      ((s'.track t).seqLen.toNat < (s.track t).seqLen.toNat →
        ∃ w after, m = .word w ∧ decode (s.cmdWords ++ [w]) = .ok (.kill t 0, after))
    (((∀ now, m = .ta t now → (s.track t).taEnabled = false) ∧
      (m = .refill t → (s.track t).refillEnabled s.params = false)) → still) ∧
    ((s.track t).cfg.kind = .none → still)
end

