-- ==== Sys2Proof/Laws/State.lean ====
section
/-! SUPPORT. One lemma per field and per named update of a track and of the state: what the update leaves and what it writes. -/

namespace Sys2Proof.Machine

variable (ts : TrackState) (s : State) (t : Track)

@[simp] theorem TrackState.setRegister_regs (r : BitVec 7) (g : Register) :
    (ts.setRegister r g).regs = ts.regs.set r.toNat g := rfl
@[simp] theorem TrackState.setRegister_maxLoaded (r : BitVec 7) (g : Register) :
    (ts.setRegister r g).maxLoaded = ts.maxLoaded := rfl
@[simp] theorem TrackState.setRegister_curReg (r : BitVec 7) (g : Register) :
    (ts.setRegister r g).curReg = ts.curReg := rfl
@[simp] theorem TrackState.setRegister_nextV (r : BitVec 7) (g : Register) :
    (ts.setRegister r g).nextV = ts.nextV := rfl
@[simp] theorem TrackState.setRegister_nextIdx (r : BitVec 7) (g : Register) :
    (ts.setRegister r g).nextIdx = ts.nextIdx := rfl
@[simp] theorem TrackState.setRegister_latch (r : BitVec 7) (g : Register) :
    (ts.setRegister r g).latch = ts.latch := rfl
@[simp] theorem TrackState.setRegister_bitPos (r : BitVec 7) (g : Register) :
    (ts.setRegister r g).bitPos = ts.bitPos := rfl
@[simp] theorem TrackState.setRegister_seq (r : BitVec 7) (g : Register) :
    (ts.setRegister r g).seq = ts.seq := rfl
@[simp] theorem TrackState.setRegister_seqActive (r : BitVec 7) (g : Register) :
    (ts.setRegister r g).seqActive = ts.seqActive := rfl
@[simp] theorem TrackState.setRegister_seqLen (r : BitVec 7) (g : Register) :
    (ts.setRegister r g).seqLen = ts.seqLen := rfl
@[simp] theorem TrackState.setRegister_seqCur (r : BitVec 7) (g : Register) :
    (ts.setRegister r g).seqCur = ts.seqCur := rfl
@[simp] theorem TrackState.setRegister_seqRetire (r : BitVec 7) (g : Register) :
    (ts.setRegister r g).seqRetire = ts.seqRetire := rfl
@[simp] theorem TrackState.setRegister_lastStatus (r : BitVec 7) (g : Register) :
    (ts.setRegister r g).lastStatus = ts.lastStatus := rfl
@[simp] theorem TrackState.setRegister_underrunFlag (r : BitVec 7) (g : Register) :
    (ts.setRegister r g).underrunFlag = ts.underrunFlag := rfl
@[simp] theorem TrackState.setRegister_mix (r : BitVec 7) (g : Register) :
    (ts.setRegister r g).mix = ts.mix := rfl
@[simp] theorem TrackState.setRegister_cfg (r : BitVec 7) (g : Register) :
    (ts.setRegister r g).cfg = ts.cfg := rfl
@[simp] theorem TrackState.setRegister_pin (r : BitVec 7) (g : Register) :
    (ts.setRegister r g).pin = ts.pin := rfl
@[simp] theorem TrackState.setRegister_tPhase (r : BitVec 7) (g : Register) :
    (ts.setRegister r g).tPhase = ts.tPhase := rfl
@[simp] theorem TrackState.setRegister_tBit (r : BitVec 7) (g : Register) :
    (ts.setRegister r g).tBit = ts.tBit := rfl
@[simp] theorem TrackState.setRegister_tA (r : BitVec 7) (g : Register) :
    (ts.setRegister r g).tA = ts.tA := rfl
@[simp] theorem TrackState.setRegister_tB (r : BitVec 7) (g : Register) :
    (ts.setRegister r g).tB = ts.tB := rfl
@[simp] theorem TrackState.setRegister_ring (r : BitVec 7) (g : Register) :
    (ts.setRegister r g).ring = ts.ring := rfl
@[simp] theorem TrackState.setRegister_rHead (r : BitVec 7) (g : Register) :
    (ts.setRegister r g).rHead = ts.rHead := rfl
@[simp] theorem TrackState.setRegister_rCount (r : BitVec 7) (g : Register) :
    (ts.setRegister r g).rCount = ts.rCount := rfl
@[simp] theorem TrackState.setRegister_refilling (r : BitVec 7) (g : Register) :
    (ts.setRegister r g).refilling = ts.refilling := rfl
@[simp] theorem TrackState.setRegister_running (r : BitVec 7) (g : Register) :
    (ts.setRegister r g).running = ts.running := rfl
@[simp] theorem TrackState.setRegister_frozen (r : BitVec 7) (g : Register) :
    (ts.setRegister r g).frozen = ts.frozen := rfl
@[simp] theorem TrackState.setRegister_wave (r : BitVec 7) (g : Register) :
    (ts.setRegister r g).wave = ts.wave := rfl
@[simp] theorem TrackState.setRegister_replyBit (r : BitVec 7) (g : Register) :
    (ts.setRegister r g).replyBit = ts.replyBit := rfl
@[simp] theorem TrackState.setRegister_replyByte (r : BitVec 7) (g : Register) :
    (ts.setRegister r g).replyByte = ts.replyByte := rfl
@[simp] theorem TrackState.setRegister_replyPacket (r : BitVec 7) (g : Register) :
    (ts.setRegister r g).replyPacket = ts.replyPacket := rfl

@[simp] theorem TrackState.setEntry_regs (i : BitVec 7) (k : Packet) :
    (ts.setEntry i k).regs = ts.regs := rfl
@[simp] theorem TrackState.setEntry_maxLoaded (i : BitVec 7) (k : Packet) :
    (ts.setEntry i k).maxLoaded = ts.maxLoaded := rfl
@[simp] theorem TrackState.setEntry_curReg (i : BitVec 7) (k : Packet) :
    (ts.setEntry i k).curReg = ts.curReg := rfl
@[simp] theorem TrackState.setEntry_nextV (i : BitVec 7) (k : Packet) :
    (ts.setEntry i k).nextV = ts.nextV := rfl
@[simp] theorem TrackState.setEntry_nextIdx (i : BitVec 7) (k : Packet) :
    (ts.setEntry i k).nextIdx = ts.nextIdx := rfl
@[simp] theorem TrackState.setEntry_latch (i : BitVec 7) (k : Packet) :
    (ts.setEntry i k).latch = ts.latch := rfl
@[simp] theorem TrackState.setEntry_bitPos (i : BitVec 7) (k : Packet) :
    (ts.setEntry i k).bitPos = ts.bitPos := rfl
@[simp] theorem TrackState.setEntry_seq (i : BitVec 7) (k : Packet) :
    (ts.setEntry i k).seq = ts.seq.set i.toNat k := rfl
@[simp] theorem TrackState.setEntry_seqActive (i : BitVec 7) (k : Packet) :
    (ts.setEntry i k).seqActive = ts.seqActive := rfl
@[simp] theorem TrackState.setEntry_seqLen (i : BitVec 7) (k : Packet) :
    (ts.setEntry i k).seqLen = ts.seqLen := rfl
@[simp] theorem TrackState.setEntry_seqCur (i : BitVec 7) (k : Packet) :
    (ts.setEntry i k).seqCur = ts.seqCur := rfl
@[simp] theorem TrackState.setEntry_seqRetire (i : BitVec 7) (k : Packet) :
    (ts.setEntry i k).seqRetire = ts.seqRetire := rfl
@[simp] theorem TrackState.setEntry_lastStatus (i : BitVec 7) (k : Packet) :
    (ts.setEntry i k).lastStatus = ts.lastStatus := rfl
@[simp] theorem TrackState.setEntry_underrunFlag (i : BitVec 7) (k : Packet) :
    (ts.setEntry i k).underrunFlag = ts.underrunFlag := rfl
@[simp] theorem TrackState.setEntry_mix (i : BitVec 7) (k : Packet) :
    (ts.setEntry i k).mix = ts.mix := rfl
@[simp] theorem TrackState.setEntry_cfg (i : BitVec 7) (k : Packet) :
    (ts.setEntry i k).cfg = ts.cfg := rfl
@[simp] theorem TrackState.setEntry_pin (i : BitVec 7) (k : Packet) :
    (ts.setEntry i k).pin = ts.pin := rfl
@[simp] theorem TrackState.setEntry_tPhase (i : BitVec 7) (k : Packet) :
    (ts.setEntry i k).tPhase = ts.tPhase := rfl
@[simp] theorem TrackState.setEntry_tBit (i : BitVec 7) (k : Packet) :
    (ts.setEntry i k).tBit = ts.tBit := rfl
@[simp] theorem TrackState.setEntry_tA (i : BitVec 7) (k : Packet) :
    (ts.setEntry i k).tA = ts.tA := rfl
@[simp] theorem TrackState.setEntry_tB (i : BitVec 7) (k : Packet) :
    (ts.setEntry i k).tB = ts.tB := rfl
@[simp] theorem TrackState.setEntry_ring (i : BitVec 7) (k : Packet) :
    (ts.setEntry i k).ring = ts.ring := rfl
@[simp] theorem TrackState.setEntry_rHead (i : BitVec 7) (k : Packet) :
    (ts.setEntry i k).rHead = ts.rHead := rfl
@[simp] theorem TrackState.setEntry_rCount (i : BitVec 7) (k : Packet) :
    (ts.setEntry i k).rCount = ts.rCount := rfl
@[simp] theorem TrackState.setEntry_refilling (i : BitVec 7) (k : Packet) :
    (ts.setEntry i k).refilling = ts.refilling := rfl
@[simp] theorem TrackState.setEntry_running (i : BitVec 7) (k : Packet) :
    (ts.setEntry i k).running = ts.running := rfl
@[simp] theorem TrackState.setEntry_frozen (i : BitVec 7) (k : Packet) :
    (ts.setEntry i k).frozen = ts.frozen := rfl
@[simp] theorem TrackState.setEntry_wave (i : BitVec 7) (k : Packet) :
    (ts.setEntry i k).wave = ts.wave := rfl
@[simp] theorem TrackState.setEntry_replyBit (i : BitVec 7) (k : Packet) :
    (ts.setEntry i k).replyBit = ts.replyBit := rfl
@[simp] theorem TrackState.setEntry_replyByte (i : BitVec 7) (k : Packet) :
    (ts.setEntry i k).replyByte = ts.replyByte := rfl
@[simp] theorem TrackState.setEntry_replyPacket (i : BitVec 7) (k : Packet) :
    (ts.setEntry i k).replyPacket = ts.replyPacket := rfl

@[simp] theorem TrackState.setLatch_regs (k : Packet) :
    (ts.setLatch k).regs = ts.regs := rfl
@[simp] theorem TrackState.setLatch_maxLoaded (k : Packet) :
    (ts.setLatch k).maxLoaded = ts.maxLoaded := rfl
@[simp] theorem TrackState.setLatch_curReg (k : Packet) :
    (ts.setLatch k).curReg = ts.curReg := rfl
@[simp] theorem TrackState.setLatch_nextV (k : Packet) :
    (ts.setLatch k).nextV = ts.nextV := rfl
@[simp] theorem TrackState.setLatch_nextIdx (k : Packet) :
    (ts.setLatch k).nextIdx = ts.nextIdx := rfl
@[simp] theorem TrackState.setLatch_latch (k : Packet) :
    (ts.setLatch k).latch = { buf := k.buf, nbits := k.nbits } := rfl
@[simp] theorem TrackState.setLatch_bitPos (k : Packet) :
    (ts.setLatch k).bitPos = 0 := rfl
@[simp] theorem TrackState.setLatch_seq (k : Packet) :
    (ts.setLatch k).seq = ts.seq := rfl
@[simp] theorem TrackState.setLatch_seqActive (k : Packet) :
    (ts.setLatch k).seqActive = ts.seqActive := rfl
@[simp] theorem TrackState.setLatch_seqLen (k : Packet) :
    (ts.setLatch k).seqLen = ts.seqLen := rfl
@[simp] theorem TrackState.setLatch_seqCur (k : Packet) :
    (ts.setLatch k).seqCur = ts.seqCur := rfl
@[simp] theorem TrackState.setLatch_seqRetire (k : Packet) :
    (ts.setLatch k).seqRetire = ts.seqRetire := rfl
@[simp] theorem TrackState.setLatch_lastStatus (k : Packet) :
    (ts.setLatch k).lastStatus = ts.lastStatus := rfl
@[simp] theorem TrackState.setLatch_underrunFlag (k : Packet) :
    (ts.setLatch k).underrunFlag = ts.underrunFlag := rfl
@[simp] theorem TrackState.setLatch_mix (k : Packet) :
    (ts.setLatch k).mix = ts.mix := rfl
@[simp] theorem TrackState.setLatch_cfg (k : Packet) :
    (ts.setLatch k).cfg = ts.cfg := rfl
@[simp] theorem TrackState.setLatch_pin (k : Packet) :
    (ts.setLatch k).pin = ts.pin := rfl
@[simp] theorem TrackState.setLatch_tPhase (k : Packet) :
    (ts.setLatch k).tPhase = ts.tPhase := rfl
@[simp] theorem TrackState.setLatch_tBit (k : Packet) :
    (ts.setLatch k).tBit = ts.tBit := rfl
@[simp] theorem TrackState.setLatch_tA (k : Packet) :
    (ts.setLatch k).tA = ts.tA := rfl
@[simp] theorem TrackState.setLatch_tB (k : Packet) :
    (ts.setLatch k).tB = ts.tB := rfl
@[simp] theorem TrackState.setLatch_ring (k : Packet) :
    (ts.setLatch k).ring = ts.ring := rfl
@[simp] theorem TrackState.setLatch_rHead (k : Packet) :
    (ts.setLatch k).rHead = ts.rHead := rfl
@[simp] theorem TrackState.setLatch_rCount (k : Packet) :
    (ts.setLatch k).rCount = ts.rCount := rfl
@[simp] theorem TrackState.setLatch_refilling (k : Packet) :
    (ts.setLatch k).refilling = ts.refilling := rfl
@[simp] theorem TrackState.setLatch_running (k : Packet) :
    (ts.setLatch k).running = ts.running := rfl
@[simp] theorem TrackState.setLatch_frozen (k : Packet) :
    (ts.setLatch k).frozen = ts.frozen := rfl
@[simp] theorem TrackState.setLatch_wave (k : Packet) :
    (ts.setLatch k).wave = ts.wave := rfl
@[simp] theorem TrackState.setLatch_replyBit (k : Packet) :
    (ts.setLatch k).replyBit = ts.replyBit := rfl
@[simp] theorem TrackState.setLatch_replyByte (k : Packet) :
    (ts.setLatch k).replyByte = ts.replyByte := rfl
@[simp] theorem TrackState.setLatch_replyPacket (k : Packet) :
    (ts.setLatch k).replyPacket = ts.replyPacket := rfl

@[simp] theorem TrackState.emit_regs (l : Bool) (d : Duration) :
    (ts.emit l d).regs = ts.regs := rfl
@[simp] theorem TrackState.emit_maxLoaded (l : Bool) (d : Duration) :
    (ts.emit l d).maxLoaded = ts.maxLoaded := rfl
@[simp] theorem TrackState.emit_curReg (l : Bool) (d : Duration) :
    (ts.emit l d).curReg = ts.curReg := rfl
@[simp] theorem TrackState.emit_nextV (l : Bool) (d : Duration) :
    (ts.emit l d).nextV = ts.nextV := rfl
@[simp] theorem TrackState.emit_nextIdx (l : Bool) (d : Duration) :
    (ts.emit l d).nextIdx = ts.nextIdx := rfl
@[simp] theorem TrackState.emit_latch (l : Bool) (d : Duration) :
    (ts.emit l d).latch = ts.latch := rfl
@[simp] theorem TrackState.emit_bitPos (l : Bool) (d : Duration) :
    (ts.emit l d).bitPos = ts.bitPos := rfl
@[simp] theorem TrackState.emit_seq (l : Bool) (d : Duration) :
    (ts.emit l d).seq = ts.seq := rfl
@[simp] theorem TrackState.emit_seqActive (l : Bool) (d : Duration) :
    (ts.emit l d).seqActive = ts.seqActive := rfl
@[simp] theorem TrackState.emit_seqLen (l : Bool) (d : Duration) :
    (ts.emit l d).seqLen = ts.seqLen := rfl
@[simp] theorem TrackState.emit_seqCur (l : Bool) (d : Duration) :
    (ts.emit l d).seqCur = ts.seqCur := rfl
@[simp] theorem TrackState.emit_seqRetire (l : Bool) (d : Duration) :
    (ts.emit l d).seqRetire = ts.seqRetire := rfl
@[simp] theorem TrackState.emit_lastStatus (l : Bool) (d : Duration) :
    (ts.emit l d).lastStatus = ts.lastStatus := rfl
@[simp] theorem TrackState.emit_underrunFlag (l : Bool) (d : Duration) :
    (ts.emit l d).underrunFlag = ts.underrunFlag := rfl
@[simp] theorem TrackState.emit_mix (l : Bool) (d : Duration) :
    (ts.emit l d).mix = ts.mix := rfl
@[simp] theorem TrackState.emit_cfg (l : Bool) (d : Duration) :
    (ts.emit l d).cfg = ts.cfg := rfl
@[simp] theorem TrackState.emit_pin (l : Bool) (d : Duration) :
    (ts.emit l d).pin = ts.pin := rfl
@[simp] theorem TrackState.emit_tPhase (l : Bool) (d : Duration) :
    (ts.emit l d).tPhase = ts.tPhase := rfl
@[simp] theorem TrackState.emit_tBit (l : Bool) (d : Duration) :
    (ts.emit l d).tBit = ts.tBit := rfl
@[simp] theorem TrackState.emit_tA (l : Bool) (d : Duration) :
    (ts.emit l d).tA = ts.tA := rfl
@[simp] theorem TrackState.emit_tB (l : Bool) (d : Duration) :
    (ts.emit l d).tB = ts.tB := rfl
@[simp] theorem TrackState.emit_ring (l : Bool) (d : Duration) :
    (ts.emit l d).ring = ts.ring := rfl
@[simp] theorem TrackState.emit_rHead (l : Bool) (d : Duration) :
    (ts.emit l d).rHead = ts.rHead := rfl
@[simp] theorem TrackState.emit_rCount (l : Bool) (d : Duration) :
    (ts.emit l d).rCount = ts.rCount := rfl
@[simp] theorem TrackState.emit_refilling (l : Bool) (d : Duration) :
    (ts.emit l d).refilling = ts.refilling := rfl
@[simp] theorem TrackState.emit_running (l : Bool) (d : Duration) :
    (ts.emit l d).running = ts.running := rfl
@[simp] theorem TrackState.emit_frozen (l : Bool) (d : Duration) :
    (ts.emit l d).frozen = ts.frozen := rfl
@[simp] theorem TrackState.emit_wave (l : Bool) (d : Duration) :
    (ts.emit l d).wave = ts.wave ++ [{ level := l, dur := d }] := rfl
@[simp] theorem TrackState.emit_replyBit (l : Bool) (d : Duration) :
    (ts.emit l d).replyBit = ts.replyBit := rfl
@[simp] theorem TrackState.emit_replyByte (l : Bool) (d : Duration) :
    (ts.emit l d).replyByte = ts.replyByte := rfl
@[simp] theorem TrackState.emit_replyPacket (l : Bool) (d : Duration) :
    (ts.emit l d).replyPacket = ts.replyPacket := rfl

@[simp] theorem TrackState.push_regs (cap : Nat) (w : Word) :
    (TrackState.push cap ts w).regs = ts.regs := rfl
@[simp] theorem TrackState.push_maxLoaded (cap : Nat) (w : Word) :
    (TrackState.push cap ts w).maxLoaded = ts.maxLoaded := rfl
@[simp] theorem TrackState.push_curReg (cap : Nat) (w : Word) :
    (TrackState.push cap ts w).curReg = ts.curReg := rfl
@[simp] theorem TrackState.push_nextV (cap : Nat) (w : Word) :
    (TrackState.push cap ts w).nextV = ts.nextV := rfl
@[simp] theorem TrackState.push_nextIdx (cap : Nat) (w : Word) :
    (TrackState.push cap ts w).nextIdx = ts.nextIdx := rfl
@[simp] theorem TrackState.push_latch (cap : Nat) (w : Word) :
    (TrackState.push cap ts w).latch = ts.latch := rfl
@[simp] theorem TrackState.push_bitPos (cap : Nat) (w : Word) :
    (TrackState.push cap ts w).bitPos = ts.bitPos := rfl
@[simp] theorem TrackState.push_seq (cap : Nat) (w : Word) :
    (TrackState.push cap ts w).seq = ts.seq := rfl
@[simp] theorem TrackState.push_seqActive (cap : Nat) (w : Word) :
    (TrackState.push cap ts w).seqActive = ts.seqActive := rfl
@[simp] theorem TrackState.push_seqLen (cap : Nat) (w : Word) :
    (TrackState.push cap ts w).seqLen = ts.seqLen := rfl
@[simp] theorem TrackState.push_seqCur (cap : Nat) (w : Word) :
    (TrackState.push cap ts w).seqCur = ts.seqCur := rfl
@[simp] theorem TrackState.push_seqRetire (cap : Nat) (w : Word) :
    (TrackState.push cap ts w).seqRetire = ts.seqRetire := rfl
@[simp] theorem TrackState.push_lastStatus (cap : Nat) (w : Word) :
    (TrackState.push cap ts w).lastStatus = ts.lastStatus := rfl
@[simp] theorem TrackState.push_underrunFlag (cap : Nat) (w : Word) :
    (TrackState.push cap ts w).underrunFlag = ts.underrunFlag := rfl
@[simp] theorem TrackState.push_mix (cap : Nat) (w : Word) :
    (TrackState.push cap ts w).mix = ts.mix := rfl
@[simp] theorem TrackState.push_cfg (cap : Nat) (w : Word) :
    (TrackState.push cap ts w).cfg = ts.cfg := rfl
@[simp] theorem TrackState.push_pin (cap : Nat) (w : Word) :
    (TrackState.push cap ts w).pin = ts.pin := rfl
@[simp] theorem TrackState.push_tPhase (cap : Nat) (w : Word) :
    (TrackState.push cap ts w).tPhase = ts.tPhase := rfl
@[simp] theorem TrackState.push_tBit (cap : Nat) (w : Word) :
    (TrackState.push cap ts w).tBit = ts.tBit := rfl
@[simp] theorem TrackState.push_tA (cap : Nat) (w : Word) :
    (TrackState.push cap ts w).tA = ts.tA := rfl
@[simp] theorem TrackState.push_tB (cap : Nat) (w : Word) :
    (TrackState.push cap ts w).tB = ts.tB := rfl
@[simp] theorem TrackState.push_ring (cap : Nat) (w : Word) :
    (TrackState.push cap ts w).ring = ts.ring.set ((ts.rHead + ts.rCount) % cap) w := rfl
@[simp] theorem TrackState.push_rHead (cap : Nat) (w : Word) :
    (TrackState.push cap ts w).rHead = ts.rHead := rfl
@[simp] theorem TrackState.push_rCount (cap : Nat) (w : Word) :
    (TrackState.push cap ts w).rCount = ts.rCount + 1 := rfl
@[simp] theorem TrackState.push_refilling (cap : Nat) (w : Word) :
    (TrackState.push cap ts w).refilling = ts.refilling := rfl
@[simp] theorem TrackState.push_running (cap : Nat) (w : Word) :
    (TrackState.push cap ts w).running = ts.running := rfl
@[simp] theorem TrackState.push_frozen (cap : Nat) (w : Word) :
    (TrackState.push cap ts w).frozen = ts.frozen := rfl
@[simp] theorem TrackState.push_wave (cap : Nat) (w : Word) :
    (TrackState.push cap ts w).wave = ts.wave := rfl
@[simp] theorem TrackState.push_replyBit (cap : Nat) (w : Word) :
    (TrackState.push cap ts w).replyBit = ts.replyBit := rfl
@[simp] theorem TrackState.push_replyByte (cap : Nat) (w : Word) :
    (TrackState.push cap ts w).replyByte = ts.replyByte := rfl
@[simp] theorem TrackState.push_replyPacket (cap : Nat) (w : Word) :
    (TrackState.push cap ts w).replyPacket = ts.replyPacket := rfl

@[simp] theorem State.track_setTrack (u : TrackState) : (s.setTrack t u).track t = u := by cases t <;> rfl

@[simp] theorem State.track_setTrack_other (u : TrackState) : (s.setTrack t u).track t.other = s.track t.other := by
  cases t <;> rfl

theorem State.track_setTrack_of_ne {t t' : Track} (h : t' ≠ t) (u : TrackState) :
    (s.setTrack t u).track t' = s.track t' := by
  cases t <;> cases t' <;> first | rfl | exact absurd rfl h

theorem State.setTrack_track : s.setTrack t (s.track t) = s := by cases t <;> rfl

@[simp] theorem State.setTrack_setTrack (u v : TrackState) : (s.setTrack t u).setTrack t v = s.setTrack t v := by
  cases t <;> rfl

@[simp] theorem State.setTrack_params (u : TrackState) : (s.setTrack t u).params = s.params := by cases t <;> rfl
@[simp] theorem State.setTrack_cmdWords (u : TrackState) : (s.setTrack t u).cmdWords = s.cmdWords := by cases t <;> rfl
@[simp] theorem State.setTrack_waitHold (u : TrackState) : (s.setTrack t u).waitHold = s.waitHold := by cases t <;> rfl
@[simp] theorem State.setTrack_responses (u : TrackState) : (s.setTrack t u).responses = s.responses := by cases t <;> rfl
@[simp] theorem State.setTrack_pending (u : TrackState) : (s.setTrack t u).pending = s.pending := by cases t <;> rfl
@[simp] theorem State.setTrack_moveNo (u : TrackState) : (s.setTrack t u).moveNo = s.moveNo := by cases t <;> rfl

@[simp] theorem State.respond_params (w : Word) : (s.respond w).params = s.params := rfl
@[simp] theorem State.respond_main (w : Word) : (s.respond w).main = s.main := rfl
@[simp] theorem State.respond_prog (w : Word) : (s.respond w).prog = s.prog := rfl
@[simp] theorem State.respond_cmdWords (w : Word) : (s.respond w).cmdWords = s.cmdWords := rfl
@[simp] theorem State.respond_waitHold (w : Word) : (s.respond w).waitHold = s.waitHold := rfl
@[simp] theorem State.respond_responses (w : Word) : (s.respond w).responses = s.responses ++ [w] := rfl
@[simp] theorem State.respond_pending (w : Word) : (s.respond w).pending = s.pending := rfl
@[simp] theorem State.respond_moveNo (w : Word) : (s.respond w).moveNo = s.moveNo := rfl
@[simp] theorem State.respond_track (w : Word) : (s.respond w).track t = s.track t := by cases t <;> rfl

@[simp] theorem State.status_params (c : Status) : (s.status t c).params = s.params := by cases t <;> rfl
@[simp] theorem State.status_cmdWords (c : Status) : (s.status t c).cmdWords = s.cmdWords := by cases t <;> rfl
@[simp] theorem State.status_waitHold (c : Status) : (s.status t c).waitHold = s.waitHold := by cases t <;> rfl
@[simp] theorem State.status_responses (c : Status) : (s.status t c).responses = s.responses ++ [c.code.setWidth 32] := by cases t <;> rfl
@[simp] theorem State.status_pending (c : Status) : (s.status t c).pending = s.pending := by cases t <;> rfl
@[simp] theorem State.status_moveNo (c : Status) : (s.status t c).moveNo = s.moveNo := by cases t <;> rfl

@[simp] theorem State.status_track (c : Status) :
    (s.status t c).track t = { s.track t with lastStatus := c } := by cases t <;> rfl

@[simp] theorem State.status_track_other (c : Status) : (s.status t c).track t.other = s.track t.other := by
  cases t <;> rfl

theorem State.status_track_of_ne {t t' : Track} (h : t' ≠ t) (c : Status) :
    (s.status t c).track t' = s.track t' := by
  cases t <;> cases t' <;> first | rfl | exact absurd rfl h

@[simp] theorem State.track_with_cmdWords (v : List Word) : State.track { s with cmdWords := v } t = s.track t := by cases t <;> rfl
@[simp] theorem State.track_with_waitHold (v : Option WaitHold) : State.track { s with waitHold := v } t = s.track t := by cases t <;> rfl
@[simp] theorem State.track_with_pending (v : List Move) : State.track { s with pending := v } t = s.track t := by cases t <;> rfl
@[simp] theorem State.track_with_moveNo (v : Nat) : State.track { s with moveNo := v } t = s.track t := by cases t <;> rfl
@[simp] theorem State.track_with_responses (v : List Word) : State.track { s with responses := v } t = s.track t := by cases t <;> rfl

end Sys2Proof.Machine
end

