-- ==== Sys2Proof/Laws/Advance.lean ====
section
/-! SUPPORT. Reading and writing the register file and the sequence buffer; what the advance decision can do, what it
leaves, and that it keeps the invariant (42 R141, R142, 10_state R48). -/

namespace Sys2Proof

@[simp] theorem Register.load_act (g : Register) (k : Packet) : (g.load k).act = g.act := by
  unfold Register.load; split <;> rfl

@[simp] theorem Register.load_pend (g : Register) (k : Packet) : (g.load k).pend = true := by
  unfold Register.load; split <;> rfl

@[simp] theorem Register.load_active (g : Register) (k : Packet) : (g.load k).active = g.active := by
  unfold Register.load Register.active; cases g.act <;> simp

@[simp] theorem Register.load_inactive (g : Register) (k : Packet) : (g.load k).inactive = k := by
  unfold Register.load Register.inactive; cases g.act <;> simp

@[simp] theorem Register.swap_pend (g : Register) : g.swap.pend = false := by
  unfold Register.swap; split <;> simp_all

theorem Register.swap_of_pend {g : Register} (h : g.pend = true) : g.swap.active = g.inactive := by
  unfold Register.swap Register.active Register.inactive; cases g.act <;> simp [h]

theorem Register.swap_of_not_pend {g : Register} (h : g.pend = false) : g.swap = g := by
  unfold Register.swap; simp [h]

@[simp] theorem Register.swap_swap (g : Register) : g.swap.swap = g.swap :=
  Register.swap_of_not_pend g.swap_pend

@[simp] theorem Register.setActiveRep_act (g : Register) (v : BitVec 8) : (g.setActiveRep v).act = g.act := by
  unfold Register.setActiveRep; split <;> rfl

@[simp] theorem Register.setActiveRep_pend (g : Register) (v : BitVec 8) : (g.setActiveRep v).pend = g.pend := by
  unfold Register.setActiveRep; split <;> rfl

@[simp] theorem Register.setActiveRep_active (g : Register) (v : BitVec 8) :
    (g.setActiveRep v).active = { g.active with rep := v } := by
  unfold Register.setActiveRep Register.active; cases g.act <;> simp

@[simp] theorem Register.setActiveRep_inactive (g : Register) (v : BitVec 8) :
    (g.setActiveRep v).inactive = g.inactive := by
  unfold Register.setActiveRep Register.inactive; cases g.act <;> simp

namespace Machine

theorem LegalRegister.active {g : Register} (h : LegalRegister g) : g.active.Legal := by
  unfold Register.active; split; exacts [h.2, h.1]

theorem LegalRegister.load {g : Register} (h : LegalRegister g) {k : Packet} (hk : k.Legal) :
    LegalRegister (g.load k) := by
  unfold Register.load; split; exacts [⟨hk, h.2⟩, ⟨h.1, hk⟩]

theorem LegalRegister.swap {g : Register} (h : LegalRegister g) : LegalRegister g.swap := by
  unfold Register.swap; split <;> exact h

theorem LegalRegister.setActiveRep {g : Register} (h : LegalRegister g) (v : BitVec 8) :
    LegalRegister (g.setActiveRep v) := by
  unfold Register.setActiveRep; split <;> exact h

namespace TrackState

variable {ts : TrackState}

/-- A register is read from the register file alone. -/
theorem register_congr {a b : TrackState} (h : a.regs = b.regs) (r : BitVec 7) : a.register r = b.register r := by
  unfold register; rw [h]

/-- An entry is read from the sequence buffer alone. -/
theorem entry_congr {a b : TrackState} (h : a.seq = b.seq) (i : BitVec 7) : a.entry i = b.entry i := by
  unfold entry; rw [h]

theorem register_setRegister_self {r : BitVec 7} (h : r.toNat < ts.regs.length) (g : Register) :
    (ts.setRegister r g).register r = g := by
  simp [register, setRegister, h]

theorem register_setRegister_of_ne {r q : BitVec 7} (h : q ≠ r) (g : Register) :
    (ts.setRegister r g).register q = ts.register q := by
  have : r.toNat ≠ q.toNat := fun e => h (BitVec.eq_of_toNat_eq e.symm)
  simp [register, setRegister, this]

theorem register_mem {r : BitVec 7} (h : r.toNat < ts.regs.length) : ts.register r ∈ ts.regs := by
  simp [register, h]

theorem entry_mem {i : BitVec 7} (h : i.toNat < ts.seq.length) : ts.entry i ∈ ts.seq := by
  simp [entry, h]

theorem entry_setEntry_self {i : BitVec 7} (h : i.toNat < ts.seq.length) (k : Packet) :
    (ts.setEntry i k).entry i = k := by
  simp [entry, setEntry, h]

theorem entry_setEntry_of_ne {i j : BitVec 7} (h : j ≠ i) (k : Packet) :
    (ts.setEntry i k).entry j = ts.entry j := by
  have : i.toNat ≠ j.toNat := fun e => h (BitVec.eq_of_toNat_eq e.symm)
  simp [entry, setEntry, this]

/-- Part (a) of AD does nothing unless an entry is to be retired. -/
theorem retire_of_not (h : ts.seqRetire = false) : ts.retire = ts := by
  simp [retire, h]

/-- The advance decision is one of sending an entry, repeating register 0 and rotating, on the state part (a) leaves:
the first whose condition holds (42 R141). -/
theorem advance_cases (ts : TrackState) :
    (ts.retire.seqActive = true ∧ ts.advance = ts.retire.sendEntry) ∨
    (ts.retire.seqActive = false ∧ ts.curReg = 0 ∧ 0 < (ts.register 0).active.rep ∧
      ts.advance = ts.retire.repeatOneShot) ∨
    (ts.retire.seqActive = false ∧ ¬(ts.curReg = 0 ∧ 0 < (ts.register 0).active.rep) ∧
      ts.advance = ts.retire.rotate) := by
  have hc : ts.retire.curReg = ts.curReg := by unfold retire; split <;> rfl
  have hr : ts.retire.register 0 = ts.register 0 := by unfold retire; split <;> rfl
  unfold advance
  simp only [hc, hr]
  by_cases ha : ts.retire.seqActive = true
  · exact .inl ⟨ha, if_pos ha⟩
  · by_cases hb : ts.curReg = 0 ∧ 0 < (ts.register 0).active.rep
    · exact .inr (.inl ⟨by simpa using ha, hb.1, hb.2, by rw [if_neg ha, if_pos hb]⟩)
    · exact .inr (.inr ⟨by simpa using ha, hb, by rw [if_neg ha, if_neg hb]⟩)

/-- The state of the rotator of `r` on the driver of `d`: the fields an advance decision or a pull may read or write are
those of `r`, all others those of `d`. -/
def graft (r d : TrackState) : TrackState :=
  { d with
    regs := r.regs
    maxLoaded := r.maxLoaded
    curReg := r.curReg
    nextV := r.nextV
    nextIdx := r.nextIdx
    latch := r.latch
    bitPos := r.bitPos
    seq := r.seq
    seqActive := r.seqActive
    seqLen := r.seqLen
    seqCur := r.seqCur
    seqRetire := r.seqRetire
    mix := r.mix }

@[simp] theorem graft_self (r : TrackState) : r.graft r = r := rfl

theorem retire_graft (r d : TrackState) : (r.graft d).retire = r.retire.graft d := by
  unfold retire
  have h : (r.graft d).seqRetire = r.seqRetire := rfl
  rw [h]
  cases r.seqRetire <;> rfl

theorem sendEntry_graft (r d : TrackState) : (r.graft d).sendEntry = r.sendEntry.graft d := by
  unfold sendEntry
  have h : (r.graft d).entry (r.graft d).seqCur = r.entry r.seqCur := rfl
  simp only [h]
  split_ifs <;> rfl

theorem repeatOneShot_graft (r d : TrackState) : (r.graft d).repeatOneShot = r.repeatOneShot.graft d := rfl

theorem rotate_graft (r d : TrackState) : (r.graft d).rotate = r.rotate.graft d := rfl

/-- An advance decision neither reads nor writes the driver's fields. -/
theorem advance_graft (r d : TrackState) : (r.graft d).advance = r.advance.graft d := by
  unfold advance
  simp only [retire_graft]
  have h1 : (r.retire.graft d).seqActive = r.retire.seqActive := rfl
  have h2 : (r.retire.graft d).curReg = r.retire.curReg := rfl
  have h3 : (r.retire.graft d).register 0 = r.retire.register 0 := rfl
  rw [h1, h2, h3]
  split_ifs
  · exact sendEntry_graft _ _
  · exact repeatOneShot_graft _ _
  · exact rotate_graft _ _

/-- What an advance decision leaves: it writes the register file, the cursor, the pending flag `nextV`, the latch, the bit
position and the sequence fields, and nothing else (42 R141, R142). -/
theorem advance_frame (ts : TrackState) :
    ts.advance =
      { ts with
        regs := ts.advance.regs
        curReg := ts.advance.curReg
        nextV := ts.advance.nextV
        latch := ts.advance.latch
        bitPos := ts.advance.bitPos
        seq := ts.advance.seq
        seqActive := ts.advance.seqActive
        seqLen := ts.advance.seqLen
        seqCur := ts.advance.seqCur
        seqRetire := ts.advance.seqRetire } := by
  have hr : ts.retire =
      { ts with seqActive := ts.retire.seqActive, seqLen := ts.retire.seqLen, seqCur := ts.retire.seqCur,
                seqRetire := ts.retire.seqRetire } := by
    unfold retire; split <;> rfl
  rcases advance_cases ts with ⟨-, h⟩ | ⟨-, -, -, h⟩ | ⟨-, -, h⟩ <;> rw [h, hr]
  · unfold sendEntry; simp only []; split <;> rfl
  · rfl
  · rfl

/-- An advance decision sets the bit position to 0 (42 R146). -/
@[simp] theorem advance_bitPos (ts : TrackState) : ts.advance.bitPos = 0 := by
  rcases advance_cases ts with ⟨-, h⟩ | ⟨-, -, -, h⟩ | ⟨-, -, h⟩ <;> rw [h]
  · unfold sendEntry; simp only []; split <;> rfl
  · rfl
  · rfl

/-- What TAKE leaves in the register taken: the swap done, and for register 0 one repeat consumed (42 R142). -/
theorem take_register_self {r : BitVec 7} (hr : r.toNat < ts.regs.length) :
    (ts.take r).register r =
      if r = 0 then (ts.register r).swap.setActiveRep (satdec8 (ts.register r).swap.active.rep)
      else (ts.register r).swap := by
  unfold take; simp only []
  rw [register_congr (setLatch_regs _ _), register_setRegister_self hr]

/-- TAKE changes no other register (42 R142). -/
theorem take_register_of_ne {r q : BitVec 7} (h : q ≠ r) : (ts.take r).register q = ts.register q := by
  unfold take; simp only []
  rw [register_congr (setLatch_regs _ _), register_setRegister_of_ne h]

/-- TAKE copies the register's packet, after the swap, to the latch (42 R142). -/
theorem take_latch (r : BitVec 7) : (ts.take r).latch = (ts.register r).swap.active.latch := rfl

theorem take_pend {r : BitVec 7} (hr : r.toNat < ts.regs.length) (q : BitVec 7) :
    ((ts.take r).register q).pend = if q = r then false else (ts.register q).pend := by
  by_cases h : q = r
  · rw [h, take_register_self hr]; split <;> simp
  · rw [take_register_of_ne h, if_neg h]

theorem repeatOneShot_register_self (hr : (0 : BitVec 7).toNat < ts.regs.length) :
    ts.repeatOneShot.register 0 = (ts.register 0).setActiveRep ((ts.register 0).active.rep - 1) := by
  unfold repeatOneShot; simp only []
  rw [register_congr (setLatch_regs _ _), register_setRegister_self hr]

theorem repeatOneShot_register_of_ne {q : BitVec 7} (h : q ≠ 0) :
    ts.repeatOneShot.register q = ts.register q := by
  unfold repeatOneShot; simp only []
  rw [register_congr (setLatch_regs _ _), register_setRegister_of_ne h]

theorem take_legal {r : BitVec 7} (hr : r.toNat < ts.regs.length) (h : ∀ g ∈ ts.regs, LegalRegister g) :
    (∀ g ∈ (ts.take r).regs, LegalRegister g) ∧ (ts.register r).swap.active.Legal := by
  have hm := h _ (register_mem hr)
  refine ⟨?_, hm.swap.active⟩
  intro g hg
  rcases List.mem_or_eq_of_mem_set hg with hg | hg
  · exact h g hg
  · rw [hg]; split
    · exact hm.swap.setActiveRep _
    · exact hm.swap

end TrackState

end Machine

end Sys2Proof
end

