-- ==== Sys2Proof/Laws/Invariant.lean ====
section
/-! SUPPORT. The advance decision and the pulls keep the invariant of a track (10_state R48). -/

namespace Sys2Proof.Machine

open TrackState
variable {p : Params} {t : Track} {ts : TrackState}

theorem nreg_range (hp : p.Legal) (t) : 2 ≤ p.nreg t ∧ p.nreg t ≤ 128 := by
  cases t <;> simp [Params.nreg, Config.nProg, hp.nMain.1, hp.nMain.2]

theorem TrackState.Inv.reg0 (h : ts.Inv p t) : (0 : BitVec 7).toNat < ts.regs.length := by
  have := h.markRange; have := h.regsSize; simp; omega

/-- Below entry 127 the cursor moves to the next entry (42 R141). -/
theorem TrackState.nextCursor_toNat (h : ts.seqCur.toNat < 127) : ts.nextCursor.toNat = ts.seqCur.toNat + 1 := by
  have hne : ts.seqCur ≠ 127 := fun e => by rw [e] at h; simp at h
  unfold nextCursor
  rw [if_neg hne, BitVec.toNat_add]; simp; omega

theorem TrackState.Inv.retire (hp : p.Legal) (h : ts.Inv p t) : ts.retire.Inv p t := by
  unfold TrackState.retire
  split
  · next hr =>
    have ha := h.retireActive hr
    have hl := h.activeLen.1 ha
    have hf := h.seqFits ha
    have hc := hp.seqCap
    have hs : (ts.seqLen - 1).toNat = ts.seqLen.toNat - 1 := by
      rw [BitVec.toNat_sub_of_le (by simpa [BitVec.le_def] using hl)]; simp
    exact { h with
      activeLen := by
        split_ifs with h0
        · rw [h0]; simp
        · simp only [ha, true_iff]
          rcases Nat.eq_zero_or_pos (ts.seqLen - 1).toNat with e | e
          · exact absurd (BitVec.eq_of_toNat_eq e) h0
          · exact e
      retireActive := by simp
      seqFits := by
        split_ifs with h0
        · simp
        · intro _
          have : (ts.seqLen - 1).toNat ≠ 0 := fun e => h0 (BitVec.eq_of_toNat_eq e)
          rw [hs] at this ⊢
          have := nextCursor_toNat (ts := ts) (by omega)
          show ts.nextCursor.toNat + _ ≤ _
          omega }
  · exact h

theorem TrackState.Inv.sendEntry (h : ts.Inv p t) (ha : ts.seqActive = true) :
    ts.sendEntry.Inv p t ∧ 1 ≤ ts.sendEntry.latch.nbits.toNat := by
  have hf := h.seqFits ha
  have hl := h.activeLen.1 ha
  have hs := h.seqSize
  have hm := h.seqLegal _ (entry_mem (ts := ts) (i := ts.seqCur) (by omega))
  have key : ((ts.setLatch (ts.entry ts.seqCur)).setEntry ts.seqCur { ts.entry ts.seqCur with rep := satdec8 (ts.entry ts.seqCur).rep }).Inv p t :=
    { h with
      seqSize := by simp [h.seqSize]
      seqLegal := by
        intro e he
        rcases List.mem_or_eq_of_mem_set he with he | he
        · exact h.seqLegal e he
        · rw [he]; exact hm
      latchSize := hm.2
      bitPosRange := by simp }
  unfold TrackState.sendEntry
  simp only []
  split
  · exact ⟨{ key with retireActive := fun _ => ha }, hm.1⟩
  · exact ⟨key, hm.1⟩

theorem TrackState.Inv.repeatOneShot (h : ts.Inv p t) :
    ts.repeatOneShot.Inv p t ∧ 1 ≤ ts.repeatOneShot.latch.nbits.toNat := by
  have h0 := h.reg0
  have hm := h.regsLegal _ (register_mem h0)
  have hz : ∀ q : BitVec 7, (ts.repeatOneShot.register q).pend = (ts.register q).pend := by
    intro q
    by_cases hq : q = 0
    · rw [hq, repeatOneShot_register_self h0]; simp
    · rw [repeatOneShot_register_of_ne hq]
  exact ⟨{ h with
    regsSize := by simp [TrackState.repeatOneShot, h.regsSize]
    regsLegal := by
      intro g hg
      rcases List.mem_or_eq_of_mem_set hg with hg | hg
      · exact h.regsLegal g hg
      · rw [hg]; exact hm.setActiveRep _
    nextPending := fun hv => by rw [hz]; exact h.nextPending hv
    zeroPending := by rw [hz]; exact h.zeroPending
    latchSize := hm.active.2
    bitPosRange := by simp [TrackState.repeatOneShot] }, hm.active.1⟩

/-- The register steps 3 and 4 choose is at most the high-water mark. -/
theorem TrackState.Inv.nextRegister_le (hp : p.Legal) (h : ts.Inv p t) : ts.nextRegister.toNat ≤ ts.maxLoaded.toNat := by
  have hm := h.markRange
  have hn := nreg_range hp t
  unfold TrackState.nextRegister
  split_ifs with h1 h2
  · exact (h.nextPending h1).1
  · exact hm.1
  · have : ts.curReg.toNat < ts.maxLoaded.toNat := by simpa [BitVec.le_def] using h2
    rw [BitVec.toNat_add]; simp; omega

/-- Round robin never enters register 0 (42 R144). -/
theorem TrackState.Inv.nextRegister_ne_zero (hp : p.Legal) (h : ts.Inv p t) (hv : ts.nextV = false) : ts.nextRegister ≠ 0 := by
  have hm := h.markRange
  have hn := nreg_range hp t
  unfold TrackState.nextRegister
  rw [if_neg (by simp [hv])]
  split_ifs with h2
  · decide
  · have : ts.curReg.toNat < ts.maxLoaded.toNat := by simpa [BitVec.le_def] using h2
    intro e
    have := congrArg BitVec.toNat e
    rw [BitVec.toNat_add] at this; simp at this; omega

theorem TrackState.Inv.rotate (hp : p.Legal) (h : ts.Inv p t) :
    ts.rotate.Inv p t ∧ 1 ≤ ts.rotate.latch.nbits.toNat := by
  have hle := h.nextRegister_le hp
  have hm := h.markRange
  have hr : ts.nextRegister.toNat < ts.regs.length := by rw [h.regsSize]; omega
  obtain ⟨hl, ha⟩ := take_legal (ts := { ts with nextV := false, curReg := ts.nextRegister }) hr h.regsLegal
  refine ⟨{ h with
    regsSize := by simp [TrackState.rotate, TrackState.take, h.regsSize]
    regsLegal := hl
    curRange := hle
    nextPending := fun hv => by simp [TrackState.rotate, TrackState.take] at hv
    zeroPending := ?_
    latchSize := ha.2
    bitPosRange := by simp [TrackState.rotate, TrackState.take] }, ha.1⟩
  have e : (ts.rotate.register 0).pend = if 0 = ts.nextRegister then false else (ts.register 0).pend :=
    take_pend (ts := { ts with nextV := false, curReg := ts.nextRegister }) hr 0
  have hv : ts.rotate.nextV = false := rfl
  rw [e, hv]
  split_ifs with h0
  · simp
  · simp only [false_and, iff_false]
    intro hp0
    have := h.zeroPending.1 hp0
    apply h0
    simp [TrackState.nextRegister, this.1, this.2]

/-- The advance decision keeps the invariant, and always ends with a bit to send (42 R146). -/
theorem TrackState.Inv.advance (hp : p.Legal) (h : ts.Inv p t) :
    ts.advance.Inv p t ∧ 1 ≤ ts.advance.latch.nbits.toNat := by
  have h' := h.retire hp
  rcases advance_cases ts with ⟨ha, e⟩ | ⟨-, -, -, e⟩ | ⟨-, -, e⟩ <;> rw [e]
  · exact h'.sendEntry ha
  · exact h'.repeatOneShot
  · exact h'.rotate hp

end Sys2Proof.Machine
end

