-- ==== Sys2Proof/Laws/Pull.lean ====
section
/-! SUPPORT. The pulls (42 R150 to R153): they keep the invariant, leave the driver's fields alone, and compose. -/

namespace Sys2Proof.Machine

open TrackState
variable {p : Params} {t : Track} {ts : TrackState}

theorem TrackState.Inv.boundary (hp : p.Legal) (h : ts.Inv p t) :
    ts.boundary.Inv p t ∧ ts.boundary.bitPos.toNat < ts.boundary.latch.nbits.toNat := by
  unfold TrackState.boundary
  split_ifs with hb
  · obtain ⟨ha, h1⟩ := h.advance hp
    exact ⟨ha, by simp; omega⟩
  · have hne : ts.bitPos.toNat ≠ ts.latch.nbits.toNat := fun e => hb (BitVec.eq_of_toNat_eq e)
    exact ⟨h, lt_of_le_of_ne h.bitPosRange hne⟩

theorem TrackState.Inv.nextBit (hp : p.Legal) (h : ts.Inv p t) : ts.nextBit.2.Inv p t := by
  obtain ⟨hb, hlt⟩ := h.boundary hp
  have := hb.latchSize
  exact { hb with
    bitPosRange := by
      show (ts.boundary.bitPos + 1).toNat ≤ ts.boundary.latch.nbits.toNat
      rw [BitVec.toNat_add]; simp; omega }

theorem TrackState.Inv.nextBits (hp : p.Legal) (n : Nat) : ∀ {ts : TrackState}, ts.Inv p t → (ts.nextBits n).2.Inv p t := by
  induction n with
  | zero => intro ts h; exact h
  | succ n ih => intro ts h; exact ih (h.nextBit hp)

theorem TrackState.Inv.discard (h : ts.Inv p t) : ts.discard.Inv p t := by
  unfold TrackState.discard
  split
  · exact { h with }
  · exact h

theorem TrackState.Inv.nextPacket (hp : p.Legal) (h : ts.Inv p t) :
    ts.nextPacket.2.Inv p t ∧ 1 ≤ ts.nextPacket.1.nbits.toNat ∧ ts.nextPacket.1.nbits.toNat ≤ 80 := by
  obtain ⟨ha, h1⟩ := h.discard.advance hp
  exact ⟨{ ha with bitPosRange := le_refl _ }, h1, ha.latchSize⟩

theorem TrackState.boundary_graft (r d : TrackState) : (r.graft d).boundary = r.boundary.graft d := by
  unfold boundary
  have h1 : (r.graft d).bitPos = r.bitPos := rfl
  have h2 : (r.graft d).latch = r.latch := rfl
  rw [h1, h2]
  split_ifs
  · exact advance_graft r d
  · rfl

theorem TrackState.discard_graft (r d : TrackState) : (r.graft d).discard = r.discard.graft d := by
  unfold discard
  have h1 : (r.graft d).bitPos = r.bitPos := rfl
  have h2 : (r.graft d).latch = r.latch := rfl
  rw [h1, h2]
  split_ifs <;> rfl

theorem TrackState.nextBit_graft (r d : TrackState) : (r.graft d).nextBit = (r.nextBit.1, r.nextBit.2.graft d) := by
  unfold nextBit; rw [boundary_graft]; rfl

theorem TrackState.nextBits_graft (n : Nat) : ∀ r d : TrackState, (r.graft d).nextBits n = ((r.nextBits n).1, (r.nextBits n).2.graft d) := by
  induction n with
  | zero => intro r d; rfl
  | succ n ih => intro r d; simp only [nextBits, nextBit_graft, ih]

theorem TrackState.nextPacket_graft (r d : TrackState) :
    (r.graft d).nextPacket = (r.nextPacket.1, r.nextPacket.2.graft d) := by
  unfold nextPacket; rw [discard_graft, advance_graft]; rfl

/-- A pull leaves the driver's fields as they are. -/
theorem TrackState.nextBit_driver (ts : TrackState) : ts.nextBit.2.graft ts = ts.nextBit.2 := by
  have := TrackState.nextBit_graft ts ts
  simp only [graft_self] at this
  exact (congrArg Prod.snd this).symm

theorem TrackState.nextBits_driver (n : Nat) (ts : TrackState) : (ts.nextBits n).2.graft ts = (ts.nextBits n).2 := by
  have := TrackState.nextBits_graft n ts ts
  simp only [graft_self] at this
  exact (congrArg Prod.snd this).symm

theorem TrackState.nextPacket_driver (ts : TrackState) : ts.nextPacket.2.graft ts = ts.nextPacket.2 := by
  have := TrackState.nextPacket_graft ts ts
  simp only [graft_self] at this
  exact (congrArg Prod.snd this).symm

theorem TrackState.nextBits_length (n : Nat) : ∀ ts : TrackState, (ts.nextBits n).1.length = n := by
  induction n with
  | zero => intro ts; rfl
  | succ n ih => intro ts; simp [nextBits, ih]

theorem TrackState.nextBits_add (m n : Nat) : ∀ ts : TrackState, ts.nextBits (m + n) =
   ((ts.nextBits m).1 ++ ((ts.nextBits m).2.nextBits n).1, ((ts.nextBits m).2.nextBits n).2) := by
  induction m with
  | zero => intro ts; simp [nextBits]
  | succ m ih => intro ts; rw [Nat.succ_add]; simp [nextBits, ih]

/-- The byte of eight bits has the first bit in bit 7 (42 R151). -/
theorem byteOfBits_bits (b7 b6 b5 b4 b3 b2 b1 b0 : Bool) :
   [7,6,5,4,3,2,1,0].map (fun j => (byteOfBits [b7,b6,b5,b4,b3,b2,b1,b0]).getLsbD j) = [b7,b6,b5,b4,b3,b2,b1,b0] := by
  revert b7 b6 b5 b4 b3 b2 b1 b0; decide

theorem byteOfBits_bits' (l : List Bool) (h : l.length = 8) :
   [7,6,5,4,3,2,1,0].map (fun j => (byteOfBits l).getLsbD j) = l := by
  match l, h with
  | [b7,b6,b5,b4,b3,b2,b1,b0], _ => exact byteOfBits_bits _ _ _ _ _ _ _ _

/-- A track with other values on the reply lines of its pull port (30_encoding R96). -/
def TrackState.withReply (b : Bool) (v : Byte) (k : Latch) (ts : TrackState) : TrackState :=
  { ts with replyBit := b, replyByte := v, replyPacket := k }

/-- The pull of one refill unit without its reply: the bits in order, and the track after the pull (43 R182). -/
def TrackState.pullUnit (ts : TrackState) : List Bool × TrackState :=
  match ts.cfg.gran with
  | .bit => let r := ts.nextBit; ([r.1], r.2)
  | .byte => let r := ts.nextByte; ([7, 6, 5, 4, 3, 2, 1, 0].map (fun j => r.1.getLsbD j), r.2)
  | .packet => let r := ts.nextPacket; ((List.range r.1.nbits.toNat).map (pbit r.1.buf), r.2)

/-- The bits a refill pushes are at most a unit (43 R182). -/
theorem TrackState.Inv.pullUnit (hp : p.Legal) (h : ts.Inv p t) : ts.pullUnit.2.Inv p t ∧ ts.pullUnit.1.length ≤ ts.cfg.gran.unit := by
  unfold TrackState.pullUnit
  cases ts.cfg.gran with
  | bit => exact ⟨h.nextBit hp, by simp [Gran.unit]⟩
  | byte => exact ⟨h.nextBits hp 8, by simp [Gran.unit]⟩
  | packet => exact ⟨(h.nextPacket hp).1, by simpa [Gran.unit, Config.maxBits] using (h.nextPacket hp).2.2⟩

theorem TrackState.pullUnit_driver (ts : TrackState) : ts.pullUnit.2.graft ts = ts.pullUnit.2 := by
  unfold TrackState.pullUnit
  cases ts.cfg.gran with
  | bit => exact nextBit_driver ts
  | byte => exact nextBits_driver 8 ts
  | packet => exact nextPacket_driver ts

/-- A bit pulled inside a packet is the latch's bit at the position, and only the position moves (42 R150). -/
theorem TrackState.nextBit_within (h : ts.bitPos ≠ ts.latch.nbits) :
    ts.nextBit = (pbit ts.latch.buf ts.bitPos.toNat, { ts with bitPos := ts.bitPos + 1 }) := by
  unfold nextBit boundary; rw [if_neg h]

/-- A bit pulled from an exhausted packet is bit 0 of the packet the advance decision chose (42 R150). -/
theorem TrackState.nextBit_boundary (h : ts.bitPos = ts.latch.nbits) :
    ts.nextBit = (pbit ts.advance.latch.buf 0, { ts.advance with bitPos := 1 }) := by
  unfold nextBit boundary; rw [if_pos h]; simp

/-- Bits pulled inside a packet (42 R150). -/
theorem TrackState.nextBits_within (k : Nat) : ∀ {ts : TrackState}, ts.bitPos.toNat + k ≤ ts.latch.nbits.toNat →
    ts.nextBits k = ((List.range k).map (fun i => pbit ts.latch.buf (ts.bitPos.toNat + i)),
      { ts with bitPos := ts.bitPos + BitVec.ofNat 7 k }) := by
  induction k with
  | zero => intro ts _; simp [nextBits]
  | succ k ih =>
    intro ts h
    have hlt := ts.latch.nbits.isLt
    have hne : ts.bitPos ≠ ts.latch.nbits := fun e => by rw [e] at h; omega
    have e1 : (ts.bitPos + 1).toNat = ts.bitPos.toNat + 1 := by
      rw [BitVec.toNat_add]; simp; omega
    unfold nextBits
    rw [nextBit_within hne]
    simp only []
    rw [ih (ts := { ts with bitPos := ts.bitPos + 1 }) (by show (ts.bitPos + 1).toNat + k ≤ _; rw [e1]; simp only []; omega)]
    simp only [e1]
    rw [List.range_succ_eq_map, List.map_cons, List.map_map]
    have e2 : ts.bitPos + 1 + BitVec.ofNat 7 k = ts.bitPos + BitVec.ofNat 7 (k + 1) := by
      rw [BitVec.add_assoc]; congr 1
      apply BitVec.eq_of_toNat_eq; rw [BitVec.toNat_add]; simp; omega
    rw [e2]
    congr 1
    · congr 1
      apply List.map_congr_left; intro i _; simp only [Function.comp]; congr 1; omega

/-- A NEXTPACKET from an exhausted packet gives the bits, and leaves the track, that as many NEXTBITs do (42 R153). -/
theorem TrackState.nextPacket_eq_nextBits (h : ts.bitPos = ts.latch.nbits) (h1 : 1 ≤ ts.advance.latch.nbits.toNat) :
    ts.nextBits ts.nextPacket.1.nbits.toNat =
      ((List.range ts.nextPacket.1.nbits.toNat).map (pbit ts.nextPacket.1.buf), ts.nextPacket.2) := by
  have hd : ts.discard = ts := by unfold discard; rw [h]; simp
  unfold nextPacket
  simp only [hd]
  have hlt := ts.advance.latch.nbits.isLt
  obtain ⟨n, hn⟩ : ∃ n, ts.advance.latch.nbits.toNat = n + 1 := ⟨ts.advance.latch.nbits.toNat - 1, by omega⟩
  rw [hn]
  unfold nextBits
  rw [nextBit_boundary h]
  simp only []
  rw [nextBits_within n (ts := { ts.advance with bitPos := 1 }) (by simp only []; rw [hn]; simp; omega)]
  rw [List.range_succ_eq_map, List.map_cons, List.map_map]
  have e : (1 : BitVec 7) + BitVec.ofNat 7 n = ts.advance.latch.nbits := by
    apply BitVec.eq_of_toNat_eq; rw [hn, BitVec.toNat_add]; simp; omega
  simp only [e]
  congr 2
  apply List.map_congr_left; intro i _; simp only [Function.comp]; congr 1; simp; omega

/-- The pull of one refill unit is some number of NEXTBITs; with granularity PACKET, from an exhausted packet. -/
theorem TrackState.pullUnit_eq_nextBits (hp : p.Legal) (hI : ts.Inv p t)
    (h : ts.cfg.gran = .packet → ts.bitPos = ts.latch.nbits) :
    ts.pullUnit = ts.nextBits ts.pullUnit.1.length ∧ (ts.cfg.gran = .packet → ts.pullUnit.2.bitPos = ts.pullUnit.2.latch.nbits) := by
  unfold pullUnit
  cases hg : ts.cfg.gran with
  | bit => exact ⟨rfl, by simp⟩
  | byte =>
    refine ⟨?_, by simp⟩
    simp only [List.length_map, List.length_cons, List.length_nil]
    unfold nextByte
    simp only []
    rw [byteOfBits_bits' _ (nextBits_length 8 ts)]
  | packet =>
    simp only [List.length_map, List.length_range]
    rw [nextPacket_eq_nextBits (h hg) (hI.advance hp).2]
    exact ⟨rfl, fun _ => rfl⟩
end Sys2Proof.Machine
end

