-- ==== Sys2Proof/Laws/Commands.lean ====
section
/-! SUPPORT. What LOAD writes in its track (40 R110 to R113), and that the commands' updates keep the invariant. -/

namespace Sys2Proof.Machine

open TrackState
variable {p : Params} {t : Track} {ts : TrackState}

theorem badLength_false {n : BitVec 7} (h : badLength n = false) : 1 ≤ n.toNat ∧ n.toNat ≤ 80 := by
  simp [badLength] at h
  refine ⟨?_, h.2⟩
  rcases Nat.eq_zero_or_pos n.toNat with e | e
  · exact absurd (BitVec.eq_of_toNat_eq e) h.1
  · exact e

theorem TrackState.loadRegister_register_self {r : BitVec 7} (hr : r.toNat < ts.regs.length) (k : Packet) :
    (ts.loadRegister r k).register r = (ts.register r).load k := by
  have : (ts.loadRegister r k).regs = (ts.setRegister r ((ts.register r).load k)).regs := by
    unfold loadRegister raiseMark requestSwap; split_ifs <;> rfl
  rw [register_congr this, register_setRegister_self hr]

theorem TrackState.loadRegister_register_of_ne {r q : BitVec 7} (h : q ≠ r) (k : Packet) :
    (ts.loadRegister r k).register q = ts.register q := by
  have : (ts.loadRegister r k).regs = (ts.setRegister r ((ts.register r).load k)).regs := by
    unfold loadRegister raiseMark requestSwap; split_ifs <;> rfl
  rw [register_congr this, register_setRegister_of_ne h]

/-- The request after a LOAD, in one form for both cases (40 R110, R111). -/
theorem TrackState.requestSwap_eq (ts : TrackState) (r : BitVec 7) :
    ts.requestSwap r =
      { ts with nextV := true, nextIdx := if ts.nextV = true ∧ ts.nextIdx = 0 ∧ r ≠ 0 then 0 else r } := by
  unfold requestSwap
  split_ifs with hc
  · obtain ⟨a, b, -⟩ := hc
    cases ts; simp_all
  · rfl

/-- The high-water mark after a LOAD, in one form for both cases (40 R113). -/
theorem TrackState.raiseMark_eq (ts : TrackState) (r : BitVec 7) :
    ts.raiseMark r = { ts with maxLoaded := if ts.maxLoaded < r then r else ts.maxLoaded } := by
  unfold raiseMark
  by_cases hr : r = 0
  · subst hr; simp
  · have h1 : (1 : BitVec 7) ≤ r := by
      rcases Nat.eq_zero_or_pos r.toNat with e | e
      · exact absurd (BitVec.eq_of_toNat_eq e) hr
      · exact BitVec.le_def.2 e
    rw [if_pos h1]

/-- What an accepted LOAD writes in its track (40 R110, R111, R113). -/
theorem TrackState.loadRegister_eq (r : BitVec 7) (k : Packet) :
    ts.loadRegister r k =
      { ts with
        regs := ts.regs.set r.toNat ((ts.register r).load k)
        nextV := true
        nextIdx := if ts.nextV = true ∧ ts.nextIdx = 0 ∧ r ≠ 0 then 0 else r
        maxLoaded := if ts.maxLoaded < r then r else ts.maxLoaded } := by
  unfold loadRegister
  rw [requestSwap_eq, raiseMark_eq]
  rfl

theorem TrackState.Inv.loadRegister (h : ts.Inv p t) {r : BitVec 7} (hr : r.toNat < p.nreg t)
    {k : Packet} (hk : k.Legal) : (ts.loadRegister r k).Inv p t := by
  have hl : r.toNat < ts.regs.length := by rw [h.regsSize]; exact hr
  have hm := h.markRange
  have hc := h.curRange
  have hp1 : ((ts.loadRegister r k).register r).pend = true := by rw [loadRegister_register_self hl]; simp
  have hpn : ∀ q, q ≠ r → ((ts.loadRegister r k).register q).pend = (ts.register q).pend := fun q hq => by
    rw [loadRegister_register_of_ne hq]
  have hu := loadRegister_eq (ts := ts) r k
  have hM : (ts.loadRegister r k).maxLoaded.toNat = max ts.maxLoaded.toNat r.toNat := by
    rw [hu]; simp only []
    split_ifs with hlt <;> simp [BitVec.lt_def] at hlt <;> omega
  have hI : (ts.loadRegister r k).nextIdx = if ts.nextV = true ∧ ts.nextIdx = 0 ∧ r ≠ 0 then 0 else r := by rw [hu]
  have hV : (ts.loadRegister r k).nextV = true := by rw [hu]
  have hC : (ts.loadRegister r k).curReg = ts.curReg := by rw [hu]
  exact
  { regsSize := by rw [hu]; simp [h.regsSize]
    seqSize := by rw [hu]; exact h.seqSize
    ringSize := by rw [hu]; exact h.ringSize
    regsLegal := by
      intro g hg
      rw [hu] at hg
      rcases List.mem_or_eq_of_mem_set hg with hg | hg
      · exact h.regsLegal g hg
      · rw [hg]; exact (h.regsLegal _ (register_mem hl)).load hk
    seqLegal := by rw [hu]; exact h.seqLegal
    markRange := by rw [hM]; omega
    curRange := by rw [hM, hC]; omega
    nextPending := by
      intro _
      rw [hM, hI]
      split_ifs with hd
      · have := h.nextPending hd.1
        rw [hd.2.1] at this
        exact ⟨by simp, by rw [hpn 0 (Ne.symm hd.2.2)]; exact this.2⟩
      · exact ⟨by omega, hp1⟩
    zeroPending := by
      rw [hV, hI]
      simp only [true_and]
      by_cases h0 : r = 0
      · subst h0; simpa using hp1
      · rw [hpn 0 (Ne.symm h0), h.zeroPending]
        constructor
        · intro hd; simp [hd.1, hd.2]
        · intro hd
          split_ifs at hd with he
          · exact ⟨he.1, he.2.1⟩
          · exact absurd hd h0
    activeLen := by rw [hu]; exact h.activeLen
    retireActive := by rw [hu]; exact h.retireActive
    seqFits := by rw [hu]; exact h.seqFits
    latchSize := by rw [hu]; exact h.latchSize
    bitPosRange := by rw [hu]; exact h.bitPosRange
    ringCount := by rw [hu]; exact h.ringCount
    ringHead := by rw [hu]; exact h.ringHead }

theorem TrackState.Inv.setEntry (h : ts.Inv p t) (i : BitVec 7) {k : Packet} (hk : k.Legal) :
    (ts.setEntry i k).Inv p t :=
  { h with
    seqSize := by simp [h.seqSize]
    seqLegal := by
      intro e he
      rcases List.mem_or_eq_of_mem_set he with he | he
      · exact h.seqLegal e he
      · rw [he]; exact hk }

/-- The driver's fields, the flags and the last status do not matter to the invariant, as long as the ring's do not
change. -/
theorem TrackState.Inv.lastStatus (h : ts.Inv p t) (c : Status) : ({ ts with lastStatus := c } : TrackState).Inv p t :=
  { h with }

theorem State.Inv.setTrack {s : State} (h : s.Inv) {u : TrackState} (hu : u.Inv s.params t) : (s.setTrack t u).Inv where
  params := by simpa using h.params
  tracks := by
    intro t'
    by_cases e : t' = t
    · subst e; simpa using hu
    · rw [State.track_setTrack_of_ne _ e]; simpa using h.tracks t'

theorem State.Inv.status {s : State} (h : s.Inv) (t : Track) (c : Status) : (s.status t c).Inv where
  params := by simpa using h.params
  tracks := by
    intro t'
    by_cases e : t' = t
    · subst e; simpa using (h.tracks t').lastStatus c
    · rw [State.status_track_of_ne _ e]; simpa using h.tracks t'

/-- The invariant is about the parameters and the tracks alone. -/
theorem State.Inv.congr {s s' : State} (h : s.Inv) (hp : s'.params = s.params) (ht : ∀ t, s'.track t = s.track t) : s'.Inv where
  params := hp ▸ h.params
  tracks := fun t => by rw [hp, ht t]; exact h.tracks t

/-- The reply lines do not matter to the invariant (30_encoding R96). -/
theorem TrackState.Inv.withReply (h : ts.Inv p t) (b : Bool) (v : Byte) (k : Latch) : (ts.withReply b v k).Inv p t :=
  { h with }

theorem TrackState.Inv.nextByte (hp : p.Legal) (h : ts.Inv p t) : ts.nextByte.2.Inv p t := h.nextBits hp 8

theorem TrackState.Inv.attachTimer (h : ts.Inv p t) (pin unit : BitVec 16) : (ts.attachTimer pin unit).Inv p t :=
  { h with }

theorem TrackState.Inv.attachRing (hp : p.Legal) (h : ts.Inv p t) (g : Gran) (thresh : BitVec 8) (pin unit : BitVec 16) :
    (ts.attachRing g thresh pin unit).Inv p t :=
  { h with
    ringCount := Nat.zero_le _
    ringHead := hp.ringCap.1 }

theorem State.Inv.withHold {s : State} (h : s.Inv) (w : Option WaitHold) : ({ s with waitHold := w } : State).Inv :=
  h.congr rfl (by simp)

theorem State.Inv.withWords {s : State} (h : s.Inv) (w : List Word) : ({ s with cmdWords := w } : State).Inv :=
  h.congr rfl (by simp)

end Sys2Proof.Machine
end

