-- ==== Sys2Proof/Laws/Decode.lean ====
section
/-! SUPPORT. What the decoder reads from each header format and payload the encoder writes (30_encoding). -/

namespace Sys2Proof

theorem opcode_headerP (op t idx nbits rsv rep) : opcode (headerP op t idx nbits rsv rep) = op := by
  unfold opcode headerP; ext i hi
  simp only [BitVec.getElem_extractLsb', BitVec.getLsbD_append]
  split_ifs <;> first | omega | (rw [← BitVec.getLsbD_eq_getElem]; congr 1; omega)

theorem opcode_headerC (op t rsv cnt) : opcode (headerC op t rsv cnt) = op := by
  unfold opcode headerC; ext i hi
  simp only [BitVec.getElem_extractLsb', BitVec.getLsbD_append]
  split_ifs <;> first | omega | (rw [← BitVec.getLsbD_eq_getElem]; congr 1; omega)

theorem opcode_headerZ (op t rest) : opcode (headerZ op t rest) = op := by
  unfold opcode headerZ; ext i hi
  simp only [BitVec.getElem_extractLsb', BitVec.getLsbD_append]
  split_ifs <;> first | omega | (rw [← BitVec.getLsbD_eq_getElem]; congr 1; omega)

theorem opcode_headerA (t kind gran thresh rsv) : opcode (headerA t kind gran thresh rsv) = 7 := by
  unfold opcode headerA; ext i hi
  simp only [BitVec.getElem_extractLsb', BitVec.getLsbD_append]
  split_ifs <;> first | omega | (rw [← BitVec.getLsbD_eq_getElem]; congr 1; omega)

theorem trackOf_headerP (op t idx nbits rsv rep) : trackOf (headerP op t idx nbits rsv rep) = t := by
  unfold trackOf headerP; simp only [BitVec.getLsbD_append]; cases t <;> simp [Track.bit]

theorem trackOf_headerC (op t rsv cnt) : trackOf (headerC op t rsv cnt) = t := by
  unfold trackOf headerC; simp only [BitVec.getLsbD_append]; cases t <;> simp [Track.bit]

theorem trackOf_headerZ (op t rest) : trackOf (headerZ op t rest) = t := by
  unfold trackOf headerZ; simp only [BitVec.getLsbD_append]; cases t <;> simp [Track.bit]

theorem trackOf_headerA (t kind gran thresh rsv) : trackOf (headerA t kind gran thresh rsv) = t := by
  unfold trackOf headerA; simp only [BitVec.getLsbD_append]; cases t <;> simp [Track.bit]

theorem idx_headerP (op t idx nbits rsv rep) : (headerP op t idx nbits rsv rep).extractLsb' 20 7 = idx := by
  unfold headerP; ext i hi
  simp only [BitVec.getElem_extractLsb', BitVec.getLsbD_append]
  split_ifs <;> first | omega | (rw [← BitVec.getLsbD_eq_getElem]; congr 1; omega)

theorem nbits_headerP (op t idx nbits rsv rep) : (headerP op t idx nbits rsv rep).extractLsb' 13 7 = nbits := by
  unfold headerP; ext i hi
  simp only [BitVec.getElem_extractLsb', BitVec.getLsbD_append]
  split_ifs <;> first | omega | (rw [← BitVec.getLsbD_eq_getElem]; congr 1; omega)

theorem rsv_headerP (op t idx nbits rsv rep) : (headerP op t idx nbits rsv rep).extractLsb' 8 5 = rsv := by
  unfold headerP; ext i hi
  simp only [BitVec.getElem_extractLsb', BitVec.getLsbD_append]
  split_ifs <;> first | omega | (rw [← BitVec.getLsbD_eq_getElem]; congr 1; omega)

theorem rep_headerP (op t idx nbits rsv rep) : (headerP op t idx nbits rsv rep).extractLsb' 0 8 = rep := by
  unfold headerP; ext i hi
  simp only [BitVec.getElem_extractLsb', BitVec.getLsbD_append]
  split_ifs <;> first | omega | (rw [← BitVec.getLsbD_eq_getElem]; congr 1; omega)

theorem rsv_headerC (op t rsv cnt) : (headerC op t rsv cnt).extractLsb' 8 19 = rsv := by
  unfold headerC; ext i hi
  simp only [BitVec.getElem_extractLsb', BitVec.getLsbD_append]
  split_ifs <;> first | omega | (rw [← BitVec.getLsbD_eq_getElem]; congr 1; omega)

theorem cnt_headerC (op t rsv cnt) : (headerC op t rsv cnt).extractLsb' 0 8 = cnt := by
  unfold headerC; ext i hi
  simp only [BitVec.getElem_extractLsb', BitVec.getLsbD_append]
  split_ifs <;> first | omega | (rw [← BitVec.getLsbD_eq_getElem]; congr 1; omega)

theorem rest_headerZ (op t rest) : (headerZ op t rest).extractLsb' 0 27 = rest := by
  unfold headerZ; ext i hi
  simp only [BitVec.getElem_extractLsb', BitVec.getLsbD_append]
  split_ifs <;> first | omega | (rw [← BitVec.getLsbD_eq_getElem]; congr 1; omega)

theorem op3_headerZ (op : BitVec 3) (t rest) :
    (headerZ ((1 : BitVec 1) ++ op) t rest).extractLsb' 28 3 = op := by
  unfold headerZ; ext i hi
  simp only [BitVec.getElem_extractLsb', BitVec.getLsbD_append]
  split_ifs <;> first | omega | (rw [← BitVec.getLsbD_eq_getElem]; congr 1; omega)

theorem kind_headerA (t kind gran thresh rsv) : (headerA t kind gran thresh rsv).extractLsb' 25 2 = kind := by
  unfold headerA; ext i hi
  simp only [BitVec.getElem_extractLsb', BitVec.getLsbD_append]
  split_ifs <;> first | omega | (rw [← BitVec.getLsbD_eq_getElem]; congr 1; omega)

theorem gran_headerA (t kind gran thresh rsv) : (headerA t kind gran thresh rsv).extractLsb' 23 2 = gran := by
  unfold headerA; ext i hi
  simp only [BitVec.getElem_extractLsb', BitVec.getLsbD_append]
  split_ifs <;> first | omega | (rw [← BitVec.getLsbD_eq_getElem]; congr 1; omega)

theorem thresh_headerA (t kind gran thresh rsv) : (headerA t kind gran thresh rsv).extractLsb' 15 8 = thresh := by
  unfold headerA; ext i hi
  simp only [BitVec.getElem_extractLsb', BitVec.getLsbD_append]
  split_ifs <;> first | omega | (rw [← BitVec.getLsbD_eq_getElem]; congr 1; omega)

theorem rsv_headerA (t kind gran thresh rsv) : (headerA t kind gran thresh rsv).extractLsb' 0 15 = rsv := by
  unfold headerA; ext i hi
  simp only [BitVec.getElem_extractLsb', BitVec.getLsbD_append]
  split_ifs <;> first | omega | (rw [← BitVec.getLsbD_eq_getElem]; congr 1; omega)

theorem pin_word (pin unit : BitVec 16) : ((pin ++ unit : BitVec 32)).extractLsb' 16 16 = pin := by
  ext i hi
  simp only [BitVec.getElem_extractLsb', BitVec.getLsbD_append]
  split_ifs <;> first | omega | (rw [← BitVec.getLsbD_eq_getElem]; congr 1; omega)

theorem unit_word (pin unit : BitVec 16) : ((pin ++ unit : BitVec 32)).extractLsb' 0 16 = unit := by
  ext i hi
  simp only [BitVec.getElem_extractLsb', BitVec.getLsbD_append]
  split_ifs <;> first | omega | (rw [← BitVec.getLsbD_eq_getElem]; congr 1; omega)

/-- The payload words of a buffer give the buffer back. -/
theorem payload_payloadWords (buf : Buf) :
    payload (buf.extractLsb' 48 32) (buf.extractLsb' 16 32) (buf.extractLsb' 0 16 ++ (0 : BitVec 16)) = buf := by
  unfold payload; ext i hi
  simp only [BitVec.getElem_append, BitVec.getElem_extractLsb', BitVec.getLsbD_append, BitVec.getLsbD_extractLsb']
  split_ifs <;> first | omega | skip
  · simp only [show 16 + i - 16 < 16 by omega, decide_true, Bool.true_and]
    rw [← BitVec.getLsbD_eq_getElem]; congr 1; omega
  · rw [← BitVec.getLsbD_eq_getElem]; congr 1; omega
  · rw [← BitVec.getLsbD_eq_getElem]; congr 1; omega

/-- An opcode from 8 to F is none of the opcodes below 8. -/
theorem high_opcode : ∀ (op : BitVec 3) (k : BitVec 4), k.getLsbD 3 = false → (1 : BitVec 1) ++ op ≠ k := by
  decide

/-- `decode` on words that hold a whole command: its fields, and what follows it (R81). -/
theorem decode_whole {w0 : Word} {rest : List Word} (h : commandLength w0 ≤ rest.length + 1) :
    decode (w0 :: rest) =
      .ok (decodeFields w0 (rest.getD 0 0) (rest.getD 1 0) (rest.getD 2 0), (w0 :: rest).drop (commandLength w0)) := by
  simp only [decode, List.length_cons]
  rw [if_neg (by omega)]

/-- `decode` on words that hold part of a command. -/
theorem decode_part {w0 : Word} {rest : List Word} (h : rest.length + 1 < commandLength w0) :
    decode (w0 :: rest) = .error (.incomplete (rest.length + 1) (commandLength w0)) := by
  simp only [decode, List.length_cons]
  rw [if_pos h]

/-- A command has one to four words (R81). -/
theorem commandLength_range (w0 : Word) : 1 ≤ commandLength w0 ∧ commandLength w0 ≤ 4 := by
  unfold commandLength; split_ifs <;> simp

end Sys2Proof
end

