-- ==== Sys2Proof/Laws/Drivers.lean ====
section
/-! SUPPORT. Pulse descriptors, pushes, and the driver events (43 R172 to R186): what they write, and that they keep the
invariants of a track. -/

namespace Sys2Proof.Machine

open TrackState
variable {p : Params} {t : Track} {ts : TrackState}

theorem TrackState.Inv.pushBits (bits : List Bool) : ∀ {ts : TrackState}, ts.Inv p t → ts.rCount + bits.length ≤ p.ringCap →
    (ts.pushBits p bits).Inv p t := by
  induction bits with
  | nil => intro ts h _; exact h
  | cons b bs ih =>
    intro ts h hc
    simp only [List.length_cons] at hc
    exact ih (ts := ts.push p.ringCap (p.desc b))
      { h with
        ringSize := by simp [h.ringSize]
        ringCount := by show ts.rCount + 1 ≤ _; omega } (by show ts.rCount + 1 + _ ≤ _; omega)

/-- TA on its track without the reply of its pull (43 R172). -/
def TrackState.ta (p : Params) (now : Nat) (ts : TrackState) : TrackState :=
  let r := ts.startTa.nextBit
  { ({ r.2 with tBit := r.1 }).emit true (.ticks (p.halfPeriod r.1)) with
    tB := .due (now + p.halfPeriod r.1)
    tA := .due (now + 2 * p.halfPeriod r.1)
    tPhase := .high }

/-- REFILL on its track without the reply of its pull (43 R182). -/
def TrackState.refill (p : Params) (ts : TrackState) : TrackState :=
  (ts.pullUnit.2.pushBits p ts.pullUnit.1).endRefill p

theorem TrackState.Inv.ta (hp : p.Legal) (h : ts.Inv p t) (now : Nat) : (ts.ta p now).Inv p t := by
  have h' : ts.startTa.Inv p t := { h with }
  exact { h'.nextBit hp with }

theorem TrackState.Inv.tb (h : ts.Inv p t) : (ts.tb p).Inv p t := { h with }

theorem TrackState.Inv.underrun (h : ts.Inv p t) : ts.underrun.Inv p t := { h with }

theorem State.Inv.agentStep {s : State} (h : s.Inv) {t : Track} {b : Bool} {u : TrackState} (hu : b = true → u.Inv s.params t) :
    (s.agentStep t b u).Inv := by
  unfold State.agentStep
  split
  · next hb => exact h.setTrack (hu hb)
  · exact h

theorem TrackState.Inv.pushed {bits : List Bool} {u : TrackState} (e : u.rCount = ts.rCount) (h : u.Inv p t) (hb : bits.length ≤ p.ringCap - ts.rCount) (hc : ts.rCount ≤ p.ringCap) :
  ((u.pushBits p bits).endRefill p).Inv p t := by
  have := TrackState.Inv.pushBits bits h (by omega)
  unfold TrackState.endRefill
  split
  · exact { this with }
  · exact this

theorem TrackState.Inv.refill (hp : p.Legal) (h : ts.Inv p t) (he : ts.refillEnabled p = true) : (ts.refill p).Inv p t := by
  obtain ⟨hu, hl⟩ := h.pullUnit hp
  simp only [TrackState.refillEnabled, decide_eq_true_eq] at he
  refine TrackState.Inv.pushed ?_ hu (by omega) h.ringCount
  rw [← TrackState.pullUnit_driver]; rfl

theorem TrackState.Inv.drain (hp : p.Legal) (h : ts.Inv p t) : (ts.drain p).Inv p t := by
  have hc := hp.ringCap
  have key : ({ ts with rHead := (ts.rHead + 1) % p.ringCap, rCount := ts.rCount - 1 } : TrackState).Inv p t :=
    { h with
      ringCount := by have := h.ringCount; show ts.rCount - 1 ≤ _; omega
      ringHead := Nat.mod_lt _ (by omega) }
  unfold TrackState.drain
  simp only []
  split
  · exact { key with }
  · exact { key with }

theorem descL1_desc (p : Params) (b : Bool) : descL1 (p.desc b) = false := by
  unfold descL1 Params.desc
  simp only [BitVec.getLsbD_append]
  simp

theorem descL0_desc (p : Params) (b : Bool) : descL0 (p.desc b) = true := by
  unfold descL0 Params.desc
  simp only [BitVec.getLsbD_append]
  simp

theorem halfPeriod_lt (hp : p.Legal) (b : Bool) : p.halfPeriod b < 2 ^ 15 := by
  have := hp.ticksPerUs
  unfold Params.halfPeriod Config.t1HalfUs Config.t0HalfUs
  split <;> omega

theorem descDur0_desc (hp : p.Legal) (b : Bool) : descDur0 (p.desc b) = p.halfPeriod b := by
  have : (p.desc b).extractLsb' 16 15 = BitVec.ofNat 15 (p.halfPeriod b) := by
    unfold Params.desc; ext i hi
    simp only [BitVec.getElem_extractLsb', BitVec.getLsbD_append]
    split_ifs <;> first | omega | (rw [← BitVec.getLsbD_eq_getElem]; congr 1; omega)
  unfold descDur0
  rw [this, BitVec.toNat_ofNat, Nat.mod_eq_of_lt (halfPeriod_lt hp b)]

theorem descDur1_desc (hp : p.Legal) (b : Bool) : descDur1 (p.desc b) = p.halfPeriod b := by
  have : (p.desc b).extractLsb' 0 15 = BitVec.ofNat 15 (p.halfPeriod b) := by
    unfold Params.desc; ext i hi
    simp only [BitVec.getElem_extractLsb', BitVec.getLsbD_append]
    split_ifs <;> first | omega | (rw [← BitVec.getLsbD_eq_getElem]; congr 1; omega)
  unfold descDur1
  rw [this, BitVec.toNat_ofNat, Nat.mod_eq_of_lt (halfPeriod_lt hp b)]

/-- The waveform of a bit's descriptor is the waveform of the bit (30_encoding R95, 43 R170). -/
theorem descWave_desc (hp : p.Legal) (b : Bool) : descWave (p.desc b) = bitWave p b := by
  simp [descWave, bitWave, descL0_desc, descL1_desc, descDur0_desc hp, descDur1_desc hp]

/-- Pushes write the ring and its count only (43 R181). -/
theorem TrackState.pushBits_frame (bits : List Bool) : ∀ ts : TrackState,
    ts.pushBits p bits = { ts with ring := (ts.pushBits p bits).ring, rCount := ts.rCount + bits.length } := by
  induction bits with
  | nil => intro ts; rfl
  | cons b bs ih =>
    intro ts
    have := ih (ts.push p.ringCap (p.desc b))
    show TrackState.pushBits p (ts.push p.ringCap (p.desc b)) bs = _
    rw [this]
    show _ = ({ ts with ring := _, rCount := _ } : TrackState)
    congr 1
    simp only [List.length_cons, push]; omega

theorem TrackState.pushBits_ring (bits : List Bool) : ∀ {ts : TrackState}, ∀ d ∈ (ts.pushBits p bits).ring, d ∈ ts.ring ∨ ∃ b, d = p.desc b := by
  induction bits with
  | nil => intro ts d hd; exact .inl hd
  | cons b bs ih =>
    intro ts d hd
    rcases ih (ts := ts.push p.ringCap (p.desc b)) d hd with h | h
    · rcases List.mem_or_eq_of_mem_set h with h | h
      · exact .inl h
      · exact .inr ⟨b, h⟩
    · exact .inr h

theorem TrackState.DriverInv.graft {d : TrackState} (h : d.DriverInv p) (r : TrackState) : (r.graft d).DriverInv p :=
  { h with }

theorem TrackState.DriverInv.pull {u : TrackState} (h : ts.DriverInv p) (e : u.graft ts = u) : u.DriverInv p :=
  e ▸ h.graft u

theorem TrackState.DriverInv.rotator {u : TrackState} (h : ts.DriverInv p)
    (h1 : u.tPhase = ts.tPhase) (h2 : u.cfg = ts.cfg) (h3 : u.pin = ts.pin) (h4 : u.ring = ts.ring) (h5 : u.rCount = ts.rCount)
    (h6 : u.refilling = ts.refilling) (h7 : u.running = ts.running) (h8 : u.frozen = ts.frozen)
    (h9 : u.underrunFlag = ts.underrunFlag) (h10 : u.wave = ts.wave) : u.DriverInv p := by
  constructor
  · rw [h1, h2]; exact h.phaseKind
  · rw [h1, h3]; exact h.pinLevel
  · rw [h4]; exact h.ringLow
  · rw [h2, h5, h6, h7, h8, h9]; exact h.ringKind
  · rw [h2]; exact h.ringOnly
  · rw [h2]; exact h.threshFits
  · rw [h2, h5, h6]; exact h.refillAsked
  · rw [h2, h5, h6]; exact h.refillRoom
  · rw [h2, h6, h7]; exact h.startAsked
  · rw [h7, h8, h9]; exact h.frozenRunning
  · rw [h2, h10]; exact h.silent

/-- The end of a refill in one form (43 R182). -/
theorem TrackState.endRefill_eq (p : Params) (ts : TrackState) :
    ts.endRefill p =
      { ts with
        refilling := if p.ringCap - ts.rCount < ts.cfg.gran.unit then false else ts.refilling
        running := if p.ringCap - ts.rCount < ts.cfg.gran.unit then true else ts.running } := by
  unfold endRefill; split_ifs <;> rfl

/-- REFILL in one form, without the reply: the pull, its descriptors in the ring, and the end of the burst when less than a
unit of room is left (43 R182). -/
theorem TrackState.refill_eq (p : Params) (ts : TrackState) :
    ts.refill p =
      { ts.pullUnit.2 with
        ring := (ts.pullUnit.2.pushBits p ts.pullUnit.1).ring
        rCount := ts.rCount + ts.pullUnit.1.length
        refilling := if p.ringCap - (ts.rCount + ts.pullUnit.1.length) < ts.cfg.gran.unit then false else ts.refilling
        running := if p.ringCap - (ts.rCount + ts.pullUnit.1.length) < ts.cfg.gran.unit then true else ts.running } := by
  have hd := TrackState.pullUnit_driver ts
  have e1 : ts.pullUnit.2.cfg = ts.cfg := by rw [← hd]; rfl
  have e2 : ts.pullUnit.2.refilling = ts.refilling := by rw [← hd]; rfl
  have e3 : ts.pullUnit.2.rCount = ts.rCount := by rw [← hd]; rfl
  have e4 : ts.pullUnit.2.running = ts.running := by rw [← hd]; rfl
  have hf := TrackState.pushBits_frame (p := p) ts.pullUnit.1 ts.pullUnit.2
  unfold TrackState.refill
  rw [endRefill_eq]
  generalize (ts.pullUnit.2.pushBits p ts.pullUnit.1) = v at hf ⊢
  generalize v.ring = ring at hf ⊢
  subst hf
  simp only [e1, e2, e3, e4]

theorem TrackState.DriverInv.refill (h : ts.DriverInv p) (he : ts.refillEnabled p = true) :
    (ts.refill p).DriverInv p := by
  simp only [TrackState.refillEnabled, decide_eq_true_eq] at he
  obtain ⟨hk, hr, hroom⟩ := he
  have hd := TrackState.pullUnit_driver ts
  have hu := h.pull hd
  have hcfg : ts.pullUnit.2.cfg = ts.cfg := by rw [← hd]; rfl
  have hund : ts.pullUnit.2.frozen = true → ts.pullUnit.2.underrunFlag = true ∧ ts.running = true := by
    rw [← hd]; exact h.frozenRunning
  have hlow : ∀ d ∈ (ts.pullUnit.2.pushBits p ts.pullUnit.1).ring, descL1 d = false := by
    intro d hd
    rcases TrackState.pushBits_ring _ d hd with hd | ⟨b, hd⟩
    · exact hu.ringLow d hd
    · rw [hd]; exact descL1_desc p b
  have ht := h.threshFits hk
  rw [TrackState.refill_eq]
  generalize ts.pullUnit.1.length = n
  exact { hu with
    ringLow := hlow
    ringKind := fun hk' => absurd (by show ts.pullUnit.2.cfg.kind = _; rw [hcfg]; exact hk) hk'
    refillAsked := by
      intro _ hle
      have hle : ts.rCount + n ≤ ts.cfg.thresh.toNat := by rw [← hcfg]; exact hle
      show (if _ then false else ts.refilling) = true
      rw [if_neg (by omega)]; exact hr
    refillRoom := by
      intro _ hx
      show ts.pullUnit.2.cfg.gran.unit ≤ p.ringCap - (ts.rCount + n)
      rw [hcfg]
      by_contra hlt
      exact absurd hx (by simp [Nat.lt_of_not_le hlt])
    startAsked := by
      intro _ hx
      show (if _ then false else ts.refilling) = true
      split_ifs with hc
      · exact absurd hx (by simp [hc])
      · exact hr
    frozenRunning := by
      intro hf
      refine ⟨(hund hf).1, ?_⟩
      show (if _ then true else ts.running) = true
      split_ifs
      · rfl
      · exact (hund hf).2 }

/-- DRAIN in one form (43 R185). -/
theorem TrackState.drain_eq (p : Params) (ts : TrackState) :
    ts.drain p =
      { ts with
        rHead := (ts.rHead + 1) % p.ringCap
        rCount := ts.rCount - 1
        pin := descL1 ts.ringFront
        wave := ts.wave ++ descWave ts.ringFront
        frozen := false
        refilling := if ts.rCount - 1 ≤ ts.cfg.thresh.toNat then true else ts.refilling } := by
  unfold TrackState.drain descWave
  by_cases h : ts.rCount - 1 ≤ ts.cfg.thresh.toNat
  · simp only [emit, if_pos h, List.append_assoc, List.cons_append, List.nil_append]
  · simp only [emit, if_neg h, List.append_assoc, List.cons_append, List.nil_append]

theorem TrackState.DriverInv.drain (h : ts.DriverInv p) (hh : ts.rHead < ts.ring.length) (he : ts.drainEnabled = true) :
    (ts.drain p).DriverInv p := by
  simp only [TrackState.drainEnabled, decide_eq_true_eq] at he
  obtain ⟨hk, hr, hpos⟩ := he
  have hl : descL1 ts.ringFront = false := h.ringLow _ (by simp [TrackState.ringFront, hh])
  have hidle : ts.tPhase = .idle := h.phaseKind.2 (by rw [hk]; decide)
  rw [TrackState.drain_eq, hl]
  exact { h with
      pinLevel := by simp [hidle]
      ringKind := fun hk' => absurd hk hk'
      refillAsked := by
        intro _ hle
        exact if_pos hle
      refillRoom := by
        intro _ hx
        have hfit := h.threshFits hk
        show ts.cfg.gran.unit ≤ p.ringCap - (ts.rCount - 1)
        by_cases hle : ts.rCount - 1 ≤ ts.cfg.thresh.toNat
        · omega
        · have := h.refillRoom hk (by simpa [hle] using hx)
          omega
      startAsked := by
        intro _ hx
        exact absurd (hr.symm.trans hx) (by decide)
      frozenRunning := by simp
      silent := by
        intro hn
        exact absurd (hk.symm.trans hn) (by decide) }

theorem TrackState.DriverInv.underrun (h : ts.DriverInv p) (he : ts.underrunEnabled = true) :
    ts.underrun.DriverInv p := by
  simp only [TrackState.underrunEnabled, decide_eq_true_eq] at he
  obtain ⟨hk, hr, hz, hf⟩ := he
  exact { h with
    ringKind := fun hk' => absurd hk hk'
    frozenRunning := fun _ => ⟨rfl, hr⟩
    silent := by
      intro hn
      exact absurd (hk.symm.trans hn) (by decide) }

theorem TrackState.DriverInv.ta (h : ts.DriverInv p) (he : ts.taEnabled = true) (now : Nat) : (ts.ta p now).DriverInv p := by
  simp only [TrackState.taEnabled, decide_eq_true_eq] at he
  have e : ts.startTa.nextBit.2.graft ts.startTa = ts.startTa.nextBit.2 := TrackState.nextBit_driver _
  unfold TrackState.ta
  simp only []
  rw [← e]
  exact { h with
    phaseKind := by
      have := he.1
      constructor
      · intro hx; cases hx
      · intro hx; exact absurd this hx
    pinLevel := by simp [TrackState.graft, TrackState.startTa]
    silent := by
      intro hn
      exact absurd (he.1.symm.trans hn) (by decide) }

theorem TrackState.DriverInv.tb (h : ts.DriverInv p) (he : ts.tbEnabled = true) : (ts.tb p).DriverInv p := by
  simp only [TrackState.tbEnabled, decide_eq_true_eq] at he
  exact { h with
    phaseKind := by
      have := he.1
      constructor
      · intro hx; cases hx
      · intro hx; exact absurd this hx
    pinLevel := by simp [TrackState.tb]
    silent := by
      intro hn
      exact absurd (he.1.symm.trans hn) (by decide) }

theorem TrackState.DriverInv.attachTimer (h : ts.DriverInv p) (hk : ts.cfg.kind = .none) (pin unit : BitVec 16) :
    (ts.attachTimer pin unit).DriverInv p := by
  have hi : ts.tPhase = .idle := h.phaseKind.2 (by rw [hk]; decide)
  have hpin : ts.pin = false := by
    cases hx : ts.pin with
    | false => rfl
    | true => have := h.pinLevel.1 hx; rw [hi] at this; cases this
  have hr := h.ringKind (by rw [hk]; decide)
  exact { h with
    phaseKind := by simp [TrackState.attachTimer]
    pinLevel := by simp [TrackState.attachTimer, hpin]
    ringKind := fun _ => hr
    ringOnly := fun _ => ⟨rfl, rfl⟩
    threshFits := by simp [TrackState.attachTimer]
    refillAsked := by simp [TrackState.attachTimer]
    refillRoom := by simp [TrackState.attachTimer]
    startAsked := by simp [TrackState.attachTimer]
    silent := by simp [TrackState.attachTimer] }

theorem TrackState.DriverInv.attachRing (h : ts.DriverInv p) (hk : ts.cfg.kind = .none) {g : Gran} {thresh : BitVec 8}
    (hfit : thresh.toNat + g.unit ≤ p.ringCap) (pin unit : BitVec 16) :
    (ts.attachRing g thresh pin unit).DriverInv p := by
  have hi : ts.tPhase = .idle := h.phaseKind.2 (by rw [hk]; decide)
  exact { h with
    phaseKind := by simp [TrackState.attachRing, hi]
    ringKind := by simp [TrackState.attachRing]
    ringOnly := by simp [TrackState.attachRing]
    threshFits := fun _ => hfit
    refillAsked := fun _ _ => rfl
    refillRoom := fun _ _ => by show g.unit ≤ p.ringCap - 0; omega
    startAsked := fun _ _ => rfl
    frozenRunning := by simp [TrackState.attachRing]
    silent := by simp [TrackState.attachRing] }

theorem State.DriverInv.setTrack {s : State} (h : s.DriverInv) {u : TrackState} (hu : u.DriverInv s.params) : (s.setTrack t u).DriverInv := by
  intro t'
  by_cases e : t' = t
  · subst e; simpa using hu
  · rw [State.track_setTrack_of_ne _ e]; simpa using h t'

theorem State.DriverInv.status {s : State} (h : s.DriverInv) (t : Track) (c : Status) : (s.status t c).DriverInv := by
  intro t'
  by_cases e : t' = t
  · subst e
    rw [State.status_track, State.status_params]
    exact { h t' with }
  · rw [State.status_track_of_ne _ e]; simpa using h t'

theorem State.DriverInv.congr {s s' : State} (h : s.DriverInv) (hp : s'.params = s.params) (ht : ∀ t, s'.track t = s.track t) :
    s'.DriverInv := fun t => by rw [hp, ht t]; exact h t

theorem TrackState.DriverInv.withReply (h : ts.DriverInv p) (b : Bool) (v : Byte) (k : Latch) :
    (ts.withReply b v k).DriverInv p := { h with }

theorem TrackState.DriverInv.setEntry (h : ts.DriverInv p) (i : BitVec 7) (k : Packet) :
    (ts.setEntry i k).DriverInv p := { h with }

theorem TrackState.nextByte_driver (ts : TrackState) : ts.nextByte.2.graft ts = ts.nextByte.2 := nextBits_driver 8 ts

end Sys2Proof.Machine
end

