-- ==== Sys2Proof/Laws/Port.lean ====
section
/-! SUPPORT. The end of a command, the command port and the drawing of a move: what each can do, said once. -/

namespace Sys2Proof

/-- Only commands are decoded from the command port (30_encoding R91). -/
theorem decodeFields_isCommand (w0 w1 w2 w3 : Word) : (decodeFields w0 w1 w2 w3).isCommand = true := by
  unfold decodeFields; simp only []; split_ifs <;> rfl

theorem decode_isCommand {ws after : List Word} {i : Instr} (h : decode ws = .ok (i, after)) : i.isCommand = true := by
  cases ws with
  | nil => cases h
  | cons w0 rest =>
    simp only [decode] at h
    split at h
    · cases h
    · cases h; exact decodeFields_isCommand _ _ _ _

namespace Machine

variable {s : State}

/-- `status(c)` is the end of a command with the response `zext_32(c)` (00_scope R10). -/
theorem State.status_eq (s : State) (t : Track) (c : Status) : s.status t c = s.endedWith t c (c.code.setWidth 32) := by
  cases t <;> rfl

theorem badLength_iff (n : BitVec 7) : badLength n = true ↔ n.toNat = 0 ∨ 80 < n.toNat := by
  unfold badLength; simp [BitVec.toNat_eq]

theorem State.waitDone_iff (h : WaitHold) : s.waitDone h = true ↔ (s.track h.track).seqLen.toNat ≤ h.thr.toNat := by
  simp [State.waitDone, BitVec.le_def]

/-- What a word driven into the command port can do (30_encoding R81, 41 R126). -/
theorem takeWord_cases (w : Word) (s : State) :
    (s.waitHold ≠ none ∧ takeWord w s = .next s) ∨
    (s.waitHold = none ∧ ∃ i after, decode (s.cmdWords ++ [w]) = .ok (i, after) ∧
      takeWord w s = exec i { s with cmdWords := [] }) ∨
    (s.waitHold = none ∧ (∃ e, decode (s.cmdWords ++ [w]) = .error e) ∧
      takeWord w s = .next { s with cmdWords := s.cmdWords ++ [w] }) := by
  unfold takeWord
  cases hw : s.waitHold with
  | some h => exact .inl ⟨by simp, rfl⟩
  | none =>
    cases hd : decode (s.cmdWords ++ [w]) with
    | ok r => exact .inr (.inl ⟨rfl, r.1, r.2, rfl, rfl⟩)
    | error e => exact .inr (.inr ⟨rfl, ⟨e, rfl⟩, rfl⟩)

/-- What the transition of a held WAIT can do (41 R126). -/
theorem State.endWait_cases (s : State) :
    s.endWait = s ∨ ∃ h, s.waitHold = some h ∧ s.waitDone h = true ∧
      s.endWait = ({ s with waitHold := none }).status h.track .ok := by
  unfold State.endWait
  cases hw : s.waitHold with
  | none => exact .inl rfl
  | some h =>
    cases hd : s.waitDone h with
    | false => left; simp [hd]
    | true => right; exact ⟨h, rfl, hd, by simp [hd]⟩

@[simp] theorem State.draw_track (s : State) (t : Track) : s.draw.2.track t = s.track t := by
  unfold State.draw; split <;> cases t <;> rfl

@[simp] theorem State.draw_params (s : State) : s.draw.2.params = s.params := by unfold State.draw; split <;> rfl

@[simp] theorem State.draw_cmdWords (s : State) : s.draw.2.cmdWords = s.cmdWords := by unfold State.draw; split <;> rfl

@[simp] theorem State.draw_waitHold (s : State) : s.draw.2.waitHold = s.waitHold := by unfold State.draw; split <;> rfl

@[simp] theorem State.draw_responses (s : State) : s.draw.2.responses = s.responses := by unfold State.draw; split <;> rfl

/-- A driver event changes one track, where it is enabled (20_memory R65). -/
theorem State.agentStep_cases (s : State) (t : Track) (e : Bool) (ts : TrackState) :
    (e = true ∧ s.agentStep t e ts = s.setTrack t ts) ∨ (e = false ∧ s.agentStep t e ts = s) := by
  cases e
  · exact .inr ⟨rfl, rfl⟩
  · exact .inl ⟨rfl, rfl⟩

end Machine

end Sys2Proof
end

