-- ==== Sys2Proof/Laws/Ring.lean ====
section
/-! SUPPORT. The ring as a queue: pushes append, a drain takes the front, a refill appends one unit (43 R181, R182, R185). -/

namespace Sys2Proof.Machine

open TrackState
variable {p : Params} {t : Track} {ts : TrackState}

/-- A push appends to the queue (43 R181). -/
theorem TrackState.push_ringQueue {cap : Nat} (hl : ts.ring.length = cap) (hc : ts.rCount < cap) (d : Word) :
    (ts.push cap d).ringQueue cap = ts.ringQueue cap ++ [d] := by
  have hcap : 0 < cap := by omega
  unfold ringQueue
  simp only [push_rCount, push_rHead, push_ring]
  rw [List.range_succ, List.map_append]
  congr 1
  · apply List.map_congr_left
    intro k hk
    have hk := List.mem_range.1 hk
    have hne : (ts.rHead + ts.rCount) % cap ≠ (ts.rHead + k) % cap := by
      intro e
      have : ts.rCount % cap = k % cap := Nat.ModEq.add_left_cancel' ts.rHead e
      rw [Nat.mod_eq_of_lt hc, Nat.mod_eq_of_lt (by omega)] at this
      omega
    simp [List.getD_eq_getElem?_getD, List.getElem?_set_ne hne]
  · have : (ts.rHead + ts.rCount) % cap < ts.ring.length := by rw [hl]; exact Nat.mod_lt _ hcap
    simp [List.getD_eq_getElem?_getD, List.getElem?_set_self this]

/-- Pushes write the entries behind the ones held, in order, and leave every other entry (43 R181). -/
theorem TrackState.pushBits_slots (bits : List Bool) : ∀ {ts : TrackState}, ts.ring.length = p.ringCap →
    ts.rCount + bits.length ≤ p.ringCap →
    (∀ i, i < bits.length →
      (ts.pushBits p bits).ring[(ts.rHead + ts.rCount + i) % p.ringCap]? = (bits[i]?).map p.desc) ∧
    ∀ k, (∀ i, i < bits.length → k ≠ (ts.rHead + ts.rCount + i) % p.ringCap) →
      (ts.pushBits p bits).ring[k]? = ts.ring[k]? := by
  induction bits with
  | nil => intro ts _ _; exact ⟨fun i hi => absurd hi (Nat.not_lt_zero i), fun _ _ => rfl⟩
  | cons b bs ih =>
    intro ts hl hc
    simp only [List.length_cons] at hc
    obtain ⟨h1, h2⟩ := ih (ts := ts.push p.ringCap (p.desc b)) (by simp [hl]) (by simp; omega)
    have e : ∀ i, ts.rHead + (ts.rCount + 1) + i = ts.rHead + ts.rCount + (i + 1) := fun i => by omega
    simp only [push_rHead, push_rCount, push_ring, e] at h1 h2
    have hlt : (ts.rHead + ts.rCount) % p.ringCap < ts.ring.length := by rw [hl]; exact Nat.mod_lt _ (by omega)
    have apart : ∀ i, i < bs.length → (ts.rHead + ts.rCount) % p.ringCap ≠ (ts.rHead + ts.rCount + (i + 1)) % p.ringCap := by
      intro i hi e
      have : 0 % p.ringCap = (i + 1) % p.ringCap := Nat.ModEq.add_left_cancel' (ts.rHead + ts.rCount) e
      rw [Nat.zero_mod, Nat.mod_eq_of_lt (by omega)] at this
      omega
    refine ⟨fun i hi => ?_, fun k hk => ?_⟩
    · show ((ts.push p.ringCap (p.desc b)).pushBits p bs).ring[_]? = _
      cases i with
      | zero => rw [Nat.add_zero, h2 _ apart, List.getElem?_set_self hlt]; rfl
      | succ i => rw [h1 i (by simpa using hi)]; simp
    · show ((ts.push p.ringCap (p.desc b)).pushBits p bs).ring[_]? = _
      rw [h2 k (fun i hi => hk (i + 1) (by simpa using hi)), List.getElem?_set_ne]
      exact fun e => hk 0 (by simp) e.symm

theorem TrackState.pushBits_ringQueue (bits : List Bool) : ∀ {ts : TrackState}, ts.ring.length = p.ringCap →
    ts.rCount + bits.length ≤ p.ringCap →
    (ts.pushBits p bits).ringQueue p.ringCap = ts.ringQueue p.ringCap ++ bits.map p.desc := by
  induction bits with
  | nil => intro ts _ _; simp [pushBits]
  | cons b bs ih =>
    intro ts hl hc
    simp only [List.length_cons] at hc
    have := ih (ts := ts.push p.ringCap (p.desc b)) (by simp [hl]) (by simp; omega)
    show TrackState.ringQueue p.ringCap ((ts.push p.ringCap (p.desc b)).pushBits p bs) = _
    rw [this, push_ringQueue hl (by omega)]
    simp

/-- A non-empty queue is its front and the queue after a drain (43 R185). -/
theorem TrackState.ringQueue_pop {cap : Nat} (hh : ts.rHead < cap) (hc : 0 < ts.rCount) {u : TrackState}
    (h1 : u.ring = ts.ring) (h2 : u.rHead = (ts.rHead + 1) % cap) (h3 : u.rCount = ts.rCount - 1) :
    ts.ringQueue cap = ts.ringFront :: u.ringQueue cap := by
  unfold ringQueue ringFront
  rw [h1, h2, h3]
  obtain ⟨n, hn⟩ : ∃ n, ts.rCount = n + 1 := ⟨ts.rCount - 1, by omega⟩
  rw [hn, List.range_succ_eq_map, List.map_cons, List.map_map, Nat.add_sub_cancel]
  congr 1
  · simp [Nat.mod_eq_of_lt hh]
  · apply List.map_congr_left
    intro k _
    have : (ts.rHead + (k + 1)) % cap = ((ts.rHead + 1) % cap + k) % cap := by
      rw [Nat.mod_add_mod]; congr 1; omega
    simp [this]

theorem TrackState.ringQueue_congr {a b : TrackState} (h1 : a.ring = b.ring) (h2 : a.rHead = b.rHead) (h3 : a.rCount = b.rCount) (cap : Nat) :
   a.ringQueue cap = b.ringQueue cap := by unfold ringQueue; rw [h1, h2, h3]

theorem TrackState.endRefill_ring (ts : TrackState) : (ts.endRefill p).ringQueue p.ringCap = ts.ringQueue p.ringCap := by
  unfold endRefill; split <;> rfl

/-- REFILL: the pulled unit's descriptors go to the end of the queue, the wire is not touched, and the rotator is as the
pull leaves it (43 R182). -/
theorem TrackState.refill_spec (hI : ts.Inv p t) (hp : p.Legal) (he : ts.refillEnabled p = true) :
    (ts.refill p).ringQueue p.ringCap = ts.ringQueue p.ringCap ++ ts.pullUnit.1.map p.desc ∧
    (ts.refill p).wave = ts.wave ∧ (ts.refill p).cfg = ts.cfg ∧ (ts.refill p).underrunFlag = ts.underrunFlag ∧
    ts.pullUnit.2.graft (ts.refill p) = ts.refill p := by
  obtain ⟨hu, hl⟩ := hI.pullUnit hp
  simp only [TrackState.refillEnabled, decide_eq_true_eq] at he
  have hc := hI.ringCount
  have hd := TrackState.pullUnit_driver ts
  have e1 : ts.pullUnit.2.rCount = ts.rCount := by rw [← hd]; rfl
  refine ⟨?_, ?_, ?_, ?_, ?_⟩
  · show ((ts.pullUnit.2.pushBits p ts.pullUnit.1).endRefill p).ringQueue p.ringCap = _
    rw [endRefill_ring, pushBits_ringQueue _ hu.ringSize (by omega)]
    congr 1
    exact ringQueue_congr (by rw [← hd]; rfl) (by rw [← hd]; rfl) e1 _
  · have e2 : ts.pullUnit.2.wave = ts.wave := by rw [← hd]; rfl
    rw [refill_eq]; exact e2
  · have e2 : ts.pullUnit.2.cfg = ts.cfg := by rw [← hd]; rfl
    rw [refill_eq]; exact e2
  · have e2 : ts.pullUnit.2.underrunFlag = ts.underrunFlag := by rw [← hd]; rfl
    rw [refill_eq]; exact e2
  · rw [refill_eq]; rfl
end Sys2Proof.Machine
end

