-- ==== Sys2Proof/Laws/Events.lean ====
section
/-! SUPPORT. The driver events that pull: each is one step of its track, its pull inside (20_memory R64, 43 R172, R182). -/

namespace Sys2Proof.Machine

open TrackState

@[simp] theorem thenTrack_next (s : State) (t : Track) (f : TrackState → TrackState) :
    thenTrack (.next s) t f = .next (s.setTrack t (f (s.track t))) := rfl

/-- TA where it is enabled: start, NEXTBIT on the pull port, finish. -/
theorem State.eventTa_eq (s : State) (t : Track) (now : Nat) :
    s.eventTa t now = .next (s.agentStep t (s.track t).taEnabled
      (((s.track t).ta s.params now).withReply (s.track t).startTa.nextBit.1 (s.track t).replyByte
        (s.track t).replyPacket)) := by
  have hd := TrackState.nextBit_driver (s.track t).startTa
  have hv : (s.track t).startTa.nextBit.2.replyByte = (s.track t).replyByte := by rw [← hd]; rfl
  have hk : (s.track t).startTa.nextBit.2.replyPacket = (s.track t).replyPacket := by rw [← hd]; rfl
  unfold State.eventTa State.agentStep
  cases he : (s.track t).taEnabled with
  | false => rfl
  | true =>
    have hc : (s.track t).startTa.pullCode = 1 := by
      have : (s.track t).cfg.kind = .timer := (of_decide_eq_true he).1
      simp [pullCode, startTa, this]
    have hp : takePull t (s.setTrack t (s.track t).startTa) =
        execPullBit t (s.setTrack t (s.track t).startTa) := by
      unfold takePull
      rw [State.track_setTrack, hc]; rfl
    simp only [if_true, hp, execPullBit, thenTrack, State.track_setTrack, State.setTrack_setTrack, TrackState.ta,
      TrackState.withReply, TrackState.pullBit, TrackState.finishTa, TrackState.emit, ← hv, ← hk]

/-- The driver's pull, and the bits it finds on the reply lines (43 R180, R182). -/
theorem takePull_ring {s : State} {t : Track} (hk : (s.track t).cfg.kind = .ring) : ∃ b v k,
    takePull t s = .next (s.setTrack t ((s.track t).pullUnit.2.withReply b v k)) ∧
    ((s.track t).pullUnit.2.withReply b v k).replyBits = (s.track t).pullUnit.1 := by
  have hg : (s.track t).pullUnit.2.cfg.gran = (s.track t).cfg.gran := by
    rw [← TrackState.pullUnit_driver]; rfl
  unfold takePull replyBits
  simp only [withReply, hg]
  unfold pullUnit pullCode
  rw [hk]
  cases (s.track t).cfg.gran with
  | bit => exact ⟨(s.track t).nextBit.1, _, _, rfl, rfl⟩
  | byte => exact ⟨_, (s.track t).nextByte.1, _, rfl, rfl⟩
  | packet => exact ⟨_, _, (s.track t).nextPacket.1, rfl, rfl⟩

/-- The end of a refill writes no reply line. -/
theorem TrackState.finishRefill_withReply (p : Params) (ts : TrackState) (b : Bool) (v : Byte) (k : Latch)
    (h : (ts.pullUnit.2.withReply b v k).replyBits = ts.pullUnit.1) :
    (ts.pullUnit.2.withReply b v k).finishRefill p = (ts.refill p).withReply b v k := by
  have push : ∀ (bits : List Bool) (u : TrackState),
      (u.withReply b v k).pushBits p bits = (u.pushBits p bits).withReply b v k := by
    intro bits
    induction bits with
    | nil => intro u; rfl
    | cons c cs ih => intro u; exact ih (u.push p.ringCap (p.desc c))
  have last : ∀ u : TrackState, (u.withReply b v k).endRefill p = (u.endRefill p).withReply b v k := by
    intro u; rw [endRefill_eq, endRefill_eq]; rfl
  unfold finishRefill refill
  rw [h, push, last]

/-- REFILL where it is enabled: the pull of the granularity on the pull port, then its descriptors into the ring. -/
theorem State.eventRefill_eq (s : State) (t : Track) : ∃ b v k,
    s.eventRefill t = .next (s.agentStep t ((s.track t).refillEnabled s.params)
      (((s.track t).refill s.params).withReply b v k)) := by
  unfold State.eventRefill State.agentStep
  cases he : (s.track t).refillEnabled s.params with
  | false => exact ⟨false, 0, default, rfl⟩
  | true =>
    obtain ⟨b, v, k, h1, h2⟩ := takePull_ring (s := s) (t := t) (of_decide_eq_true he).1
    refine ⟨b, v, k, ?_⟩
    simp only [if_true, h1, thenTrack, State.track_setTrack, State.setTrack_setTrack]
    rw [finishRefill_withReply s.params _ b v k h2]

end Sys2Proof.Machine
end

