-- ==== Sys2Proof/Laws/PerInstr.lean ====
section
/-! SUPPORT. What is said of every instruction as syntax, one lemma per constructor: its encoding has the length its own
opcode fixes, and the decoder finds its track there. -/

namespace Sys2Proof.Laws.EncodingHeader

/-- The words of a command are as many as its opcode fixes (30_encoding R81), and its header names its track (R80). A pull
is of the port's track, and its code is a request (R96). -/
def Statement (i : Instr) : Prop :=
  match encode i with
  | .command [] => False
  | .command (w0 :: ws) => i.isCommand = true ∧ trackOf w0 = i.track ∧ ws.length + 1 = commandLength w0
  | .pull t pq => i.isCommand = false ∧ t = i.track ∧ pq ≠ 0

theorem load (t : Track) (idx nbits : BitVec 7) (rsv : BitVec 5) (rep : BitVec 8) (buf : Buf) :
    Statement (.load t idx nbits rsv rep buf) :=
  ⟨rfl, trackOf_headerP _ _ _ _ _ _, by simp [commandLength, opcode_headerP, payloadWords]⟩

theorem seqw (t : Track) (idx nbits : BitVec 7) (rsv : BitVec 5) (rep : BitVec 8) (buf : Buf) :
    Statement (.seqw t idx nbits rsv rep buf) :=
  ⟨rfl, trackOf_headerP _ _ _ _ _ _, by simp [commandLength, opcode_headerP, payloadWords]⟩

theorem sched (t : Track) (rsv : BitVec 19) (cnt : BitVec 8) : Statement (.sched t rsv cnt) :=
  ⟨rfl, trackOf_headerC _ _ _ _, by simp [commandLength, opcode_headerC]⟩

theorem kill (t : Track) (rsv : BitVec 27) : Statement (.kill t rsv) :=
  ⟨rfl, trackOf_headerZ _ _ _, by simp [commandLength, opcode_headerZ]⟩

theorem wait (t : Track) (rsv : BitVec 19) (cnt : BitVec 8) : Statement (.wait t rsv cnt) :=
  ⟨rfl, trackOf_headerC _ _ _ _, by simp [commandLength, opcode_headerC]⟩

theorem stat (t : Track) (rsv : BitVec 27) : Statement (.stat t rsv) :=
  ⟨rfl, trackOf_headerZ _ _ _, by simp [commandLength, opcode_headerZ]⟩

theorem attach (t : Track) (kind gran : BitVec 2) (thresh : BitVec 8) (rsv : BitVec 15) (pin unit : BitVec 16) :
    Statement (.attach t kind gran thresh rsv pin unit) :=
  ⟨rfl, trackOf_headerA _ _ _ _ _, by simp [commandLength, opcode_headerA]⟩

theorem illegal0 (t : Track) (rest : BitVec 27) : Statement (.illegal0 t rest) :=
  ⟨rfl, trackOf_headerZ _ _ _, by simp [commandLength, opcode_headerZ]⟩

theorem illegal8F (op : BitVec 3) (t : Track) (rest : BitVec 27) : Statement (.illegal8F op t rest) := by
  refine ⟨rfl, trackOf_headerZ _ _ _, ?_⟩
  unfold commandLength
  rw [opcode_headerZ, if_neg (not_or.2 ⟨high_opcode op 1 rfl, high_opcode op 2 rfl⟩), if_neg (high_opcode op 7 rfl)]
  rfl

theorem pullBit (t : Track) : Statement (.pullBit t) := ⟨rfl, rfl, by decide⟩

theorem pullByte (t : Track) : Statement (.pullByte t) := ⟨rfl, rfl, by decide⟩

theorem pullPacket (t : Track) : Statement (.pullPacket t) := ⟨rfl, rfl, by decide⟩

end Sys2Proof.Laws.EncodingHeader
end

