-- ==== Sys2Proof/Tests/Slice0.lean ====
section
/-! SUPPORT. The model's own tests: well-formedness, decoding of words written out bit by bit, one step of each instruction
and event against the vectors of spec/95_test_vectors.md and the examples of the rules, and for each statement with
hypotheses a state and operands that meet them. -/

namespace Sys2Proof.Tests

open Sys2Proof.Machine

/-- Whether an outcome is a next state with a property. -/
def after (o : Host.Outcome State Fault Refusal) (f : State → Bool) : Bool :=
  match o with
  | .next s => f s
  | .fault _ => false
  | .refused _ => false

/-- The test packets of 95_test_vectors. -/
def pkt (b0 : Byte) (nbits : BitVec 7) (rep : BitVec 8) : Packet := { buf := b0 ++ (0 : BitVec 72), nbits := nbits, rep := rep }

/-- Small parameters: three registers, two entries, a ring of eight, and PA as the reset packet. -/
def small : Params where
  nMain := 3
  seqCap := 2
  ringCap := 8
  ticksPerUs := 1
  resetPacket := pkt 0xA0 4 0
  refuses := []

/-- The reset state with the small parameters. -/
def s0 : State := State.resetWith small

/-- A change of track MAIN. -/
def onMain (s : State) (f : TrackState → TrackState) : State := { s with main := f s.main }

/-! ## Well-formedness: each check refuses a term (30_encoding R92, R93) -/

theorem test_wf_load : Instr.wf (.load .main 1 4 1 0 0) = false := by decide
theorem test_wf_seqw : Instr.wf (.seqw .main 0 3 16 2 0) = false := by decide
theorem test_wf_sched : Instr.wf (.sched .main 1 2) = false := by decide
theorem test_wf_kill : Instr.wf (.kill .main 1) = false := by decide
theorem test_wf_wait : Instr.wf (.wait .main 1 0) = false := by decide
theorem test_wf_stat : Instr.wf (.stat .main 1) = false := by decide
theorem test_wf_attach : Instr.wf (.attach .main 1 0 0 1 5 1) = false := by decide
theorem test_wf_illegal0 : Instr.wf (.illegal0 .main 0) = false := by decide
theorem test_wf_illegal8F : Instr.wf (.illegal8F 7 .prog 0) = false := by decide
theorem test_wf_accepts : Instr.wf (.load .main 1 4 0 0 0) = true ∧ Instr.wf (.pullByte .prog) = true := by decide

/-! ## Decoding: words written out field by field from 30_encoding R84 to R89 and R96 -/

theorem test_decode_load :
    decode [0b0001#4 ++ 0b0#1 ++ 0b0000001#7 ++ 0b1010000#7 ++ 0b00000#5 ++ 0b00000011#8, 0x01020304#32, 0x05060708#32,
      0x090AFFFF#32] = .ok (.load .main 1 80 0 3 0x0102030405060708090A#80, []) := by rfl
theorem test_decode_seqw :
    decode [0b0010#4 ++ 0b1#1 ++ 0b0000001#7 ++ 0b0000011#7 ++ 0b00001#5 ++ 0b00000010#8, 0x60000000#32, 0#32, 0#32] =
      .ok (.seqw .prog 1 3 1 2 0x60000000000000000000#80, []) := by rfl
theorem test_decode_sched :
    decode [0b0011#4 ++ 0b0#1 ++ 0b0000000000000000000#19 ++ 0b00000010#8] = .ok (.sched .main 0 2, []) := by rfl
theorem test_decode_kill :
    decode [0b0100#4 ++ 0b1#1 ++ 0b000000000000000000000000000#27] = .ok (.kill .prog 0, []) := by rfl
theorem test_decode_wait :
    decode [0b0101#4 ++ 0b0#1 ++ 0b0000000000000000001#19 ++ 0b00000000#8] = .ok (.wait .main 1 0, []) := by rfl
theorem test_decode_stat :
    decode [0b0110#4 ++ 0b1#1 ++ 0b000000000000000000000000000#27] = .ok (.stat .prog 0, []) := by rfl
theorem test_decode_attach :
    decode [0b0111#4 ++ 0b0#1 ++ 0b10#2 ++ 0b01#2 ++ 0b00001000#8 ++ 0b000000000000000#15,
      0b0000000000000101#16 ++ 0b0000000000000010#16] = .ok (.attach .main 2 1 8 0 5 2, []) := by rfl
theorem test_decode_illegal0 :
    decode [0b0000#4 ++ 0b1#1 ++ 0b000000000000000000000000001#27] = .ok (.illegal0 .prog 1, []) := by rfl
theorem test_decode_illegal8F :
    decode [0b1010#4 ++ 0b0#1 ++ 0b000000000000000000000000000#27] = .ok (.illegal8F 2 .main 0, []) := by rfl
theorem test_decode_pulls :
    decodePull .main 0b01#2 = .ok (.pullBit .main) ∧ decodePull .prog 0b10#2 = .ok (.pullByte .prog) ∧
      decodePull .main 0b11#2 = .ok (.pullPacket .main) ∧ decodePull .main 0b00#2 = .error .noRequest :=
  ⟨rfl, rfl, rfl, rfl⟩
/-- a header alone is no LOAD (R81) -/
theorem test_decode_incomplete : decode [0x10108000#32] = .error (.incomplete 1 4) := by rfl

/-- The two words of V-E15, numbered as the opcode table numbers them. -/
theorem test_decode_tableWord :
    decodeTableWord 64 0x0005000074840000 = some (.attach .main 2 1 8 0 5 0) ∧ decodeTableWord 8 2 = some (.pullByte .main) :=
  ⟨rfl, rfl⟩

/-! ## Commands -/

/-- V-L1 -/
theorem test_load : after (exec (.load .main 1 4 0 0 0xA0000000000000000000#80) s0) (fun s =>
    s.responses == [0] && (s.main.register 1).slot1 == pkt 0xA0 4 0 && (s.main.register 1).pend && s.main.nextV &&
      s.main.nextIdx == 1 && s.main.maxLoaded == 1 && s.main.statusWord == 0x02042000#32) = true := by decide
/-- V-L9: EBADREG before EBADLEN -/
theorem test_load_badReg : after (exec (.load .prog 2 0 0 0 0) s0) (fun s =>
    s.responses == [1] && s.prog.statusWord == 0x02040001#32) = true := by decide
/-- R111: a pending request for register 0 is not displaced (V-A3) -/
theorem test_load_protected : after (exec (.load .main 2 4 0 0 0) (onMain s0 (fun m => m.loadRegister 0 (pkt 0x40 2 2))))
    (fun s => s.main.nextIdx == 0 && (s.main.register 2).pend && s.main.maxLoaded == 2) = true := by decide
/-- V-S1 -/
theorem test_seqw : after (exec (.seqw .main 0 3 0 2 0x60000000000000000000#80) s0) (fun s =>
    s.responses == [0] && s.main.entry 0 == pkt 0x60 3 2 && s.main.entry 1 == pkt 0xA0 4 0) = true := by decide
/-- V-S3: EBUSY before EBADIDX -/
theorem test_seqw_busy : after (exec (.seqw .main 16 3 0 2 0) (onMain s0 (fun m => { m with seqActive := true, seqLen := 1 })))
    (fun s => s.responses == [3]) = true := by decide
/-- the example of R122 -/
theorem test_sched : after (exec (.sched .main 0 2) s0) (fun s =>
    s.responses == [0] && s.main.seqActive && s.main.seqLen == 2 && s.main.seqCur == 0) = true := by decide
/-- V-S5: a count above SEQ_CAP -/
theorem test_sched_badCount : after (exec (.sched .main 0 3) s0) (fun s => s.responses == [4] && !s.main.seqActive) = true := by
  decide
/-- R124: the sequence ends, the latch stays (V-S9) -/
theorem test_kill : after (exec (.kill .main 0) (onMain s0 (fun m =>
    { m with seqActive := true, seqLen := 1, seqRetire := true, latch := (pkt 0x60 3 4).latch, bitPos := 1 }))) (fun s =>
    s.responses == [0] && !s.main.seqActive && s.main.seqLen == 0 && !s.main.seqRetire &&
      s.main.latch == (pkt 0x60 3 4).latch && s.main.bitPos == 1) = true := by decide
/-- V-S8: at most the threshold ends the WAIT at once -/
theorem test_wait_atOnce : after (exec (.wait .main 0 2) (onMain s0 (fun m => { m with seqActive := true, seqLen := 2 })))
    (fun s => s.responses == [0] && s.waitHold == none) = true := by decide
/-- the example of R126: the port is held, without a response -/
theorem test_wait_holds : after (exec (.wait .main 0 0) (onMain s0 (fun m => { m with seqActive := true, seqLen := 2 })))
    (fun s => s.responses == [] && s.waitHold == some { track := .main, thr := 0 }) = true := by decide
/-- V-C1 -/
theorem test_stat : after (exec (.stat .main 0) s0) (fun s => s.responses == [0x02040000#32]) = true := by decide
/-- V-C11: reserved bit -/
theorem test_stat_reserved : after (exec (.stat .main 1) s0) (fun s =>
    s.responses == [5] && s.main.statusWord == 0x02040005#32) = true := by decide
/-- V-C2; R237: ATTACH arms both timers -/
theorem test_attach : after (exec (.attach .main 1 0 0 0 5 1) s0) (fun s =>
    s.responses == [0] && s.main.tPhase == .armed && s.main.tB == .armed && s.main.statusWord == 0x02050000#32 && s.main.cfg.pin == 5 &&
      s.main.cfg.unit == 1) = true := by decide
/-- V-C8: no room for a unit above the threshold -/
theorem test_attach_noRoom : after (exec (.attach .main 2 1 1 0 5 0) s0) (fun s =>
    s.responses == [6] && s.main.cfg.kind == .none) = true := by decide
/-- V-E17 -/
theorem test_illegal0 : after (exec (.illegal0 .main 0) s0) (fun s => s.responses == [5] && s.main.lastStatus == .eIllegal) = true := by
  decide
/-- V-E18 -/
theorem test_illegal8F : after (exec (.illegal8F 7 .prog 0) s0) (fun s =>
    s.prog.lastStatus == .eIllegal && s.main.lastStatus == .ok) = true := by decide

/-! ## Pulls -/

/-- the example of R150 -/
theorem test_pullBit : after (exec (.pullBit .main) (onMain s0 (fun m => { m with latch := (pkt 0xA0 4 0).latch, bitPos := 1 })))
    (fun s => !s.main.replyBit && s.main.bitPos == 2) = true := by decide
/-- the example of R151: a boundary at the fifth bit -/
theorem test_pullByte : after (exec (.pullByte .main) (onMain s0 (fun m => { m with latch := (pkt 0xA0 4 0).latch })))
    (fun s => s.main.replyByte == 0xAA && s.main.bitPos == 4) = true := by decide
/-- the example of R152, and a discard (V-A8) -/
theorem test_pullPacket : after (exec (.pullPacket .main) (onMain s0 (fun m =>
    { m.loadRegister 1 (pkt 0xC0 2 0) with latch := (pkt 0xA0 4 0).latch, bitPos := 1 }))) (fun s =>
    s.main.replyPacket == (pkt 0xC0 2 0).latch && s.main.mix && s.main.bitPos == 2 && !s.main.nextV) = true := by
  decide
/-- R143: a register-0 packet with rep 3 is taken with 2 left (program P2, pull 5) -/
theorem test_pullBit_oneShot : after (exec (.pullBit .main) (onMain s0 (fun m => m.loadRegister 0 (pkt 0x40 2 3)))) (fun s =>
    !s.main.replyBit && s.main.curReg == 0 && (s.main.register 0).active.rep == 2) = true := by decide
/-- R141 (a): the boundary after the last repeat retires the entry and ends the sequence (program P3, pull 11) -/
theorem test_pullBit_retires : after (exec (.pullBit .main) (onMain s0 (fun m =>
    { m with seqActive := true, seqLen := 1, seqCur := 1, seqRetire := true }))) (fun s =>
    !s.main.seqActive && s.main.seqLen == 0 && s.main.curReg == 1 && s.main.replyBit) = true := by decide

/-! ## Driver events -/

/-- MAIN with the timer driver armed and a one bit to send -/
def armed : State := onMain s0 (fun m =>
  { m with cfg := { kind := .timer, gran := .bit, thresh := 0, pin := 5, unit := 1 }, tPhase := .armed, tA := .dueAtOnce, tB := .armed })

/-- V-D1 -/
theorem test_ta : after (applyMove (.ta .main 1000) armed) (fun s => s.main.wave == [⟨true, .ticks 58⟩] && s.main.pin &&
    s.main.tPhase == .high && s.main.tB == .due 1058 && s.main.tA == .due 1116) = true := by decide
/-- the example of R173: the second half of a zero bit -/
theorem test_tb : after (applyMove (.tb .main) (onMain armed (fun m => { m with tPhase := .high, pin := true })))
    (fun s => s.main.wave == [⟨false, .ticks 100⟩] && !s.main.pin && s.main.tPhase == .low) = true := by decide
/-- V-D2: TB is not enabled in ARMED -/
theorem test_tb_notEnabled : after (applyMove (.tb .main) armed) (fun s => s == armed) = true := by decide

/-- MAIN with the ring driver pulling bytes, running on an empty ring -/
def ringed : State := onMain s0 (fun m =>
  { m with cfg := { kind := .ring, gran := .byte, thresh := 0, pin := 5, unit := 0 }, refilling := true, running := true })

/-- V-D5: a byte of PA's stream, 1010 1010 -/
theorem test_refill : after (applyMove (.refill .main) ringed) (fun s => s.main.rCount == 8 && !s.main.refilling &&
    s.main.ring == [0x803A003A#32, 0x80640064#32, 0x803A003A#32, 0x80640064#32, 0x803A003A#32, 0x80640064#32,
      0x803A003A#32, 0x80640064#32]) = true := by decide
/-- the example of R185 -/
theorem test_drain : after (applyMove (.drain .main) (onMain ringed (fun m =>
    { m with ring := [0#32, 0x803A003A#32], rHead := 1, rCount := 1, refilling := false, frozen := true }))) (fun s =>
    s.main.wave == [⟨true, .ticks 58⟩, ⟨false, .ticks 58⟩] && !s.main.pin && s.main.rHead == 2 && s.main.rCount == 0 &&
      s.main.refilling && !s.main.frozen) = true := by decide
/-- V-D4 -/
theorem test_underrun : after (applyMove (.underrun .main) ringed) (fun s =>
    s.main.wave == [⟨false, .freeze⟩] && s.main.underrunFlag && s.main.frozen && !s.main.underrunEnabled) = true := by decide
/-- R95: the descriptor words for 327 ticks per microsecond -/
theorem test_desc : ({ small with ticksPerUs := 327 } : Params).desc true = 0xCA164A16#32 ∧
    ({ small with ticksPerUs := 327 } : Params).desc false = 0xFFBC7FBC#32 := by decide
/-- R15, R8: the idle packet starts with fourteen ones and a zero -/
theorem test_idle : (List.range 15).map (pbit Config.idlePacket.buf) = List.replicate 14 true ++ [false] := by decide

/-! ## The port and the step -/

/-- R81: three of four words have no effect but to be collected -/
theorem test_port_collects : after (applyMove (.word 0#32) { s0 with cmdWords := [0x10108000#32, 0xA0000000#32] }) (fun s =>
    s.cmdWords == [0x10108000#32, 0xA0000000#32, 0#32] && s.responses == [] && !s.main.nextV) = true := by decide
/-- V-E19: a LOAD with a reserved bit is consumed whole -/
theorem test_port_reserved : after (applyMove (.word 0#32) { s0 with cmdWords := [0x10108100#32, 0xA0000000#32, 0#32] })
    (fun s => s.cmdWords == [] && s.responses == [5] && !s.main.nextV) = true := by decide
/-- V-S12: a held port takes no word -/
theorem test_port_held : after (applyMove (.word 0x68000000#32) { s0 with waitHold := some { track := .main, thr := 0 } })
    (fun s => s.responses == [] && s.cmdWords == []) = true := by decide
/-- the WAIT of program P3 ends when the length allows -/
theorem test_waitEnd : after (applyMove .waitEnd { s0 with waitHold := some { track := .main, thr := 0 } })
    (fun s => s.responses == [0] && s.waitHold == none) = true := by decide
/-- STAT placed after reset is what the next step runs -/
theorem test_step_placed : after (step (s0.withFetchWord 32 0x60000000)) (fun s => s.responses == [0x02040000#32]) = true := by
  decide
/-- R96, R211: the pull code 3 placed after reset is pulled by a ring driver's refill: PA's four bits -/
theorem test_step_placedPull : after (step (s0.withFetchWord 8 3)) (fun s => s.main.replyPacket == (pkt 0xA0 4 0).latch &&
    s.main.rCount == 4) = true := by decide
/-- R211, R274: an unattached track pulls nothing, and its WAIT is held -/
theorem test_unattached : after (applyMove (.ta .main 0) { s0 with waitHold := some { track := .main, thr := 0 } })
    (fun s => s.main.latch.nbits == 0 && s.waitHold != none) = true := by decide
/-- R260 -/
theorem test_reset : after (applyMove .reset (onMain ringed (fun m => { m with mix := true, wave := [⟨false, .freeze⟩] })))
    (fun s => s == s0) = true := by decide

/-! ## Witnesses: a state and operands that meet the hypotheses of each statement that has some -/

theorem small_legal : small.Legal := by constructor <;> decide

/-- A state meets the invariant if its parameters are legal and both tracks pass. -/
theorem s0_inv : s0.Inv where
  params := small_legal
  tracks t := by
    cases t <;> constructor <;> decide

theorem armed_inv : armed.Inv where
  params := small_legal
  tracks t := by
    cases t <;> constructor <;> decide

/-- PA loaded into register 1 of MAIN, its request pending -/
def loaded : State := onMain s0 (fun m => m.loadRegister 1 (pkt 0xA0 4 0))

theorem loaded_inv : loaded.Inv where
  params := small_legal
  tracks t := by
    cases t <;> constructor <;> decide

/-- register 0 of MAIN repeating, with one repeat left -/
def repeating : State := onMain s0 (fun m =>
  { m with regs := m.regs.set 0 { slot0 := pkt 0x40 2 1, slot1 := pkt 0xA0 4 0, act := false, pend := false }, curReg := 0 })

theorem repeating_inv : repeating.Inv where
  params := small_legal
  tracks t := by
    cases t <;> constructor <;> decide

/-- a sequence of two entries active on MAIN, the last repeat of the first in flight -/
def sequencing : State := onMain s0 (fun m =>
  { m with seqActive := true, seqLen := 2, seqRetire := true, latch := (pkt 0xA0 4 0).latch, bitPos := 4 })

theorem sequencing_inv : sequencing.Inv where
  params := small_legal
  tracks t := by
    cases t <;> constructor <;> decide

/-- MAIN with the ring driver pulling bits, one descriptor held, not asked to fill -/
def draining : State := onMain s0 (fun m =>
  { m with
    cfg := { kind := .ring, gran := .bit, thresh := 0, pin := 5, unit := 0 }
    ring := [0x803A003A#32, 0, 0, 0, 0, 0, 0, 0], rCount := 1, running := true })

theorem draining_inv : draining.Inv where
  params := small_legal
  tracks t := by
    cases t <;> constructor <;> decide

theorem draining_driverInv : draining.DriverInv := fun t => by
  have all : (draining.track t).ring.all (fun d => !descL1 d) = true := by cases t <;> decide
  have low : ∀ d ∈ (draining.track t).ring, descL1 d = false := fun d hd => by simpa using List.all_eq_true.1 all d hd
  cases t <;> constructor <;> first | exact low | decide

/-- the same with room for the last descriptor of a burst -/
def filling : State := onMain draining (fun m => { m with rCount := 7, refilling := true })

theorem filling_inv : filling.Inv where
  params := small_legal
  tracks t := by
    cases t <;> constructor <;> decide

theorem filling_driverInv : filling.DriverInv := fun t => by
  have all : (filling.track t).ring.all (fun d => !descL1 d) = true := by cases t <;> decide
  have low : ∀ d ∈ (filling.track t).ring, descL1 d = false := fun d hd => by simpa using List.all_eq_true.1 all d hd
  cases t <;> constructor <;> first | exact low | decide

/-- a WAIT held on MAIN, which has no driver and two entries to send -/
def hung : State := { sequencing with waitHold := some { track := .main, thr := 1 } }

theorem witness_PayloadIsBigEndian : ∃ (w0 w1 w2 w3 : Word) (buf : Buf), ∃ i rest,
    decode [w0, w1, w2, w3] = .ok (i, rest) ∧
      (∃ t idx nbits rsv rep, i = .load t idx nbits rsv rep buf ∨ i = .seqw t idx nbits rsv rep buf) ∧
      (2 : Nat) < 3 ∧ (1 : Nat) < 4 ∧ 4 * 2 + 1 < 10 :=
  ⟨0x10108000#32, 0xA0000000#32, 0, 0, _, _, _, rfl, ⟨_, _, _, _, _, .inl rfl⟩, by decide, by decide, by decide⟩

/-- the boundary values of the byte index: bytes 0 and 9 -/
theorem witness_PayloadIsBigEndian_ends : 4 * 0 + 0 < 10 ∧ 4 * 2 + 1 = 9 ∧ byteOf 0x0102030405060708090A#80 0 = 1 ∧
    byteOf 0x0102030405060708090A#80 9 = 10 := by decide

theorem witness_PacketBitOrder : (79 : Nat) < 80 ∧ pbit 1 79 = true ∧ pbit 1 0 = false := by decide

theorem witness_DescriptorOfBit : ∃ p : Params, p.Legal ∧ p.ticksPerUs = 327 :=
  ⟨{ small with ticksPerUs := 327 }, by constructor <;> decide, rfl⟩

theorem witness_CommandRunsOnLastWord :
    (s0.waitHold = none ∧ s0.cmdWords ++ [0x10108000#32] = 0x10108000#32 :: [] ∧ [0x10108000#32].length < 4) ∧
    (∃ s : State, s.waitHold = none ∧ s.cmdWords ++ [0#32] = 0x10108000#32 :: [0#32, 0#32, 0#32]) ∧
    (∃ s : State, s.waitHold = none ∧ s.cmdWords ++ [0x00050001#32] = 0x72000000#32 :: [0x00050001#32]) ∧
    s0.cmdWords ++ [0x40000000#32] = 0x40000000#32 :: [] :=
  ⟨⟨rfl, rfl, by decide⟩, ⟨{ s0 with cmdWords := [0x10108000#32, 0#32, 0#32] }, rfl, rfl⟩,
    ⟨{ s0 with cmdWords := [0x72000000#32] }, rfl, rfl⟩, rfl⟩

theorem witness_StepRunsDecodedInstruction :
    (∃ (s : State) (ms : List Move) (w : Word), ∃ i rest, s.pending = .word w :: ms ∧ s.waitHold = none ∧
      decode (s.cmdWords ++ [w]) = .ok (i, rest)) ∧
    (∃ (s : State) (ms : List Move), s.pending = .ta .main 7 :: ms ∧ (s.track .main).taEnabled = true) ∧
    (∃ (s : State) (ms : List Move), s.pending = .refill .main :: ms ∧ (s.track .main).refillEnabled s.params = true) ∧
    s0.pending = [] :=
  ⟨⟨{ s0 with pending := [.word 0x40000000#32] }, [], 0x40000000#32, _, _, rfl, rfl, rfl⟩,
    ⟨{ armed with pending := [.ta .main 7] }, [], rfl, by decide⟩,
    ⟨{ ringed with pending := [.refill .main] }, [], rfl, by decide⟩, rfl⟩

theorem witness_PlacedInstructionRuns : (∃ i, decodeTableWord 32 0x40000000 = some i) ∧ ∃ i, decodeTableWord 8 3 = some i :=
  ⟨⟨_, rfl⟩, ⟨_, rfl⟩⟩

/-- LOAD: the highest legal index, with its register; and an index out of range, where the hypothesis is empty -/
theorem witness_LoadResult : (∃ g : Register, (2 : BitVec 7).toNat < s0.params.nreg .main ∧
      (s0.track .main).regs[(2 : BitVec 7).toNat]? = some g) ∧ ¬(2 : BitVec 7).toNat < s0.params.nreg .prog :=
  ⟨⟨_, by decide, rfl⟩, by decide⟩

theorem witness_SeqwResult : (s0.track .main).seq.length = s0.params.seqCap ∧ (1 : BitVec 7).toNat < s0.params.seqCap ∧
    ¬(2 : BitVec 7).toNat < s0.params.seqCap := by decide

theorem witness_WaitResult : hung.waitHold = some { track := .main, thr := 1 } ∧
    (∃ s : State, s.waitHold = some { track := .main, thr := 2 } ∧ (s.track .main).seqLen.toNat ≤ 2) ∧ s0.waitHold = none :=
  ⟨rfl, ⟨{ sequencing with waitHold := some { track := .main, thr := 2 } }, rfl, by decide⟩, rfl⟩

theorem witness_IllegalOpcodes : s0.waitHold = none ∧ s0.cmdWords = [] ∧ (0x00000000#32).extractLsb' 28 4 = 0 ∧
    8 ≤ ((0x80000000#32).extractLsb' 28 4).toNat ∧ 8 ≤ ((0xF8000000#32).extractLsb' 28 4).toNat := by decide

theorem witness_ReservedBits :
    (∃ s : State, s.waitHold = none ∧ s.cmdWords ++ [0#32] = 0x10108100#32 :: [0#32, 0#32, 0#32] ∧
      (0x10108100#32).extractLsb' 28 4 = 1 ∧ (0x10108100#32).extractLsb' 8 5 ≠ 0) ∧
    ((0x50000100#32).extractLsb' 28 4 = 5 ∧ (0x50000100#32).extractLsb' 8 19 ≠ 0) ∧
    ((0x44000000#32).extractLsb' 28 4 = 4 ∧ (0x44000000#32).extractLsb' 0 27 ≠ 0) ∧
    ((0x72000001#32).extractLsb' 28 4 = 7 ∧ (0x72000001#32).extractLsb' 0 15 ≠ 0) ∧
    (0#32).extractLsb' 16 16 = (0x0000FFFF#32).extractLsb' 16 16 :=
  ⟨⟨{ s0 with cmdWords := [0x10108100#32, 0#32, 0#32] }, rfl, rfl, by decide, by decide⟩, by decide, by decide, by decide,
    by decide⟩

theorem witness_FirstCauseIsReported : Instr.isCommand (.load .main 3 0 1 0 0) = true ∧
    firstCause (s0.causes (.load .main 3 0 1 0 0)) = some .eIllegal ∧
    firstCause (s0.causes (.load .main 3 0 0 0 0)) = some .eBadReg ∧
    firstCause (s0.causes (.load .main 2 81 0 0 0)) = some .eBadLen ∧
    firstCause (s0.causes (.load .main 2 80 0 0 0)) = none := by decide

theorem witness_IdempotentCommands :
    (∃ s1 s2, exec (.load .main 1 4 0 0 0) s0 = .next s1 ∧ exec (.load .main 1 4 0 0 0) s1 = .next s2) ∧
    (∃ s1 s2, exec (.kill .main 0) s0 = .next s1 ∧ exec (.kill .main 0) s1 = .next s2) ∧
    (∃ s1, exec (.sched .main 0 1) s0 = .next s1 ∧ (s1.track .main).lastStatus = .ok) :=
  ⟨⟨_, _, rfl, rfl⟩, ⟨_, _, rfl, rfl⟩, ⟨_, rfl, by decide⟩⟩

theorem witness_OnlyKillEndsSequence : (sequencing.track .main).seqActive = true ∧
    Instr.isCommand (.sched .main 0 1) = true ∧ (∀ rsv, Instr.sched .main 0 1 ≠ .kill .main rsv) ∧
    ∃ s', exec (.sched .main 0 1) sequencing = .next s' :=
  ⟨rfl, rfl, fun _ h => (nomatch h), ⟨_, rfl⟩⟩

theorem witness_LatchIsolated : (∃ s', applyMove (.word 0x40000000#32) sequencing = .next s') ∧
    (∃ s', applyMove .waitEnd hung = .next s') ∧ (∃ s', applyMove (.drain .main) draining = .next s') ∧
    (∃ s', applyMove (.tb .main) armed = .next s') ∧ ∃ s', applyMove (.underrun .main) ringed = .next s' :=
  ⟨⟨_, rfl⟩, ⟨_, rfl⟩, ⟨_, rfl⟩, ⟨_, rfl⟩, ⟨_, rfl⟩⟩

theorem witness_OtherTrackUntouched : ∃ s', exec (.pullPacket .main) loaded = .next s' := ⟨_, rfl⟩

theorem witness_TracksAreIndependent : ∃ s1 s2 s1' s2' : State, s1.params = s2.params ∧ s1.cmdWords = s2.cmdWords ∧
    s1.waitHold = s2.waitHold ∧ s1.track .prog = s2.track .prog ∧ (s1.track .main).cfg = (s2.track .main).cfg ∧
    s1.track .main ≠ s2.track .main ∧ applyMove (.word 0x68000000#32) s1 = .next s1' ∧
    applyMove (.word 0x68000000#32) s2 = .next s2' :=
  ⟨s0, loaded, _, _, rfl, rfl, rfl, rfl, rfl, by decide, rfl, rfl⟩

/-- a sequence buffer of 128 entries -/
def full : Params := { small with seqCap := 128 }

/-- the last repeat of entry 127 of a full buffer in flight: the cursor's boundary value -/
def lastEntry : TrackState :=
  { TrackState.resetWith full full.nMain with
    seqActive := true, seqLen := 1, seqCur := 127, seqRetire := true, latch := (pkt 0xA0 4 0).latch, bitPos := 4 }

theorem lastEntry_inv : full.Legal ∧ lastEntry.Inv full .main := by
  have legal : ∀ e ∈ lastEntry.seq, e.Legal := fun e h => by rw [(List.mem_replicate.1 h).2]; decide
  have size : lastEntry.seq.length = full.seqCap := List.length_replicate
  refine ⟨by constructor <;> decide, ?_⟩
  constructor <;> first | exact legal | exact size | decide

/-- one state for each step of the advance decision, and the last entry of a full buffer -/
theorem witness_AdvanceDecision :
    (full.Legal ∧ lastEntry.Inv full .main ∧ lastEntry.seqCur = 127) ∧
    (small.Legal ∧ sequencing.main.Inv small .main ∧ sequencing.main.seqRetire = true) ∧
    (repeating.main.Inv small .main ∧ repeating.main.curReg = 0 ∧ 0 < (repeating.main.register 0).active.rep.toNat) ∧
    (loaded.main.Inv small .main ∧ loaded.main.nextV = true) ∧ (s0.main.Inv small .main ∧ s0.main.nextV = false) :=
  ⟨⟨lastEntry_inv.1, lastEntry_inv.2, rfl⟩, ⟨small_legal, sequencing_inv.tracks .main, rfl⟩, ⟨repeating_inv.tracks .main, rfl, by decide⟩,
    ⟨loaded_inv.tracks .main, by decide⟩, s0_inv.tracks .main, rfl⟩

theorem witness_TakeResult : (∃ g, s0.main.regs[(0 : BitVec 7).toNat]? = some g) ∧
    ∃ g, loaded.main.regs[(1 : BitVec 7).toNat]? = some g ∧ g.pend = true := ⟨⟨_, rfl⟩, ⟨_, rfl, by decide⟩⟩

theorem witness_AdvanceLoadsLegalPacket : small.Legal ∧ s0.main.Inv small .main := ⟨small_legal, s0_inv.tracks .main⟩

/-- maxLoaded at its bound, curReg at both ends of the cycle -/
theorem witness_RoundRobin : small.Legal ∧ s0.main.Inv small .main ∧ s0.main.seqActive = false ∧ s0.main.nextV = false ∧
    (s0.main.curReg = 0 → (s0.main.register 0).active.rep = 0) ∧ s0.main.curReg = s0.main.maxLoaded :=
  ⟨small_legal, s0_inv.tracks .main, rfl, rfl, by decide, rfl⟩

theorem witness_RegisterZeroBudget : s0.Inv ∧ (s0.track .main).seqActive = false ∧ repeating.Inv ∧
    (repeating.track .main).seqActive = false ∧ 1 ≤ (1 : BitVec 7).toNat ∧ (80 : BitVec 7).toNat ≤ 80 :=
  ⟨s0_inv, rfl, repeating_inv, rfl, by decide, by decide⟩

theorem witness_SequenceTransmission : s0.Inv ∧ (s0.track .main).seqActive = false ∧ 1 ≤ (1 : BitVec 8).toNat ∧
    (2 : BitVec 8).toNat ≤ s0.params.seqCap := ⟨s0_inv, rfl, by decide, by decide⟩

theorem witness_LoadedPacketIsTakenNext :
    (s0.Inv ∧ (2 : BitVec 7).toNat < s0.params.nreg .main ∧ 1 ≤ (80 : BitVec 7).toNat ∧ (80 : BitVec 7).toNat ≤ 80) ∧
    (small.Legal ∧ loaded.main.Inv small .main ∧ (1 : BitVec 7).toNat < small.nreg .main ∧
      (loaded.main.register 1).pend = true ∧ (loaded.main.register 1).inactive = pkt 0xA0 4 0 ∧
      loaded.main.seqActive = false ∧ ¬(loaded.main.curReg = 0 ∧ 0 < (loaded.main.register 0).active.rep.toNat) ∧
      loaded.main.nextV = true ∧ loaded.main.nextIdx = 1) :=
  ⟨⟨s0_inv, by decide, by decide, by decide⟩, small_legal, loaded_inv.tracks .main, by decide, by decide, by decide, rfl,
    by decide, by decide, by decide⟩

/-- an exhausted packet, and one with bits left -/
theorem witness_PullBitResult : (s0.Inv ∧ (s0.track .main).bitPos = (s0.track .main).latch.nbits) ∧
    ∃ s : State, s.Inv ∧ (s.track .main).bitPos ≠ (s.track .main).latch.nbits :=
  ⟨⟨s0_inv, rfl⟩, onMain s0 (fun m => { m with latch := (pkt 0xA0 4 0).latch, bitPos := 3 }), {
    params := small_legal
    tracks := fun t => by
      cases t <;> constructor <;> decide }, by decide⟩

theorem witness_PullFrame : (∃ s', exec (.pullBit .main) loaded = .next s') ∧
    (∃ s', exec (.pullByte .main) repeating = .next s') ∧ ∃ s', exec (.pullPacket .main) sequencing = .next s' :=
  ⟨⟨_, rfl⟩, ⟨_, rfl⟩, ⟨_, rfl⟩⟩

theorem witness_PullsAreEquivalent : small.Legal ∧ loaded.main.Inv small .main ∧ loaded.main.bitPos = loaded.main.latch.nbits :=
  ⟨small_legal, loaded_inv.tracks .main, by decide⟩

/-- a move of another agent, an event that is not enabled, and an unattached track -/
theorem witness_OnlyTheTracksDriverPulls :
    (∃ s', armed.Inv ∧ applyMove (.tb .main) armed = .next s' ∧ Move.tb .main ≠ .reset) ∧
    (∃ s', draining.Inv ∧ applyMove (.refill .main) draining = .next s' ∧
      (draining.track .main).refillEnabled draining.params = false) ∧
    ∃ s', s0.Inv ∧ applyMove (.ta .main 0) s0 = .next s' ∧ (s0.track .main).cfg.kind = .none :=
  ⟨⟨_, armed_inv, rfl, fun h => (nomatch h)⟩, ⟨_, draining_inv, rfl, by decide⟩, _, s0_inv, rfl, rfl⟩

theorem witness_TimerAResult : (armed.track .main).cfg.kind = .timer ∧ (armed.track .main).tPhase = .armed := ⟨rfl, rfl⟩

theorem witness_TimerBResult : ∃ s : State, (s.track .main).cfg.kind = .timer ∧ (s.track .main).tPhase = .high :=
  ⟨onMain armed (fun m => { m with tPhase := .high, pin := true }), rfl, rfl⟩

theorem witness_TimerEventsAlternate :
    ((∃ s', applyMove (.ta .main 0) armed = .next s') ∧ (armed.track .main).taEnabled = true) ∧
    (∃ s s' : State, applyMove (.tb .main) s = .next s' ∧ (s.track .main).tbEnabled = true) ∧
    ((∃ s', applyMove (.word 0x60000000#32) armed = .next s') ∧ (armed.track .main).cfg.kind ≠ .none) ∧
    ∃ s s' : State, applyMove (.word 0x00050001#32) s = .next s' ∧ (s.track .main).cfg.kind = .none ∧
      (s'.track .main).cfg.kind = .timer :=
  ⟨⟨⟨_, rfl⟩, by decide⟩, ⟨onMain armed (fun m => { m with tPhase := .high, pin := true }), _, rfl, by decide⟩,
    ⟨⟨_, rfl⟩, by decide⟩, ⟨{ s0 with cmdWords := [0x72000000#32] }, _, rfl, rfl, by decide⟩⟩

/-- a run with a producer step between TA and TB; a run of the driver alone; TA and TB in turn -/
theorem witness_TimerWaveform : (armed.track .main).cfg.kind = .timer ∧
    Move.reset ∉ [Move.ta .main 0, .word 0x68000000#32, .tb .main] ∧
    (∀ m ∈ [Move.ta .main 0, .tb .main], m = .tb .main ∨ ∃ now, m = .ta .main now) ∧
    [Move.ta .main 0, .tb .main] = [0].flatMap (fun now => [.ta .main now, .tb .main]) ∧
    (armed.track .main).tPhase = .armed :=
  ⟨rfl, by decide, by simp, rfl, rfl⟩

/-- room for exactly one unit -/
theorem witness_RefillResult : filling.Inv ∧ (filling.track .main).cfg.kind = .ring ∧
    (filling.track .main).refilling = true ∧ 1 = filling.params.ringCap - (filling.track .main).rCount :=
  ⟨filling_inv, rfl, rfl, by decide⟩

theorem witness_DrainResult : draining.Inv ∧ (draining.track .main).cfg.kind = .ring ∧
    (draining.track .main).running = true ∧ (draining.track .main).ringQueue draining.params.ringCap = 0x803A003A#32 :: [] :=
  ⟨draining_inv, rfl, rfl, by decide⟩

theorem witness_UnderrunResult : (ringed.track .main).cfg.kind = .ring ∧ (ringed.track .main).running = true ∧
    (ringed.track .main).rCount = 0 ∧ (ringed.track .main).frozen = false := ⟨rfl, rfl, rfl, rfl⟩

/-- asked in the middle of a burst; the DRAIN that asks; the REFILL that ends a burst; the ATTACH that asks -/
theorem witness_RefillThreshold :
    (draining.Inv ∧ draining.DriverInv ∧ (draining.track .main).drainEnabled = true ∧
      ∃ s', applyMove (.drain .main) draining = .next s' ∧ (s'.track .main).rCount ≤ (draining.track .main).cfg.thresh.toNat) ∧
    (filling.Inv ∧ filling.DriverInv ∧ (filling.track .main).cfg.kind = .ring ∧ (filling.track .main).refilling = true ∧
      ∃ s', applyMove (.refill .main) filling = .next s' ∧ (s'.track .main).refilling = false) ∧
    ((s0.track .main).cfg.kind = .none ∧
      ∃ s', applyMove (.word 0x00050000#32) { s0 with cmdWords := [0x74000000#32] } = .next s' ∧
        (s'.track .main).cfg.kind = .ring) :=
  ⟨⟨draining_inv, draining_driverInv, by decide, _, rfl, by decide⟩,
    ⟨filling_inv, filling_driverInv, rfl, rfl, _, rfl, by decide⟩, rfl, _, rfl, by decide⟩

theorem witness_RingWaveform : filling.Inv ∧ (filling.track .main).cfg.kind = .ring ∧
    Move.reset ∉ [Move.refill .main, .drain .main] ∧ Move.underrun .main ∉ [Move.refill .main, .drain .main] ∧
    (∀ m ∈ [Move.refill .main, .drain .main], m = .refill .main ∨ m = .drain .main) ∧
    ((filling.track .main).cfg.gran = .packet → (filling.track .main).bitPos = (filling.track .main).latch.nbits) :=
  ⟨filling_inv, rfl, by decide, by decide, by decide, by decide⟩

theorem witness_NotEnabledEventsDoNothing : (s0.track .main).taEnabled = false ∧ (armed.track .main).tbEnabled = false ∧
    (draining.track .main).refillEnabled draining.params = false ∧ (ringed.track .main).drainEnabled = false ∧
    (draining.track .main).underrunEnabled = false ∧ (s0.track .main).cfg.kind = .none := by decide

theorem witness_UnloadedTrackIdles : small.Legal := small_legal

theorem witness_ResetMeetsInvariants : small.Legal ∧ Params.default.Legal :=
  ⟨small_legal, by constructor <;> decide⟩

theorem witness_StepKeepsInvariant : ∃ s s' : State, s.Inv ∧ step s = .next s' ∧ s.pending = [.ta .main 3] :=
  ⟨{ armed with pending := [.ta .main 3] }, _, { params := armed_inv.params, tracks := armed_inv.tracks }, rfl, rfl⟩

theorem witness_StepKeepsDriverInvariant : ∃ s s' : State, s.Inv ∧ s.DriverInv ∧ step s = .next s' ∧
    s.pending = [.drain .main] :=
  ⟨{ draining with pending := [.drain .main] }, _, { params := draining_inv.params, tracks := draining_inv.tracks },
    draining_driverInv, rfl, rfl⟩

theorem witness_StepKeepsPortInvariant : ∃ s s' : State, s.PortInv ∧ step s = .next s' ∧ s.cmdWords ≠ [] :=
  ⟨{ s0 with cmdWords := [0x10108000#32], pending := [.word 0#32] }, _,
    { partOnly := fun w ws h => by cases h; decide, heldEmpty := fun h => absurd rfl h }, rfl, by decide⟩

theorem witness_DriversNeverMixPulls : ∃ s' : State, (∀ t, (s0.track t).WholePackets) ∧
    applyMove (.word 0#32) s0 = .next s' :=
  ⟨_, fun t => by cases t <;> exact ⟨rfl, fun _ => rfl⟩, rfl⟩

theorem witness_MonotoneStatusFields : ∃ s' : State, sequencing.Inv ∧ Move.word 0x40000000#32 ≠ .reset ∧
    applyMove (.word 0x40000000#32) sequencing = .next s' := ⟨_, sequencing_inv, fun h => (nomatch h), rfl⟩

theorem witness_AttachIsOncePerReset : (∃ s', applyMove (.word 0#32) armed = .next s' ∧ (armed.track .main).cfg.kind ≠ .none) ∧
    ∃ s s' : State, applyMove (.word 0x00050001#32) s = .next s' ∧ (s'.track .main).cfg ≠ (s.track .main).cfg :=
  ⟨⟨_, rfl, by decide⟩, { s0 with cmdWords := [0x72000000#32] }, _, rfl, by decide⟩

theorem witness_WaitOnUnattachedTrackHangs : ∃ s' : State, hung.waitHold = some { track := .main, thr := 1 } ∧
    (hung.track .main).cfg.kind = .none ∧ 1 < (hung.track .main).seqLen.toNat ∧ Move.waitEnd ≠ .reset ∧
    applyMove .waitEnd hung = .next s' :=
  ⟨_, rfl, rfl, by decide, fun h => (nomatch h), rfl⟩

end Sys2Proof.Tests
end

section
/-!
The packet buffer's bit order (00_scope R8): a bit of a byte of the buffer is a bit of the 80-bit value, and a packet's
bits are those of the 80-bit value read from the top.
-/
namespace Sys2Proof.Machine

/-- Byte `k` starts at bit `72 - 8 * k` of the buffer (00_scope R8). -/
theorem byteOf_getLsbD (buf : Buf) (k : Nat) {j : Nat} (hj : j < 8) :
    (byteOf buf k).getLsbD j = buf.getLsbD (72 - 8 * k + j) := by
  simp [byteOf, hj]

/-- Inside the buffer `pbit` reads its byte and never the absent bit. -/
theorem pbit_eq_byteOf_getLsbD (buf : Buf) {i : Nat} (hi : i < 80) :
    pbit buf i = (byteOf buf (i / 8)).getLsbD (7 - i % 8) := if_pos hi

/-- Bytes from the top and bits of a byte from its top together run through the buffer from its top. -/
theorem pbit_eq_getMsbD (buf : Buf) {i : Nat} (hi : i < 80) : pbit buf i = buf.getMsbD i := by
  have position : 72 - 8 * (i / 8) + (7 - i % 8) = 80 - 1 - i := by omega
  calc pbit buf i
      = (byteOf buf (i / 8)).getLsbD (7 - i % 8) := pbit_eq_byteOf_getLsbD buf hi
    _ = buf.getLsbD (72 - 8 * (i / 8) + (7 - i % 8)) := byteOf_getLsbD buf (i / 8) (by omega)
    _ = buf.getLsbD (80 - 1 - i) := by rw [position]
    _ = buf.getMsbD i := by simp [BitVec.getMsbD, hi]

/-- Settles O5: `pbit` reads its byte by definition, and the byte's place in the buffer makes that the bit from the
top. -/
theorem packetBitOrder : Obligations.PacketBitOrder :=
  fun buf _ hi => ⟨pbit_eq_byteOf_getLsbD buf hi, pbit_eq_getMsbD buf hi⟩

end Sys2Proof.Machine
end

section
/-!
What a move of the environment can do, said once: what an accepted command writes on its track, what a driver event does
to its track, and from these the effect of a command, of a move and of a step on one track (20_memory R64 to R66). An
invariant of a track holds for ever when it holds at reset and `CommandUpdate` and `EventUpdate` keep it.
-/
namespace Sys2Proof.Machine

variable {p : Params} {t : Track} {ts u : TrackState} {s s' : State} {i : Instr} {m : Move}

/-- What an accepted command writes on its track before it ends OK, with the checks it has passed (40 R110, 41 R120, R122,
R124, 44 R210). STAT and WAIT write nothing there. -/
inductive CommandUpdate (p : Params) (t : Track) (ts : TrackState) : Instr → TrackState → Prop
  | load (idx nbits : BitVec 7) (rep : BitVec 8) (buf : Buf)
      (hidx : idx.toNat < p.nreg t) (hlen : badLength nbits = false) :
      CommandUpdate p t ts (.load t idx nbits 0 rep buf)
        (ts.loadRegister idx { buf := buf, nbits := nbits, rep := rep })
  | seqw (idx nbits : BitVec 7) (rep : BitVec 8) (buf : Buf)
      (hidle : ts.seqActive = false) (hidx : idx.toNat < p.seqCap) (hlen : badLength nbits = false) :
      CommandUpdate p t ts (.seqw t idx nbits 0 rep buf) (ts.setEntry idx { buf := buf, nbits := nbits, rep := rep })
  | sched (cnt : BitVec 8) (hidle : ts.seqActive = false) (hpos : cnt ≠ 0) (hcnt : cnt.toNat ≤ p.seqCap) :
      CommandUpdate p t ts (.sched t 0 cnt) { ts with seqActive := true, seqLen := cnt, seqCur := 0, seqRetire := false }
  | kill :
      CommandUpdate p t ts (.kill t 0) { ts with seqActive := false, seqLen := 0, seqCur := 0, seqRetire := false }
  | attachTimer (kind gran : BitVec 2) (thresh : BitVec 8) (pin unit : BitVec 16)
      (hnone : ts.cfg.kind = .none) (hkind : kindOf kind = some .timer) :
      CommandUpdate p t ts (.attach t kind gran thresh 0 pin unit) (ts.attachTimer pin unit)
  | attachRing (kind gran : BitVec 2) (g : Gran) (thresh : BitVec 8) (pin unit : BitVec 16)
      (hnone : ts.cfg.kind = .none) (hkind : kindOf kind = some .ring) (hgran : granOf gran = some g)
      (hfit : thresh.toNat + g.unit ≤ p.ringCap) :
      CommandUpdate p t ts (.attach t kind gran thresh 0 pin unit) (ts.attachRing g thresh pin unit)

/-- What an enabled driver event does to its track (43 R172, R173, R182, R185, R186); a pull inside it leaves its reply on
the reply lines. -/
inductive EventUpdate (p : Params) (t : Track) (ts : TrackState) : Move → TrackState → Prop
  | ta (now : Nat) (he : ts.taEnabled = true) :
      EventUpdate p t ts (.ta t now)
        ((ts.ta p now).withReply ts.startTa.nextBit.1 ts.replyByte ts.replyPacket)
  | tb (he : ts.tbEnabled = true) : EventUpdate p t ts (.tb t) (ts.tb p)
  | refill (he : ts.refillEnabled p = true) (b : Bool) (v : Byte) (k : Latch) :
      EventUpdate p t ts (.refill t) ((ts.refill p).withReply b v k)
  | drain (he : ts.drainEnabled = true) : EventUpdate p t ts (.drain t) (ts.drain p)
  | underrun (he : ts.underrunEnabled = true) : EventUpdate p t ts (.underrun t) ts.underrun

/-- What a command does to the block: it ends with a status code, having written its track first if it is accepted, or it
answers a word, or it holds the command port. -/
inductive CommandEffect (s : State) : Instr → State → Prop
  | ended (i : Instr) (c : Status) : CommandEffect s i (s.status i.track c)
  | updated (i : Instr) (u : TrackState) (hu : CommandUpdate s.params i.track (s.track i.track) i u) :
      CommandEffect s i ((s.setTrack i.track u).status i.track .ok)
  | answered (t : Track) : CommandEffect s (.stat t 0) (s.respond (s.track t).statusWord)
  | waitEnded (t : Track) (cnt : BitVec 8) (hd : s.waitDone { track := t, thr := cnt } = true) :
      CommandEffect s (.wait t 0 cnt) (({ s with waitHold := none }).status t .ok)
  | held (t : Track) (cnt : BitVec 8) (hd : s.waitDone { track := t, thr := cnt } = false) :
      CommandEffect s (.wait t 0 cnt) { s with waitHold := some { track := t, thr := cnt } }

/-- What a move does to the block: nothing where it is not enabled; else the effect of the word, of the end of a WAIT, of
the driver event or of the reset input. -/
inductive MoveEffect (s : State) : Move → State → Prop
  | kept (m : Move) : MoveEffect s m s
  | collected (w : Word) (e : DecodeError) (hw : s.waitHold = none) (hd : decode (s.cmdWords ++ [w]) = .error e) :
      MoveEffect s (.word w) { s with cmdWords := s.cmdWords ++ [w] }
  | command (w : Word) (i : Instr) (after : List Word) (s' : State) (hw : s.waitHold = none)
      (hd : decode (s.cmdWords ++ [w]) = .ok (i, after)) (he : CommandEffect { s with cmdWords := [] } i s') :
      MoveEffect s (.word w) s'
  | waitEnded (h : WaitHold) (hw : s.waitHold = some h) (hd : s.waitDone h = true) :
      MoveEffect s .waitEnd (({ s with waitHold := none }).status h.track .ok)
  | event (m : Move) (t : Track) (u : TrackState) (hu : EventUpdate s.params t (s.track t) m u) :
      MoveEffect s m (s.setTrack t u)
  | reset : MoveEffect s .reset s.resetInput

/-- What a step can leave of one track `ts` (20_memory R64 to R66). -/
inductive TrackStep (p : Params) (t : Track) (ts : TrackState) : TrackState → Prop
  | kept : TrackStep p t ts ts
  | ended (c : Status) : TrackStep p t ts { ts with lastStatus := c }
  | updated (i : Instr) (u : TrackState) (hu : CommandUpdate p t ts i u) : TrackStep p t ts { u with lastStatus := .ok }
  | event (m : Move) (u : TrackState) (hu : EventUpdate p t ts m u) : TrackStep p t ts u
  | reset : TrackStep p t ts ((State.resetWith p).track t)

theorem execLoad_effect (t : Track) (idx nbits : BitVec 7) (rsv : BitVec 5) (rep : BitVec 8) (buf : Buf) (s : State) :
    ∃ s', execLoad t idx nbits rsv rep buf s = .next s' ∧ CommandEffect s (.load t idx nbits rsv rep buf) s' := by
  refine ⟨_, rfl, ?_⟩
  split_ifs with hrsv hidx hlen
  · exact .ended _ _
  · exact .ended _ _
  · exact .ended _ _
  · obtain rfl : rsv = 0 := not_not.1 hrsv
    exact .updated _ _ (.load idx nbits rep buf (Nat.lt_of_not_le hidx) (by simpa using hlen))

theorem execSeqw_effect (t : Track) (idx nbits : BitVec 7) (rsv : BitVec 5) (rep : BitVec 8) (buf : Buf) (s : State) :
    ∃ s', execSeqw t idx nbits rsv rep buf s = .next s' ∧ CommandEffect s (.seqw t idx nbits rsv rep buf) s' := by
  refine ⟨_, rfl, ?_⟩
  split_ifs with hrsv hbusy hidx hlen
  · exact .ended _ _
  · exact .ended _ _
  · exact .ended _ _
  · exact .ended _ _
  · obtain rfl : rsv = 0 := not_not.1 hrsv
    exact .updated _ _ (.seqw idx nbits rep buf (Bool.eq_false_iff.2 hbusy) (Nat.lt_of_not_le hidx) (by simpa using hlen))

theorem execSched_effect (t : Track) (rsv : BitVec 19) (cnt : BitVec 8) (s : State) :
    ∃ s', execSched t rsv cnt s = .next s' ∧ CommandEffect s (.sched t rsv cnt) s' := by
  refine ⟨_, rfl, ?_⟩
  split_ifs with hrsv hbusy hcnt
  · exact .ended _ _
  · exact .ended _ _
  · exact .ended _ _
  · obtain rfl : rsv = 0 := not_not.1 hrsv
    obtain ⟨hpos, hcap⟩ := not_or.1 hcnt
    exact .updated _ _ (.sched cnt (Bool.eq_false_iff.2 hbusy) hpos (Nat.le_of_not_lt hcap))

theorem execKill_effect (t : Track) (rsv : BitVec 27) (s : State) :
    ∃ s', execKill t rsv s = .next s' ∧ CommandEffect s (.kill t rsv) s' := by
  refine ⟨_, rfl, ?_⟩
  split_ifs with hrsv
  · exact .ended _ _
  · obtain rfl : rsv = 0 := not_not.1 hrsv
    exact .updated _ _ .kill

theorem execWait_effect (t : Track) (rsv : BitVec 19) (cnt : BitVec 8) (s : State) :
    ∃ s', execWait t rsv cnt s = .next s' ∧ CommandEffect s (.wait t rsv cnt) s' := by
  refine ⟨_, rfl, ?_⟩
  split_ifs with hrsv hdone
  · exact .ended _ _
  · obtain rfl : rsv = 0 := not_not.1 hrsv
    exact .waitEnded t cnt hdone
  · obtain rfl : rsv = 0 := not_not.1 hrsv
    exact .held t cnt (by simpa using hdone)

theorem execStat_effect (t : Track) (rsv : BitVec 27) (s : State) :
    ∃ s', execStat t rsv s = .next s' ∧ CommandEffect s (.stat t rsv) s' := by
  refine ⟨_, rfl, ?_⟩
  split_ifs with hrsv
  · exact .ended _ _
  · obtain rfl : rsv = 0 := not_not.1 hrsv
    exact .answered t

theorem attachDriver_effect (t : Track) (kind gran : BitVec 2) (thresh : BitVec 8) (pin unit : BitVec 16) (s : State)
    (hnone : (s.track t).cfg.kind = .none) :
    CommandEffect s (.attach t kind gran thresh 0 pin unit) (s.attachDriver t kind gran thresh pin unit) := by
  unfold State.attachDriver
  split
  · next hkind =>
    split_ifs
    · exact .updated _ _ (.attachTimer kind gran thresh pin unit hnone hkind)
    · exact .ended _ _
  · next hkind =>
    split
    · next g hgran =>
      split_ifs with hfit
      · exact .ended _ _
      · exact .updated _ _ (.attachRing kind gran g thresh pin unit hnone hkind hgran (Nat.le_of_not_lt hfit))
      · exact .ended _ _
    · exact .ended _ _
  · exact .ended _ _

theorem execAttach_effect (t : Track) (kind gran : BitVec 2) (thresh : BitVec 8) (rsv : BitVec 15) (pin unit : BitVec 16)
    (s : State) : ∃ s', execAttach t kind gran thresh rsv pin unit s = .next s' ∧
      CommandEffect s (.attach t kind gran thresh rsv pin unit) s' := by
  refine ⟨_, rfl, ?_⟩
  split_ifs with hrsv hkind
  · exact .ended _ _
  · exact .ended _ _
  · obtain rfl : rsv = 0 := not_not.1 hrsv
    exact attachDriver_effect t kind gran thresh pin unit s (not_not.1 hkind)

/-- Every command executes to the end, with one of the effects listed. -/
theorem exec_effect (hi : i.isCommand = true) (s : State) : ∃ s', exec i s = .next s' ∧ CommandEffect s i s' := by
  cases i with
  | load t idx nbits rsv rep buf => exact execLoad_effect t idx nbits rsv rep buf s
  | seqw t idx nbits rsv rep buf => exact execSeqw_effect t idx nbits rsv rep buf s
  | sched t rsv cnt => exact execSched_effect t rsv cnt s
  | kill t rsv => exact execKill_effect t rsv s
  | wait t rsv cnt => exact execWait_effect t rsv cnt s
  | stat t rsv => exact execStat_effect t rsv s
  | attach t kind gran thresh rsv pin unit => exact execAttach_effect t kind gran thresh rsv pin unit s
  | illegal0 t rest => exact ⟨_, rfl, .ended (.illegal0 t rest) .eIllegal⟩
  | illegal8F op t rest => exact ⟨_, rfl, .ended (.illegal8F op t rest) .eIllegal⟩
  | pullBit t => cases hi
  | pullByte t => cases hi
  | pullPacket t => cases hi

/-- A driver event has no effect where it is not enabled, and else the one listed. -/
theorem agentStep_effect {enabled : Bool} (hu : enabled = true → EventUpdate s.params t (s.track t) m u) :
    MoveEffect s m (s.agentStep t enabled u) := by
  rcases s.agentStep_cases t enabled u with ⟨he, h⟩ | ⟨-, h⟩ <;> rw [h]
  · exact .event m t u (hu he)
  · exact .kept m

theorem takeWord_effect (w : Word) (s : State) : ∃ s', takeWord w s = .next s' ∧ MoveEffect s (.word w) s' := by
  rcases takeWord_cases w s with ⟨-, h⟩ | ⟨hw, i, after, hd, h⟩ | ⟨hw, ⟨e, hd⟩, h⟩ <;> rw [h]
  · exact ⟨s, rfl, .kept _⟩
  · obtain ⟨s', hs', he⟩ := exec_effect (decode_isCommand hd) { s with cmdWords := [] }
    exact ⟨s', hs', .command w i after s' hw hd he⟩
  · exact ⟨_, rfl, .collected w e hw hd⟩

theorem endWait_effect (s : State) : MoveEffect s .waitEnd s.endWait := by
  rcases s.endWait_cases with h | ⟨hold, hw, hd, h⟩ <;> rw [h]
  · exact .kept _
  · exact .waitEnded hold hw hd

/-- Every move has a next state, by one of the effects listed. -/
theorem applyMove_effect (m : Move) (s : State) : ∃ s', applyMove m s = .next s' ∧ MoveEffect s m s' := by
  cases m with
  | word w => exact takeWord_effect w s
  | waitEnd => exact ⟨_, rfl, endWait_effect s⟩
  | ta t now => exact ⟨_, s.eventTa_eq t now, agentStep_effect (.ta now)⟩
  | tb t => exact ⟨_, rfl, agentStep_effect .tb⟩
  | refill t =>
    obtain ⟨b, v, k, h⟩ := s.eventRefill_eq t
    exact ⟨_, h, agentStep_effect fun he => .refill he b v k⟩
  | drain t => exact ⟨_, rfl, agentStep_effect .drain⟩
  | underrun t => exact ⟨_, rfl, agentStep_effect .underrun⟩
  | reset => exact ⟨_, rfl, .reset⟩

theorem moveEffect_of_applyMove (h : applyMove m s = .next s') : MoveEffect s m s' := by
  obtain ⟨s₁, h₁, he⟩ := applyMove_effect m s
  obtain rfl : s₁ = s' := by rw [h₁] at h; cases h; rfl
  exact he

/-- A step is the effect of the move drawn. -/
theorem moveEffect_of_step (h : step s = .next s') : MoveEffect s.draw.2 s.draw.1 s' := moveEffect_of_applyMove h

/-- Writing a track is a step of that track, and of the other one none. -/
theorem TrackStep.setTrack (h : TrackStep s.params t (s.track t) u) (t' : Track) :
    TrackStep s.params t' (s.track t') ((s.setTrack t u).track t') := by
  by_cases e : t' = t
  · subst e; rwa [State.track_setTrack]
  · rw [State.track_setTrack_of_ne _ e]; exact .kept

theorem State.status_track_eq_setTrack (s : State) (t t' : Track) (c : Status) :
    (s.status t c).track t' = (s.setTrack t { s.track t with lastStatus := c }).track t' := by
  unfold State.status; simp

theorem CommandEffect.trackStep (h : CommandEffect s i s') (t : Track) : TrackStep s.params t (s.track t) (s'.track t) := by
  cases h with
  | ended i c => rw [State.status_track_eq_setTrack]; exact (TrackStep.ended c).setTrack t
  | updated i u hu =>
    rw [State.status_track_eq_setTrack, State.setTrack_setTrack, State.track_setTrack]
    exact (TrackStep.updated i u hu).setTrack t
  | answered => rw [State.respond_track]; exact .kept
  | waitEnded u =>
    rw [State.status_track_eq_setTrack]
    simpa using TrackStep.setTrack (s := { s with waitHold := none }) (.ended .ok) t
  | held => simpa using .kept

/-- The reset input gives a track the reset value of the block's parameters (70 R260). -/
theorem State.resetInput_track (s : State) (t : Track) : s.resetInput.track t = (State.resetWith s.params).track t := by
  cases t <;> rfl

theorem MoveEffect.trackStep (h : MoveEffect s m s') (t : Track) : TrackStep s.params t (s.track t) (s'.track t) := by
  cases h with
  | kept => exact .kept
  | collected => simpa using .kept
  | command w i after s' hw hd he => simpa using he.trackStep t
  | waitEnded =>
    rw [State.status_track_eq_setTrack]
    simpa using TrackStep.setTrack (s := { s with waitHold := none }) (.ended .ok) t
  | event m u v hu => exact (TrackStep.event m v hu).setTrack t
  | reset => rw [State.resetInput_track]; exact .reset

theorem CommandEffect.params_eq (h : CommandEffect s i s') : s'.params = s.params := by
  cases h <;> simp

theorem MoveEffect.params_eq (h : MoveEffect s m s') : s'.params = s.params := by
  cases h with
  | kept => rfl
  | collected => rfl
  | command w i after s' hw hd he => exact he.params_eq
  | waitEnded => simp
  | event => simp
  | reset => rfl

/-- What a step does, track by track. -/
theorem trackStep_of_step (h : step s = .next s') (t : Track) : TrackStep s.params t (s.track t) (s'.track t) := by
  simpa using (moveEffect_of_step h).trackStep t

theorem params_eq_of_step (h : step s = .next s') : s'.params = s.params := by
  simpa using (moveEffect_of_step h).params_eq

end Sys2Proof.Machine
end

section
/-!
The invariants of a track (10_state R48, 43, 44) at reset and over every step: each holds of the reset value, and is kept
by what an accepted command writes (`CommandUpdate`) and by what a driver event does (`EventUpdate`).
-/
namespace Sys2Proof.Machine

variable {p : Params} {t : Track} {ts u : TrackState} {i : Instr} {m : Move}

theorem State.resetWith_track (p : Params) (t : Track) :
    (State.resetWith p).track t = TrackState.resetWith p (p.nreg t) := by
  cases t <;> rfl

theorem Params.default_legal : Params.default.Legal := by constructor <;> decide

theorem LegalRegister.reset (hp : p.Legal) : LegalRegister (resetRegister p) := ⟨hp.resetPacket, hp.resetPacket⟩

theorem TrackState.resetWith_register_pend (p : Params) {n : Nat} {r : BitVec 7} (hr : r.toNat < n) :
    ((TrackState.resetWith p n).register r).pend = false := by
  simp [TrackState.register, TrackState.resetWith, resetRegister, hr]

/-- The reset value of a track meets the invariant of R48 (70 R260). -/
theorem TrackState.Inv.resetWith (hp : p.Legal) (t : Track) : (TrackState.resetWith p (p.nreg t)).Inv p t := by
  obtain ⟨hn, -⟩ := nreg_range hp t
  have hz := TrackState.resetWith_register_pend p (r := 0) (n := p.nreg t) (by simp; omega)
  exact
  { regsSize := List.length_replicate
    seqSize := List.length_replicate
    ringSize := List.length_replicate
    regsLegal := fun g hg => by rw [List.eq_of_mem_replicate hg]; exact .reset hp
    seqLegal := fun e he => by rw [List.eq_of_mem_replicate he]; exact hp.resetPacket
    markRange := ⟨le_refl 1, hn⟩
    curRange := le_refl 1
    nextPending := nofun
    zeroPending := iff_of_false (by rw [hz]; exact Bool.false_ne_true) fun ⟨hv, _⟩ => nomatch hv
    activeLen := by simp [TrackState.resetWith]
    retireActive := nofun
    seqFits := nofun
    latchSize := Nat.zero_le 80
    bitPosRange := le_refl 0
    ringCount := Nat.zero_le _
    ringHead := hp.ringCap.1 }

/-- The reset value of a track meets what the drivers promise: there is no driver, and every field is low or empty
(70 R260). -/
theorem TrackState.DriverInv.resetWith (p : Params) (n : Nat) : (TrackState.resetWith p n).DriverInv p where
  phaseKind := by simp [TrackState.resetWith, resetConfig]
  pinLevel := by simp [TrackState.resetWith]
  ringLow d hd := by rw [List.eq_of_mem_replicate hd]; decide
  ringKind _ := ⟨rfl, rfl, rfl, rfl, rfl⟩
  ringOnly _ := ⟨rfl, rfl⟩
  threshFits := nofun
  refillAsked := nofun
  refillRoom := nofun
  startAsked := nofun
  frozenRunning := nofun
  silent _ := rfl

theorem State.Inv.resetWith (hp : p.Legal) : (State.resetWith p).Inv where
  params := hp
  tracks t := by rw [State.resetWith_track]; exact .resetWith hp t

theorem State.DriverInv.resetWith (p : Params) : (State.resetWith p).DriverInv := fun t => by
  rw [State.resetWith_track]; exact .resetWith p _

/-- Settles O52: the reset values meet both invariants one by one, and the default parameters are legal. -/
theorem resetMeetsInvariants : Obligations.ResetMeetsInvariants :=
  ⟨fun _ hp => ⟨.resetWith hp, .resetWith _⟩, .resetWith Params.default_legal, .resetWith _⟩

/-- SCHED keeps the invariant: the `cnt` entries it installs, from entry 0, are at least one and fit the buffer
(41 R122). -/
theorem TrackState.Inv.sched (h : ts.Inv p t) {cnt : BitVec 8} (hpos : cnt ≠ 0) (hcnt : cnt.toNat ≤ p.seqCap) :
    ({ ts with seqActive := true, seqLen := cnt, seqCur := 0, seqRetire := false } : TrackState).Inv p t :=
  have hne : cnt.toNat ≠ 0 := fun e => hpos (BitVec.eq_of_toNat_eq e)
  { h with
    activeLen := iff_of_true rfl (Nat.one_le_iff_ne_zero.2 hne)
    retireActive := nofun
    seqFits := fun _ => by simpa using hcnt }

/-- KILL keeps the invariant: no sequence, no length, nothing to retire (41 R124). -/
theorem TrackState.Inv.kill (h : ts.Inv p t) :
    ({ ts with seqActive := false, seqLen := 0, seqCur := 0, seqRetire := false } : TrackState).Inv p t :=
  { h with
    activeLen := by simp
    retireActive := nofun
    seqFits := nofun }

theorem CommandUpdate.inv (hu : CommandUpdate p t ts i u) (hp : p.Legal) (h : ts.Inv p t) : u.Inv p t := by
  cases hu with
  | load idx nbits rep buf hidx hlen => exact h.loadRegister hidx (badLength_false hlen)
  | seqw idx nbits rep buf hidle hidx hlen => exact h.setEntry idx (badLength_false hlen)
  | sched cnt hidle hpos hcnt => exact h.sched hpos hcnt
  | kill => exact h.kill
  | attachTimer kind gran thresh pin unit => exact h.attachTimer pin unit
  | attachRing kind gran g thresh pin unit => exact h.attachRing hp g thresh pin unit

theorem EventUpdate.inv (hu : EventUpdate p t ts m u) (hp : p.Legal) (h : ts.Inv p t) : u.Inv p t := by
  cases hu with
  | ta now => exact (h.ta hp now).withReply _ _ _
  | tb => exact h.tb
  | refill he => exact (h.refill hp he).withReply _ _ _
  | drain => exact h.drain hp
  | underrun => exact h.underrun

theorem TrackStep.inv (hs : TrackStep p t ts u) (hp : p.Legal) (h : ts.Inv p t) : u.Inv p t := by
  cases hs with
  | kept => exact h
  | ended c => exact h.lastStatus c
  | updated i v hu => exact (hu.inv hp h).lastStatus .ok
  | event m _ hu => exact hu.inv hp h
  | reset => rw [State.resetWith_track]; exact .resetWith hp t

/-- Settles O53: the parameters stay, and each track's step is a command's update, a driver event, the reset or nothing,
each of which keeps the track's invariant. -/
theorem stepKeepsInvariant : Obligations.StepKeepsInvariant := fun _ _ hI hs =>
  { params := params_eq_of_step hs ▸ hI.params
    tracks := fun t => params_eq_of_step hs ▸ (trackStep_of_step hs t).inv hI.params (hI.tracks t) }

theorem TrackState.DriverInv.lastStatus (h : ts.DriverInv p) (c : Status) :
    ({ ts with lastStatus := c } : TrackState).DriverInv p := { h with }

/-- LOAD writes no field of the driver (40 R110). -/
theorem TrackState.DriverInv.loadRegister (h : ts.DriverInv p) (r : BitVec 7) (k : Packet) :
    (ts.loadRegister r k).DriverInv p := by
  rw [loadRegister_eq]; exact { h with }

theorem CommandUpdate.driverInv (hu : CommandUpdate p t ts i u) (h : ts.DriverInv p) : u.DriverInv p := by
  cases hu with
  | load idx nbits rep buf => exact h.loadRegister idx _
  | seqw idx nbits rep buf => exact h.setEntry idx _
  | sched => exact { h with }
  | kill => exact { h with }
  | attachTimer kind gran thresh pin unit hnone => exact h.attachTimer hnone pin unit
  | attachRing kind gran g thresh pin unit hnone hkind hgran hfit => exact h.attachRing hnone hfit pin unit

theorem EventUpdate.driverInv (hu : EventUpdate p t ts m u) (hI : ts.Inv p t) (h : ts.DriverInv p) : u.DriverInv p := by
  cases hu with
  | ta now he => exact (h.ta he now).withReply _ _ _
  | tb he => exact h.tb he
  | refill he => exact (h.refill he).withReply _ _ _
  | drain he => exact h.drain (hI.ringSize.symm ▸ hI.ringHead) he
  | underrun he => exact h.underrun he

theorem TrackStep.driverInv (hs : TrackStep p t ts u) (hI : ts.Inv p t) (h : ts.DriverInv p) : u.DriverInv p := by
  cases hs with
  | kept => exact h
  | ended c => exact h.lastStatus c
  | updated i v hu => exact (hu.driverInv h).lastStatus .ok
  | event m _ hu => exact hu.driverInv hI h
  | reset => rw [State.resetWith_track]; exact .resetWith p _

/-- Settles O54: as O53, track by track; the ring's head in range, for DRAIN, is all it takes from the invariant of
R48. -/
theorem stepKeepsDriverInvariant : Obligations.StepKeepsDriverInvariant := fun _ _ hI hD hs t =>
  params_eq_of_step hs ▸ (trackStep_of_step hs t).driverInv (hI.tracks t) (hD t)

end Sys2Proof.Machine
end

section
/-!
The command port over every step (10_state R45, R46): it holds part of a command only, and nothing while a WAIT is held.
-/
namespace Sys2Proof.Machine

variable {s s' : State} {i : Instr} {m : Move}

theorem State.PortInv.of_empty (h : s.cmdWords = []) : s.PortInv where
  partOnly := by simp [h]
  heldEmpty _ := h

/-- No command touches the words collected. -/
theorem CommandEffect.cmdWords_eq (h : CommandEffect s i s') : s'.cmdWords = s.cmdWords := by
  cases h <;> simp

/-- Words that do not decode are fewer than their header asks for (30_encoding R81). -/
theorem length_lt_of_decode_error {w : Word} {ws : List Word} {e : DecodeError} (h : decode (w :: ws) = .error e) :
    (w :: ws).length < commandLength w := by
  by_contra hlen
  rw [decode_whole (Nat.le_of_not_lt hlen)] at h
  cases h

theorem MoveEffect.portInv (he : MoveEffect s m s') (h : s.PortInv) : s'.PortInv := by
  cases he with
  | kept => exact h
  | collected w e hw hd =>
    exact
    { partOnly := fun w₀ ws (hws : s.cmdWords ++ [w] = w₀ :: ws) => by
        show (s.cmdWords ++ [w]).length < _
        rw [hws] at hd ⊢
        exact length_lt_of_decode_error hd
      heldEmpty := fun hheld => absurd hw hheld }
  | command w i after s' hw hd he => exact .of_empty he.cmdWords_eq
  | waitEnded hold hw =>
    exact .of_empty (by rw [State.status_cmdWords]; exact h.heldEmpty (by rw [hw]; exact nofun))
  | event m t u =>
    exact
    { partOnly := by simpa using h.partOnly
      heldEmpty := by simpa using h.heldEmpty }
  | reset => exact .of_empty rfl

/-- Settles O55: a word is collected only while the words do not decode; a command and the end of a WAIT leave the port
empty, and no driver event touches it. -/
theorem stepKeepsPortInvariant : Obligations.StepKeepsPortInvariant := by
  refine ⟨fun _ => .of_empty rfl, fun s s' h hs => (moveEffect_of_step hs).portInv ?_⟩
  exact
  { partOnly := by simpa using h.partOnly
    heldEmpty := by simpa using h.heldEmpty }

end Sys2Proof.Machine
end

section
/-!
The STATUS word (10_state R40): nine fields written one after the other, the cursor on top; a field is read back by
dropping the fields below it.
-/
namespace Sys2Proof.Machine

theorem driverKind_code_eq (k : DriverKind) : k.code = match k with | .none => 0 | .timer => 1 | .ring => 2 := by
  cases k <;> rfl

/-- The flags of the STATUS word are single bits (R40). -/
theorem TrackState.statusWord_flags (ts : TrackState) :
    ts.statusWord.getLsbD 4 = ts.seqActive ∧ ts.statusWord.getLsbD 13 = ts.nextV ∧
    ts.statusWord.getLsbD 14 = ts.underrunFlag ∧ ts.statusWord.getLsbD 15 = ts.mix := by
  simp only [statusWord, BitVec.getLsbD_append]; simp

/-- The wider fields of the STATUS word: the fields below one are dropped, then it stands lowest (R40). -/
theorem TrackState.statusWord_fields (ts : TrackState) :
    ts.statusWord.extractLsb' 0 4 = ts.lastStatus.code ∧ ts.statusWord.extractLsb' 5 8 = ts.seqLen ∧
    ts.statusWord.extractLsb' 16 2 = ts.cfg.kind.code ∧ ts.statusWord.extractLsb' 18 7 = ts.maxLoaded ∧
    ts.statusWord.extractLsb' 25 7 = ts.curReg := by
  unfold statusWord
  simp (disch := decide) only [BitVec.extractLsb'_append_eq_of_le, Nat.reduceSub, BitVec.extractLsb'_append_eq_right,
    BitVec.extractLsb'_eq_self, and_self]

/-- Settles O17: each field of the concatenation, read at its bit range. -/
theorem statusLayout : Obligations.StatusLayout := by
  intro ts
  obtain ⟨hactive, hnextV, hunderrun, hmix⟩ := ts.statusWord_flags
  obtain ⟨hstatus, hlen, hkind, hmark, hcur⟩ := ts.statusWord_fields
  exact ⟨hstatus, hactive, hlen, hnextV, hunderrun, hmix, hkind.trans (driverKind_code_eq _), hmark, hcur⟩

end Sys2Proof.Machine
end

section
/-!
What a pull keeps (10_state R21, R22): the driver's fields, `maxLoaded` and `nextIdx`; the bytes and lengths of every slot
and entry; outside register 0 the repeat counts too; and `act` turns only where a pending swap is done. The relation holds
of one advance decision and composes, so it holds of every pull. No invariant is assumed: a write outside the storage
does nothing.
-/
namespace Sys2Proof

/-- A swap turns `act` only where it clears `pend` (10_state R22). -/
def Register.SwapDone (g g' : Register) : Prop :=
  g'.act = g.act ∧ g'.pend = g.pend ∨ g'.act = (!g.act) ∧ g.pend = true ∧ g'.pend = false

/-- What pulls keep of register `q`. -/
structure Register.Kept (q : Nat) (g g' : Register) : Prop where
  latch0 : g'.slot0.latch = g.slot0.latch
  latch1 : g'.slot1.latch = g.slot1.latch
  slots : q ≠ 0 → g'.slot0 = g.slot0 ∧ g'.slot1 = g.slot1
  swap : Register.SwapDone g g'

namespace Register

variable {q : Nat} {g g' g'' : Register}

theorem SwapDone.trans (h : SwapDone g g') (h' : SwapDone g' g'') : SwapDone g g'' := by
  rcases h with ⟨ha, hp⟩ | ⟨ha, hp, hp'⟩
  · rcases h' with ⟨ha', hq⟩ | ⟨ha', hq, hq'⟩
    · exact .inl ⟨ha'.trans ha, hq.trans hp⟩
    · exact .inr ⟨ha'.trans (congrArg _ ha), hp.symm.trans hq, hq'⟩
  · rcases h' with ⟨ha', hq⟩ | ⟨-, hq, -⟩
    · exact .inr ⟨ha'.trans ha, hp, hq.trans hp'⟩
    · exact absurd (hp'.symm.trans hq) Bool.false_ne_true

theorem Kept.refl (q : Nat) (g : Register) : Kept q g g := ⟨rfl, rfl, fun _ => ⟨rfl, rfl⟩, .inl ⟨rfl, rfl⟩⟩

theorem Kept.trans (h : Kept q g g') (h' : Kept q g' g'') : Kept q g g'' where
  latch0 := h'.latch0.trans h.latch0
  latch1 := h'.latch1.trans h.latch1
  slots hq := ⟨(h'.slots hq).1.trans (h.slots hq).1, (h'.slots hq).2.trans (h.slots hq).2⟩
  swap := h.swap.trans h'.swap

theorem kept_swap (q : Nat) (g : Register) : Kept q g g.swap := by
  unfold Register.swap
  split
  · next hp => exact ⟨rfl, rfl, fun _ => ⟨rfl, rfl⟩, .inr ⟨rfl, hp, rfl⟩⟩
  · exact .refl q g

/-- Only register 0 may have the repeat count of its active slot written. -/
theorem kept_setActiveRep (g : Register) (v : BitVec 8) : Kept 0 g (g.setActiveRep v) := by
  unfold Register.setActiveRep
  split <;> exact ⟨rfl, rfl, fun h => absurd rfl h, .inl ⟨rfl, rfl⟩⟩

end Register

namespace Machine

variable {ts u v : TrackState} {i : Instr} {t : Track}

/-- What pulls keep of a track. -/
structure TrackState.PullKeeps (ts u : TrackState) : Prop where
  driver : u.graft ts = u
  mark : u.maxLoaded = ts.maxLoaded
  request : u.nextIdx = ts.nextIdx
  regs : ∀ (q : Nat) (g : Register), ts.regs[q]? = some g → ∃ g', u.regs[q]? = some g' ∧ g.Kept q g'
  entries : ∀ (q : Nat) (e : Packet), ts.seq[q]? = some e → ∃ e', u.seq[q]? = some e' ∧ e'.latch = e.latch

namespace TrackState

theorem PullKeeps.refl (ts : TrackState) : ts.PullKeeps ts where
  driver := rfl
  mark := rfl
  request := rfl
  regs q g hg := ⟨g, hg, .refl q g⟩
  entries _ e he := ⟨e, he, rfl⟩

theorem PullKeeps.trans (h : ts.PullKeeps u) (h' : u.PullKeeps v) : ts.PullKeeps v where
  driver := by
    have hg : (v.graft u).graft ts = v.graft (u.graft ts) := rfl
    rwa [h'.driver, h.driver, h'.driver] at hg
  mark := h'.mark.trans h.mark
  request := h'.request.trans h.request
  regs q g hg := by
    obtain ⟨g', hg', hk⟩ := h.regs q g hg
    obtain ⟨g'', hg'', hk'⟩ := h'.regs q g' hg'
    exact ⟨g'', hg'', hk.trans hk'⟩
  entries q e he := by
    obtain ⟨e', he', hl⟩ := h.entries q e he
    obtain ⟨e'', he'', hl'⟩ := h'.entries q e' he'
    exact ⟨e'', he'', hl'.trans hl⟩

theorem register_eq_of_getElem? {r : BitVec 7} {g : Register} (h : ts.regs[r.toNat]? = some g) : ts.register r = g := by
  simp [register, List.getD_eq_getElem?_getD, h]

theorem entry_eq_of_getElem? {r : BitVec 7} {e : Packet} (h : ts.seq[r.toNat]? = some e) : ts.entry r = e := by
  simp [entry, List.getD_eq_getElem?_getD, h]

/-- Writing back a register that is kept keeps all registers. -/
theorem kept_set_register {r : BitVec 7} {g₁ : Register} (hk : (ts.register r).Kept r.toNat g₁) (q : Nat)
    (g : Register) (hg : ts.regs[q]? = some g) : ∃ g', (ts.regs.set r.toNat g₁)[q]? = some g' ∧ g.Kept q g' := by
  by_cases hq : r.toNat = q
  · subst hq
    rw [register_eq_of_getElem? hg] at hk
    exact ⟨g₁, by simp [List.getElem?_set_self', hg], hk⟩
  · exact ⟨g, by rw [List.getElem?_set_ne hq, hg], .refl q g⟩

/-- Writing back an entry with its bytes and length keeps all entries. -/
theorem kept_set_entry {r : BitVec 7} {e₁ : Packet} (hl : e₁.latch = (ts.entry r).latch) (q : Nat)
    (e : Packet) (he : ts.seq[q]? = some e) : ∃ e', (ts.seq.set r.toNat e₁)[q]? = some e' ∧ e'.latch = e.latch := by
  by_cases hq : r.toNat = q
  · subst hq
    rw [entry_eq_of_getElem? he] at hl
    exact ⟨e₁, by simp [List.getElem?_set_self', he], hl⟩
  · exact ⟨e, by rw [List.getElem?_set_ne hq, he], rfl⟩

theorem kept_retire (ts : TrackState) : ts.PullKeeps ts.retire := by
  unfold retire
  split
  · exact { PullKeeps.refl ts with driver := rfl }
  · exact .refl ts

/-- Sending an entry writes its repeat count only (42 R141 step 1). -/
theorem kept_sendEntry (ts : TrackState) : ts.PullKeeps ts.sendEntry := by
  have key : ts.PullKeeps ((ts.setLatch (ts.entry ts.seqCur)).setEntry ts.seqCur
      { ts.entry ts.seqCur with rep := satdec8 (ts.entry ts.seqCur).rep }) :=
    { PullKeeps.refl ts with
      driver := rfl
      entries := kept_set_entry rfl }
  unfold sendEntry
  simp only []
  split
  · exact { key with driver := rfl }
  · exact key

theorem kept_repeatOneShot (ts : TrackState) : ts.PullKeeps ts.repeatOneShot :=
  { PullKeeps.refl ts with
    driver := rfl
    regs := kept_set_register (r := 0) (Register.kept_setActiveRep _ _) }

/-- What TAKE writes back to its register (42 R142). -/
theorem kept_take (ts : TrackState) (r : BitVec 7) : ts.PullKeeps (ts.take r) := by
  have hswap : (ts.register r).Kept r.toNat (ts.register r).swap := Register.kept_swap _ _
  refine { PullKeeps.refl ts with driver := rfl, regs := kept_set_register ?_ }
  split_ifs with h0
  · subst h0
    exact hswap.trans (Register.kept_setActiveRep _ _)
  · exact hswap

theorem kept_rotate (ts : TrackState) : ts.PullKeeps ts.rotate :=
  PullKeeps.trans (u := { ts with nextV := false, curReg := ts.nextRegister })
    { PullKeeps.refl ts with driver := rfl } (kept_take _ _)

theorem kept_advance (ts : TrackState) : ts.PullKeeps ts.advance := by
  have hr := kept_retire ts
  rcases advance_cases ts with ⟨-, h⟩ | ⟨-, -, -, h⟩ | ⟨-, -, h⟩ <;> rw [h]
  · exact hr.trans (kept_sendEntry _)
  · exact hr.trans (kept_repeatOneShot _)
  · exact hr.trans (kept_rotate _)

theorem PullKeeps.withBitPos (h : ts.PullKeeps u) (n : BitVec 7) : ts.PullKeeps { u with bitPos := n } :=
  h.trans { PullKeeps.refl u with driver := rfl }

theorem kept_nextBit (ts : TrackState) : ts.PullKeeps ts.nextBit.2 := by
  have hb : ts.PullKeeps ts.boundary := by
    unfold boundary
    split
    · exact kept_advance ts
    · exact .refl ts
  exact hb.withBitPos _

theorem kept_nextBits (n : Nat) : ∀ ts : TrackState, ts.PullKeeps (ts.nextBits n).2 := by
  induction n with
  | zero => exact .refl
  | succ n ih => exact fun ts => (kept_nextBit ts).trans (ih _)

theorem kept_nextPacket (ts : TrackState) : ts.PullKeeps ts.nextPacket.2 := by
  have hd : ts.PullKeeps ts.discard := by
    unfold discard
    split
    · exact { PullKeeps.refl ts with driver := rfl }
    · exact .refl ts
  exact (hd.trans (kept_advance _)).withBitPos _

/-- The whole frame of a pull: what it may write, with any reply. -/
theorem PullKeeps.frame (h : ts.PullKeeps u) (b : Bool) (w : Byte) (k : Latch) :
    u.withReply b w k = { ts with
      regs := u.regs, curReg := u.curReg, nextV := u.nextV, latch := u.latch, bitPos := u.bitPos, seq := u.seq
      seqActive := u.seqActive, seqLen := u.seqLen, seqCur := u.seqCur, seqRetire := u.seqRetire
      mix := u.mix, replyBit := b, replyByte := w, replyPacket := k } := by
  have hu : u.graft ts = u := h.driver
  rw [← hu]
  simp only [withReply, graft, h.mark, h.request]

/-- A pull leaves the reply lines until its own reply is written. -/
theorem PullKeeps.replies (h : ts.PullKeeps u) :
    u.replyBit = ts.replyBit ∧ u.replyByte = ts.replyByte ∧ u.replyPacket = ts.replyPacket := by
  have hu : u.graft ts = u := h.driver
  rw [← hu]; exact ⟨rfl, rfl, rfl⟩

end TrackState

/-- A pull writes one track, as pulls do, and of the reply lines only its own. -/
theorem exec_pull (hi : i = .pullBit t ∨ i = .pullByte t ∨ i = .pullPacket t) (s : State) :
    ∃ u b w k, exec i s = .next (s.setTrack t (u.withReply b w k)) ∧ (s.track t).PullKeeps u ∧
      ((∀ t, i ≠ .pullBit t) → b = (s.track t).replyBit) ∧ ((∀ t, i ≠ .pullByte t) → w = (s.track t).replyByte) ∧
      ((∀ t, i ≠ .pullPacket t) → k = (s.track t).replyPacket) := by
  rcases hi with rfl | rfl | rfl
  · have hk := TrackState.kept_nextBit (s.track t)
    obtain ⟨-, hbyte, hpacket⟩ := hk.replies
    exact ⟨_, (s.track t).nextBit.1, _, _, rfl, hk, fun h => absurd rfl (h t), fun _ => hbyte, fun _ => hpacket⟩
  · have hk := TrackState.kept_nextBits 8 (s.track t)
    obtain ⟨hbit, -, hpacket⟩ := hk.replies
    exact ⟨_, _, (s.track t).nextByte.1, _, rfl, hk, fun _ => hbit, fun h => absurd rfl (h t), fun _ => hpacket⟩
  · have hk := TrackState.kept_nextPacket (s.track t)
    obtain ⟨hbit, hbyte, -⟩ := hk.replies
    exact ⟨_, _, _, (s.track t).nextPacket.1, rfl, hk, fun _ => hbit, fun _ => hbyte, fun h => absurd rfl (h t)⟩

/-- Settles O38: the frame of a pull and its registers and entries, from what one advance decision keeps. -/
theorem pullFrame : Obligations.PullFrame := by
  intro s s' t i hi hs
  obtain ⟨u, b, w, k, he, hk, hb, hw, hp⟩ := exec_pull hi s
  obtain rfl : s.setTrack t (u.withReply b w k) = s' := by rw [he] at hs; cases hs; rfl
  simp only [State.track_setTrack]
  refine ⟨congrArg (s.setTrack t) (hk.frame b w k), hb, hw, hp, fun q g hg => ?_, hk.entries⟩
  obtain ⟨g', hg', hkept⟩ := hk.regs q g hg
  exact ⟨g', hg', hkept.latch0, hkept.latch1, hkept.slots, hkept.swap⟩

end Machine

end Sys2Proof
end

section
/-!
What a command leaves of the track it is not for, and of the packets in flight (20_memory R68, R70): read off the effects
of a move, which name the one track they write.
-/
namespace Sys2Proof.Machine

variable {p : Params} {t t' : Track} {ts u : TrackState} {s s' : State} {i : Instr} {m : Move}

theorem CommandEffect.track_other (h : CommandEffect s i s') : s'.track i.track.other = s.track i.track.other := by
  cases h with
  | ended i c => exact s.status_track_other i.track c
  | updated i u hu => simp
  | answered t => simp
  | waitEnded t cnt hd => simp [Instr.track]
  | held t cnt hd => simp

theorem exec_track_other (h : exec i s = .next s') : s'.track i.track.other = s.track i.track.other := by
  cases hc : i.isCommand with
  | true =>
    obtain ⟨s₁, h₁, he⟩ := exec_effect hc s
    obtain rfl : s₁ = s' := by rw [h₁] at h; cases h; rfl
    exact he.track_other
  | false =>
    cases i with
    | pullBit | pullByte | pullPacket => cases h; exact s.track_setTrack_other _ _
    | load | seqw | sched | kill | wait | stat | attach | illegal0 | illegal8F => cases hc

/-- Settles O26: a command's effects and a pull write the track of the instruction only. -/
theorem otherTrackUntouched : Obligations.OtherTrackUntouched := fun _ _ _ => exec_track_other

/-- The packet in flight and the position in it are the same (10_state R28). -/
def TrackState.SameLatch (ts u : TrackState) : Prop := u.latch = ts.latch ∧ u.bitPos = ts.bitPos

theorem TrackState.SameLatch.refl (ts : TrackState) : ts.SameLatch ts := ⟨rfl, rfl⟩

/-- Writing one track leaves both packets in flight if it leaves that track's. -/
theorem TrackState.SameLatch.setTrack (h : (s.track t).SameLatch u) (t' : Track) :
    (s.track t').SameLatch ((s.setTrack t u).track t') := by
  by_cases e : t' = t
  · subst e; rwa [State.track_setTrack]
  · rw [State.track_setTrack_of_ne _ e]; exact .refl _

theorem State.status_sameLatch (s : State) (t t' : Track) (c : Status) :
    (s.track t').SameLatch ((s.status t c).track t') := by
  rw [State.status_track_eq_setTrack]; exact .setTrack (u := { s.track t with lastStatus := c }) ⟨rfl, rfl⟩ t'

/-- No command reaches the latch: LOAD and SEQW write stored packets (40 R114), SCHED and KILL the sequence's counters
(41 R124), ATTACH the driver. -/
theorem CommandUpdate.sameLatch (hu : CommandUpdate p t ts i u) : ts.SameLatch u := by
  cases hu with
  | load idx nbits rep buf => rw [TrackState.loadRegister_eq]; exact ⟨rfl, rfl⟩
  | seqw | sched | kill | attachTimer | attachRing => exact ⟨rfl, rfl⟩

theorem CommandEffect.sameLatch (h : CommandEffect s i s') (t : Track) : (s.track t).SameLatch (s'.track t) := by
  cases h with
  | ended i c => exact s.status_sameLatch i.track t c
  | updated i u hu =>
    rw [State.status_track_eq_setTrack, State.setTrack_setTrack, State.track_setTrack]
    exact .setTrack (u := { u with lastStatus := .ok }) hu.sameLatch t
  | answered => rw [State.respond_track]; exact .refl _
  | waitEnded u => simpa using State.status_sameLatch { s with waitHold := none } u t .ok
  | held => simpa using .refl _

/-- A driver event that does not pull leaves the latch (43 R173, R185, R186). -/
theorem EventUpdate.sameLatch (hu : EventUpdate p t ts m u) (hm : m = .tb t' ∨ m = .drain t' ∨ m = .underrun t') :
    ts.SameLatch u := by
  cases hu with
  | tb | underrun => exact ⟨rfl, rfl⟩
  | drain => rw [TrackState.drain_eq]; exact ⟨rfl, rfl⟩
  | ta | refill => simp at hm

/-- Whatever a move without a pull writes, it is not a latch. -/
theorem MoveEffect.sameLatch (he : MoveEffect s m s')
    (hm : (∃ w, m = .word w) ∨ m = .waitEnd ∨ ∃ t, m = .tb t ∨ m = .drain t ∨ m = .underrun t) (t : Track) :
    (s.track t).SameLatch (s'.track t) := by
  cases he with
  | kept => exact .refl _
  | collected => rw [State.track_with_cmdWords]; exact .refl _
  | command w i after s' hw hd he => simpa using he.sameLatch t
  | waitEnded hold => simpa using State.status_sameLatch { s with waitHold := none } hold.track t .ok
  | event m u v hu =>
    obtain ⟨w, rfl⟩ | rfl | ⟨t', hm⟩ := hm
    · cases hu
    · cases hu
    · exact (hu.sameLatch hm).setTrack t
  | reset => simp at hm

/-- Settles O25: the effects of a word, of the end of a WAIT and of TB, DRAIN and UNDERRUN keep the latches. -/
theorem latchIsolated : Obligations.LatchIsolated := fun _ _ _ hm hs => (moveEffect_of_applyMove hs).sameLatch hm

end Sys2Proof.Machine
end

section
/-!
A track's next state depends on nothing of the other track but its configuration (20_memory R68). Two states that agree on
the parameters, the track and that configuration go on agreeing through each operation on the track, so through every
command and driver event of the track; commands and events of the other track leave the track alone.
-/
namespace Sys2Proof

theorem Track.eq_other_of_ne {t u : Track} (h : t ≠ u) : t = u.other := by
  revert h; cases t <;> cases u <;> decide

/-- The track whose driver a move is an event of (43); a move of the host is of no driver. -/
def Move.driverTrack : Move → Option Track
  | .ta t _ => some t
  | .tb t => some t
  | .refill t => some t
  | .drain t => some t
  | .underrun t => some t
  | .word _ => none
  | .waitEnd => none
  | .reset => none

/-- A pull is of the track whose port carries it (30_encoding R96). -/
theorem decodePull_track {t : Track} {pq : BitVec 2} {i : Instr} (h : decodePull t pq = .ok i) : i.track = t := by
  unfold decodePull at h
  split_ifs at h <;> cases h <;> rfl

namespace Machine

/-- Two states agree on all that an operation on track `t` may read of the block. -/
structure State.AgreeOn (t : Track) (s₁ s₂ : State) : Prop where
  params : s₁.params = s₂.params
  track : s₁.track t = s₂.track t
  otherCfg : (s₁.track t.other).cfg = (s₂.track t.other).cfg

/-- Two answers are next states that agree on track `t`. -/
inductive NextAgree (t : Track) : (o₁ o₂ : Host.Outcome State Fault Refusal) → Prop
  | next {s₁ s₂ : State} (h : s₁.AgreeOn t s₂) : NextAgree t (.next s₁) (.next s₂)

variable {t u : Track} {s s' s₁ s₂ s₁' s₂' : State} {i : Instr} {m : Move}

namespace State.AgreeOn

variable (h : s₁.AgreeOn t s₂)
include h

theorem setTrack (ts : TrackState) : (s₁.setTrack t ts).AgreeOn t (s₂.setTrack t ts) where
  params := by simpa using h.params
  track := by simp
  otherCfg := by simpa using h.otherCfg

theorem respond (w : Word) : (s₁.respond w).AgreeOn t (s₂.respond w) where
  params := h.params
  track := by simpa using h.track
  otherCfg := by simpa using h.otherCfg

theorem status (c : Status) : (s₁.status t c).AgreeOn t (s₂.status t c) := by
  unfold State.status
  rw [h.track]
  exact (h.setTrack _).respond _

/-- What the command port holds does not matter. -/
theorem withPort (ws₁ ws₂ : List Word) (w₁ w₂ : Option WaitHold) :
    ({ s₁ with cmdWords := ws₁, waitHold := w₁ } : State).AgreeOn t { s₂ with cmdWords := ws₂, waitHold := w₂ } where
  params := h.params
  track := by cases t <;> exact h.track
  otherCfg := by cases t <;> exact h.otherCfg

theorem agentStep (e : Bool) (ts : TrackState) : (s₁.agentStep t e ts).AgreeOn t (s₂.agentStep t e ts) := by
  cases e
  · exact h
  · exact h.setTrack ts

/-- The platform looks at the other track's configuration and at nothing else of it (44 R210). -/
theorem platformAccepts_eq (k : DriverKind) (pin unit : BitVec 16) :
    s₁.platformAccepts t k pin unit = s₂.platformAccepts t k pin unit := by
  unfold State.platformAccepts; rw [h.params, h.otherCfg]

theorem waitDone_eq (thr : BitVec 8) : s₁.waitDone { track := t, thr := thr } = s₂.waitDone { track := t, thr := thr } := by
  unfold State.waitDone; rw [h.track]

theorem execLoad_nextAgree (idx nbits : BitVec 7) (rsv : BitVec 5) (rep : BitVec 8) (buf : Buf) :
    NextAgree t (execLoad t idx nbits rsv rep buf s₁) (execLoad t idx nbits rsv rep buf s₂) := by
  refine .next ?_
  rw [h.params, h.track]
  split_ifs
  · exact h.status _
  · exact h.status _
  · exact h.status _
  · exact (h.setTrack _).status _

theorem execSeqw_nextAgree (idx nbits : BitVec 7) (rsv : BitVec 5) (rep : BitVec 8) (buf : Buf) :
    NextAgree t (execSeqw t idx nbits rsv rep buf s₁) (execSeqw t idx nbits rsv rep buf s₂) := by
  refine .next ?_
  rw [h.params, h.track]
  split_ifs
  · exact h.status _
  · exact h.status _
  · exact h.status _
  · exact h.status _
  · exact (h.setTrack _).status _

theorem execSched_nextAgree (rsv : BitVec 19) (cnt : BitVec 8) :
    NextAgree t (execSched t rsv cnt s₁) (execSched t rsv cnt s₂) := by
  refine .next ?_
  rw [h.params, h.track]
  split_ifs
  · exact h.status _
  · exact h.status _
  · exact h.status _
  · exact (h.setTrack _).status _

theorem execKill_nextAgree (rsv : BitVec 27) : NextAgree t (execKill t rsv s₁) (execKill t rsv s₂) := by
  refine .next ?_
  rw [h.track]
  split_ifs
  · exact h.status _
  · exact (h.setTrack _).status _

theorem execWait_nextAgree (rsv : BitVec 19) (cnt : BitVec 8) :
    NextAgree t (execWait t rsv cnt s₁) (execWait t rsv cnt s₂) := by
  refine .next ?_
  rw [h.waitDone_eq]
  split_ifs
  · exact h.status _
  · exact (h.withPort _ _ _ _).status _
  · exact h.withPort _ _ _ _

theorem execStat_nextAgree (rsv : BitVec 27) : NextAgree t (execStat t rsv s₁) (execStat t rsv s₂) := by
  refine .next ?_
  rw [h.track]
  split_ifs
  · exact h.status _
  · exact h.respond _

theorem attachDriver (kind gran : BitVec 2) (thresh : BitVec 8) (pin unit : BitVec 16) :
    (s₁.attachDriver t kind gran thresh pin unit).AgreeOn t (s₂.attachDriver t kind gran thresh pin unit) := by
  unfold State.attachDriver
  simp only [h.params, h.track, h.platformAccepts_eq]
  split
  · split_ifs
    · exact (h.setTrack _).status _
    · exact h.status _
  · split
    · split_ifs
      · exact h.status _
      · exact (h.setTrack _).status _
      · exact h.status _
    · exact h.status _
  · exact h.status _

theorem execAttach_nextAgree (kind gran : BitVec 2) (thresh : BitVec 8) (rsv : BitVec 15) (pin unit : BitVec 16) :
    NextAgree t (execAttach t kind gran thresh rsv pin unit s₁) (execAttach t kind gran thresh rsv pin unit s₂) := by
  refine .next ?_
  rw [h.track]
  split_ifs
  · exact h.status _
  · exact h.status _
  · exact h.attachDriver _ _ _ _ _

end State.AgreeOn

/-- An instruction for track `t` keeps two states agreeing on `t`. -/
theorem State.AgreeOn.exec_nextAgree (hi : i.track = t) (h : s₁.AgreeOn t s₂) : NextAgree t (exec i s₁) (exec i s₂) := by
  subst hi
  cases i with
  | load t idx nbits rsv rep buf => exact h.execLoad_nextAgree idx nbits rsv rep buf
  | seqw t idx nbits rsv rep buf => exact h.execSeqw_nextAgree idx nbits rsv rep buf
  | sched t rsv cnt => exact h.execSched_nextAgree rsv cnt
  | kill t rsv => exact h.execKill_nextAgree rsv
  | wait t rsv cnt => exact h.execWait_nextAgree rsv cnt
  | stat t rsv => exact h.execStat_nextAgree rsv
  | attach t kind gran thresh rsv pin unit => exact h.execAttach_nextAgree kind gran thresh rsv pin unit
  | illegal0 | illegal8F => exact .next (h.status _)
  | pullBit | pullByte | pullPacket => exact .next (h.track ▸ h.setTrack _)

theorem State.AgreeOn.takePull_nextAgree (h : s₁.AgreeOn t s₂) : NextAgree t (takePull t s₁) (takePull t s₂) := by
  unfold takePull
  rw [h.track]
  split
  · next hd => exact h.exec_nextAgree (decodePull_track hd)
  · exact .next h

theorem NextAgree.thenTrack {o₁ o₂ : Host.Outcome State Fault Refusal} (h : NextAgree t o₁ o₂)
    (f : TrackState → TrackState) : NextAgree t (thenTrack o₁ t f) (thenTrack o₂ t f) := by
  obtain ⟨h⟩ := h
  exact .next (h.track ▸ h.setTrack _)

theorem State.AgreeOn.eventTa_nextAgree (h : s₁.AgreeOn t s₂) (now : Nat) :
    NextAgree t (s₁.eventTa t now) (s₂.eventTa t now) := by
  unfold State.eventTa
  rw [h.params, h.track]
  split_ifs
  · exact (h.setTrack _).takePull_nextAgree.thenTrack _
  · exact .next h

theorem State.AgreeOn.eventRefill_nextAgree (h : s₁.AgreeOn t s₂) : NextAgree t (s₁.eventRefill t) (s₂.eventRefill t) := by
  unfold State.eventRefill
  rw [h.params, h.track]
  split_ifs
  · exact h.takePull_nextAgree.thenTrack _
  · exact .next h

/-- An event of the driver of track `t` keeps two states agreeing on `t`. -/
theorem State.AgreeOn.driverEvent_nextAgree (hm : m.driverTrack = some t) (h : s₁.AgreeOn t s₂) :
    NextAgree t (applyMove m s₁) (applyMove m s₂) := by
  cases m with
  | ta t now => cases hm; exact h.eventTa_nextAgree now
  | tb t => cases hm; exact .next (by unfold State.eventTb; rw [h.params, h.track]; exact h.agentStep _ _)
  | refill t => cases hm; exact h.eventRefill_nextAgree
  | drain t => cases hm; exact .next (by unfold State.eventDrain; rw [h.params, h.track]; exact h.agentStep _ _)
  | underrun t => cases hm; exact .next (by unfold State.eventUnderrun; rw [h.track]; exact h.agentStep _ _)
  | word | waitEnd | reset => cases hm

theorem NextAgree.track_eq (h : NextAgree t (.next s₁) (.next s₂)) : s₁.track t = s₂.track t := by
  cases h with
  | next h => exact h.track

theorem exec_track_of_ne (hu : t ≠ i.track) (h : exec i s = .next s') : s'.track t = s.track t := by
  rw [Track.eq_other_of_ne hu, exec_track_other h]

theorem EventUpdate.driverTrack_eq {p : Params} {ts v : TrackState} (h : EventUpdate p t ts m v) :
    m.driverTrack = some t := by
  cases h <;> rfl

/-- An event of the driver of track `u` leaves the other track. -/
theorem driverEvent_track_of_ne (hm : m.driverTrack = some u) (hu : t ≠ u) (h : applyMove m s = .next s') :
    s'.track t = s.track t := by
  cases moveEffect_of_applyMove h with
  | kept => rfl
  | event m v w he =>
    obtain rfl : u = v := Option.some.inj (hm.symm.trans he.driverTrack_eq)
    exact s.track_setTrack_of_ne hu w
  | collected | command | waitEnded | reset => cases hm

/-- The end of a WAIT held on track `u` leaves the other track. -/
theorem State.endWait_track_of_ne {hold : WaitHold} (hw : s.waitHold = some hold) (hu : t ≠ hold.track) :
    s.endWait.track t = s.track t := by
  rcases s.endWait_cases with h | ⟨hold', hw', -, h⟩ <;> rw [h]
  obtain rfl : hold = hold' := Option.some.inj (hw.symm.trans hw')
  rw [State.status_track_of_ne _ hu, State.track_with_waitHold]

section

variable (h : s₁.AgreeOn t s₂)
include h

theorem State.AgreeOn.exec_track_eq (h₁ : exec i s₁ = .next s₁') (h₂ : exec i s₂ = .next s₂') :
    s₁'.track t = s₂'.track t := by
  by_cases hi : t = i.track
  · have hn := h.exec_nextAgree hi.symm
    rw [h₁, h₂] at hn
    exact hn.track_eq
  · rw [exec_track_of_ne hi h₁, exec_track_of_ne hi h₂, h.track]

theorem State.AgreeOn.driverEvent_track_eq (hm : m.driverTrack = some u) (h₁ : applyMove m s₁ = .next s₁')
    (h₂ : applyMove m s₂ = .next s₂') : s₁'.track t = s₂'.track t := by
  by_cases hu : t = u
  · have hn := h.driverEvent_nextAgree (hu ▸ hm)
    rw [h₁, h₂] at hn
    exact hn.track_eq
  · rw [driverEvent_track_of_ne hm hu h₁, driverEvent_track_of_ne hm hu h₂, h.track]

theorem State.AgreeOn.takeWord_track_eq {w : Word} (hc : s₁.cmdWords = s₂.cmdWords) (hw : s₁.waitHold = s₂.waitHold)
    (h₁ : takeWord w s₁ = .next s₁') (h₂ : takeWord w s₂ = .next s₂') : s₁'.track t = s₂'.track t := by
  simp only [takeWord, hc, hw] at h₁ h₂
  cases hw₂ : s₂.waitHold with
  | some hold =>
    rw [hw₂] at h₁ h₂
    cases h₁; cases h₂; exact h.track
  | none =>
    rw [hw₂] at h₁ h₂
    cases hd : decode (s₂.cmdWords ++ [w]) with
    | ok r =>
      rw [hd] at h₁ h₂
      exact (h.withPort [] [] none none).exec_track_eq h₁ h₂
    | error e =>
      rw [hd] at h₁ h₂
      cases h₁; cases h₂; exact (h.withPort _ _ none none).track

theorem State.AgreeOn.endWait_track_eq (hw : s₁.waitHold = s₂.waitHold) : s₁.endWait.track t = s₂.endWait.track t := by
  cases hw₂ : s₂.waitHold with
  | none => simpa [State.endWait, hw, hw₂] using h.track
  | some hold =>
    by_cases hu : t = hold.track
    · subst hu
      simp only [State.endWait, hw, hw₂, h.waitDone_eq]
      split_ifs
      · exact ((h.withPort _ _ none none).status .ok).track
      · exact h.track
    · rw [State.endWait_track_of_ne (hw.trans hw₂) hu, State.endWait_track_of_ne hw₂ hu, h.track]

theorem State.AgreeOn.resetInput_track_eq : s₁.resetInput.track t = s₂.resetInput.track t := by
  rw [State.resetInput_track, State.resetInput_track, h.params]

end

/-- Settles O27: a command or event of the track keeps the two states agreeing on it, one of the other track leaves the
track in both, and reset looks at the parameters only. -/
theorem tracksAreIndependent : Obligations.TracksAreIndependent := by
  intro s₁ s₂ s₁' s₂' t m hp hc hw ht hcfg h₁ h₂
  have h : s₁.AgreeOn t s₂ := ⟨hp, ht, hcfg⟩
  cases m with
  | word w => exact h.takeWord_track_eq hc hw h₁ h₂
  | waitEnd => cases h₁; cases h₂; exact h.endWait_track_eq hw
  | ta | tb | refill | drain | underrun => exact h.driverEvent_track_eq rfl h₁ h₂
  | reset => cases h₁; cases h₂; exact h.resetInput_track_eq

end Machine

end Sys2Proof
end

section
/-!
Commands given twice (20_memory R69): the second of two equal LOADs, SEQWs or KILLs passes the same checks and writes what
the track already holds, so only its response is new; a second SCHED finds the sequence active.
-/
namespace Sys2Proof

theorem Register.load_load (g : Register) (k : Packet) : (g.load k).load k = g.load k := by
  unfold Register.load; cases g.act <;> rfl

namespace Machine

variable {t : Track} {s s₁ s₂ : State} {idx nbits : BitVec 7} {rep : BitVec 8} {buf : Buf}

/-- A second LOAD of a packet writes its register back as it is, whether the register file has it or not (log 8). -/
theorem TrackState.loadRegister_set_self (ts : TrackState) (r : BitVec 7) (k : Packet) :
    (ts.loadRegister r k).regs.set r.toNat (((ts.loadRegister r k).register r).load k) = (ts.loadRegister r k).regs := by
  by_cases hr : r.toNat < ts.regs.length
  · rw [loadRegister_register_self hr, Register.load_load, loadRegister_eq, List.set_set]
  · rw [List.set_eq_of_length_le]
    rw [loadRegister_eq, List.length_set]
    exact Nat.le_of_not_lt hr

/-- LOAD is idempotent: the slot is written, the request made and the mark raised already (40 R110, R111, R113). -/
theorem TrackState.loadRegister_loadRegister (ts : TrackState) (r : BitVec 7) (k : Packet) :
    (ts.loadRegister r k).loadRegister r k = ts.loadRegister r k := by
  rw [loadRegister_eq (ts := ts.loadRegister r k), loadRegister_set_self, loadRegister_eq]
  congr 1
  · show (if (if ts.maxLoaded < r then r else ts.maxLoaded) < r then r else _) = _
    split_ifs <;> simp_all
  · show (if true = true ∧ (if _ then 0 else r) = 0 ∧ r ≠ 0 then 0 else r) = _
    by_cases hkept : ts.nextV = true ∧ ts.nextIdx = 0 ∧ r ≠ 0
    · rw [if_pos hkept, if_pos ⟨rfl, rfl, hkept.2.2⟩]
    · rw [if_neg hkept]
      split_ifs with hzero
      · exact hzero.2.1.symm
      · rfl

theorem TrackState.setEntry_setEntry (ts : TrackState) (i : BitVec 7) (k : Packet) :
    (ts.setEntry i k).setEntry i k = ts.setEntry i k := by
  unfold setEntry; rw [List.set_set]

/-- LOAD neither reads nor writes `lastStatus`. -/
theorem TrackState.loadRegister_lastStatus (ts : TrackState) (r : BitVec 7) (k : Packet) (c : Status) :
    ({ ts with lastStatus := c } : TrackState).loadRegister r k = { ts.loadRegister r k with lastStatus := c } := by
  rw [loadRegister_eq, loadRegister_eq]; rfl

/-- A command that is refused twice is refused with the same code. -/
theorem State.status_again (s : State) (t : Track) (c : Status) :
    (s.status t c).status t c = { s.status t c with responses := ((s.status t c).status t c).responses } := by
  cases t <;> rfl

/-- A command that is accepted twice changes no more than its response if what it writes is there already. -/
theorem State.accepted_again (s : State) (t : Track) {f : TrackState → TrackState}
    (hf : ∀ ts, f { f ts with lastStatus := .ok } = { f ts with lastStatus := .ok }) :
    s₁ = (s.setTrack t (f (s.track t))).status t .ok → s₂ = (s₁.setTrack t (f (s₁.track t))).status t .ok →
      s₂ = { s₁ with responses := s₂.responses } := by
  rintro rfl rfl
  have hs := (s.setTrack t (f (s.track t))).status_track t .ok
  rw [State.track_setTrack] at hs
  rw [hs, hf, ← hs, State.setTrack_track]
  exact State.status_again _ t .ok

theorem execLoad_again {rsv : BitVec 5} (h₁ : execLoad t idx nbits rsv rep buf s = .next s₁)
    (h₂ : execLoad t idx nbits rsv rep buf s₁ = .next s₂) : s₂ = { s₁ with responses := s₂.responses } := by
  unfold execLoad at h₁ h₂
  split_ifs at h₁ with hrsv hidx hlen <;> cases h₁ <;> cases h₂
  · rw [if_pos hrsv]; exact s.status_again t _
  · rw [if_neg hrsv, if_pos (by simpa using hidx)]; exact s.status_again t _
  · rw [if_neg hrsv, if_neg (by simpa using hidx), if_pos hlen]; exact s.status_again t _
  · refine State.accepted_again s t (f := fun ts => ts.loadRegister idx _) (fun ts => ?_) rfl ?_
    · rw [TrackState.loadRegister_lastStatus, TrackState.loadRegister_loadRegister]
    · rw [if_neg hrsv, if_neg (by simpa using hidx), if_neg hlen]

theorem execSeqw_again {rsv : BitVec 5} (h₁ : execSeqw t idx nbits rsv rep buf s = .next s₁)
    (h₂ : execSeqw t idx nbits rsv rep buf s₁ = .next s₂) : s₂ = { s₁ with responses := s₂.responses } := by
  unfold execSeqw at h₁ h₂
  split_ifs at h₁ with hrsv hbusy hidx hlen <;> cases h₁ <;> cases h₂
  · rw [if_pos hrsv]; exact s.status_again t _
  · rw [if_neg hrsv, if_pos (by simpa using hbusy)]; exact s.status_again t _
  · rw [if_neg hrsv, if_neg (by simpa using hbusy), if_pos (by simpa using hidx)]; exact s.status_again t _
  · rw [if_neg hrsv, if_neg (by simpa using hbusy), if_neg (by simpa using hidx), if_pos hlen]; exact s.status_again t _
  · refine State.accepted_again s t (f := fun ts => ts.setEntry idx _) (fun ts => ?_) rfl ?_
    · exact congrArg (fun u : TrackState => { u with lastStatus := .ok }) (ts.setEntry_setEntry idx _)
    · rw [if_neg hrsv, if_neg (by simpa using hbusy), if_neg (by simpa using hidx), if_neg hlen]

theorem execKill_again {rsv : BitVec 27} (h₁ : execKill t rsv s = .next s₁) (h₂ : execKill t rsv s₁ = .next s₂) :
    s₂ = { s₁ with responses := s₂.responses } := by
  unfold execKill at h₁ h₂
  split_ifs at h₁ with hrsv <;> cases h₁ <;> cases h₂
  · rw [if_pos hrsv]; exact s.status_again t _
  · refine State.accepted_again s t
      (f := fun ts => { ts with seqActive := false, seqLen := 0, seqCur := 0, seqRetire := false }) (fun ts => rfl) rfl ?_
    rw [if_neg hrsv]

/-- A SCHED that ended OK has made its sequence active (41 R122). -/
theorem execSched_active {rsv : BitVec 19} {cnt : BitVec 8} (h : execSched t rsv cnt s = .next s₁)
    (hok : (s₁.track t).lastStatus = .ok) : (s₁.track t).seqActive = true := by
  unfold execSched at h
  split_ifs at h <;> cases h <;> rw [State.status_track] at hok ⊢
  · cases hok
  · cases hok
  · cases hok
  · rw [State.track_setTrack]

theorem execSched_busy {cnt : BitVec 8} (h : (s.track t).seqActive = true) :
    execSched t 0 cnt s = .next (s.endedWith t .eBusy 3) := by
  unfold execSched
  rw [if_neg (not_not.2 rfl), if_pos h, State.status_eq]
  rfl

/-- Settles O23, command by command. -/
theorem idempotentCommands : Obligations.IdempotentCommands := by
  intro s s₁
  refine ⟨fun i s₂ hi h₁ h₂ => ?_, fun t c c' h hok => execSched_busy (execSched_active h hok)⟩
  obtain ⟨t, idx, nbits, rsv, rep, buf, rfl | rfl⟩ | ⟨t, rsv, rfl⟩ := hi
  · exact execLoad_again h₁ h₂
  · exact execSeqw_again h₁ h₂
  · exact execKill_again h₁ h₂

end Machine

end Sys2Proof
end

section
/-!
The packet bytes in the payload words (20_memory R61): the buffer is the three words one after the other, less the low
half of the third, so a byte of it is a byte of one word.
-/
namespace Sys2Proof

/-- Bits of a field, the whole of them inside the field. -/
theorem extractLsb'_extractLsb'_of_add_le {n : Nat} (x : BitVec n) {a m b k : Nat} (h : b + k ≤ m) :
    (x.extractLsb' a m).extractLsb' b k = x.extractLsb' (a + b) k := by
  ext i hi
  simp only [BitVec.getElem_extractLsb', BitVec.getLsbD_extractLsb', Nat.add_assoc]
  rw [decide_eq_true (by omega), Bool.true_and]

variable (w0 w1 w2 w3 : Word) {j : Nat}

theorem byteOf_payload_first (hj : j < 4) : byteOf (payload w1 w2 w3) (4 * 0 + j) = w1.extractLsb' (24 - 8 * j) 8 := by
  unfold byteOf payload
  rw [BitVec.extractLsb'_append_eq_of_le (by omega), BitVec.extractLsb'_append_eq_of_le (by omega)]
  congr 1; omega

theorem byteOf_payload_second (hj : j < 4) : byteOf (payload w1 w2 w3) (4 * 1 + j) = w2.extractLsb' (24 - 8 * j) 8 := by
  unfold byteOf payload
  rw [BitVec.extractLsb'_append_eq_of_le (by omega), BitVec.extractLsb'_append_eq_of_add_le (by omega)]
  congr 1; omega

/-- The last two bytes lie in the high half of the third payload word (30_encoding R85). -/
theorem byteOf_payload_third (hj : j < 2) : byteOf (payload w1 w2 w3) (4 * 2 + j) = w3.extractLsb' (24 - 8 * j) 8 := by
  unfold byteOf payload
  rw [BitVec.extractLsb'_append_eq_of_add_le (by omega), extractLsb'_extractLsb'_of_add_le _ (by omega)]
  congr 1; omega

/-- The buffer of a LOAD or SEQW is its payload (30_encoding R85). -/
theorem buf_eq_payload {t : Track} {idx nbits : BitVec 7} {rsv : BitVec 5} {rep : BitVec 8} {buf : Buf}
    (h : decodeFields w0 w1 w2 w3 = .load t idx nbits rsv rep buf ∨
      decodeFields w0 w1 w2 w3 = .seqw t idx nbits rsv rep buf) : buf = payload w1 w2 w3 := by
  unfold decodeFields at h
  simp only [] at h
  split_ifs at h <;> rcases h with h | h <;> cases h <;> rfl

/-- Four words hold a whole command, and its fields are read from them. -/
theorem decode_four : decode [w0, w1, w2, w3] =
    .ok (decodeFields w0 w1 w2 w3, [w0, w1, w2, w3].drop (commandLength w0)) :=
  decode_whole (commandLength_range w0).2

/-- Settles O4: the packet is the payload, and each of its bytes is found in its word. -/
theorem payloadIsBigEndian : Obligations.PayloadIsBigEndian := by
  intro w0 w1 w2 w3 i buf rest hd hi k j hk hj hkj
  rw [decode_four] at hd
  cases hd
  obtain ⟨t, idx, nbits, rsv, rep, hi⟩ := hi
  obtain rfl := buf_eq_payload w0 w1 w2 w3 hi
  match k, hk with
  | 0, _ => exact byteOf_payload_first w1 w2 w3 hj
  | 1, _ => exact byteOf_payload_second w1 w2 w3 hj
  | 2, _ => exact byteOf_payload_third w1 w2 w3 (by omega)

end Sys2Proof
end

section
/-!
What a step does with the move drawn (20_memory R64 to R66), and that an event that is not enabled is no step (R65).
-/
namespace Sys2Proof

/-- The pull a ring driver of this granularity makes (43 R180). -/
def Gran.pull (g : Gran) (t : Track) : Instr :=
  match g with
  | .bit => .pullBit t
  | .byte => .pullByte t
  | .packet => .pullPacket t

namespace Machine

variable {s : State} {t : Track} {m : Move}

theorem step_of_placed {ms : List Move} (h : s.pending = m :: ms) : step s = applyMove m { s with pending := ms } := by
  unfold step State.draw; rw [h]

theorem step_of_not_placed (h : s.pending = []) :
    step s = applyMove (Config.move s.moveNo) { s with moveNo := s.moveNo + 1 } := by
  unfold step State.draw; rw [h]

/-- The word that completes a command makes it execute (30_encoding R81). -/
theorem takeWord_of_decode {w : Word} {i : Instr} {after : List Word} (hw : s.waitHold = none)
    (hd : decode (s.cmdWords ++ [w]) = .ok (i, after)) : takeWord w s = exec i { s with cmdWords := [] } := by
  unfold takeWord; rw [hw, hd]

/-- The timer driver pulls bits (43 R172). -/
theorem takePull_of_timer (h : (s.track t).cfg.kind = .timer) : takePull t s = exec (.pullBit t) s := by
  unfold takePull TrackState.pullCode; rw [h]; rfl

/-- The ring driver pulls units of its granularity (43 R180). -/
theorem takePull_of_ring (h : (s.track t).cfg.kind = .ring) :
    takePull t s = exec ((s.track t).cfg.gran.pull t) s := by
  unfold takePull TrackState.pullCode
  rw [h]
  cases (s.track t).cfg.gran <;> rfl

theorem State.eventTa_of_enabled (h : (s.track t).taEnabled = true) (now : Nat) :
    s.eventTa t now = thenTrack (exec (.pullBit t) (s.setTrack t (s.track t).startTa)) t
      (TrackState.finishTa s.params now) := by
  have hk : ((s.setTrack t (s.track t).startTa).track t).cfg.kind = .timer := by
    rw [State.track_setTrack]; exact (of_decide_eq_true h).1
  unfold State.eventTa
  rw [if_pos h, takePull_of_timer hk]

theorem State.eventRefill_of_enabled (h : (s.track t).refillEnabled s.params = true) :
    s.eventRefill t = thenTrack (exec ((s.track t).cfg.gran.pull t) s) t (TrackState.finishRefill s.params) := by
  unfold State.eventRefill
  rw [if_pos h, takePull_of_ring (of_decide_eq_true h).1]

/-- Settles O8: the move drawn, made by the lemma for it. -/
theorem stepRunsDecodedInstruction : Obligations.StepRunsDecodedInstruction := by
  intro s ms
  refine ⟨fun w i after hp hw hd => ?_, fun t now hp he => ?_, fun t hp he => ?_, step_of_not_placed⟩
  · rw [step_of_placed hp]
    exact takeWord_of_decode (s := { s with pending := ms }) hw hd
  · rw [← s.track_with_pending t ms] at he ⊢
    rw [step_of_placed hp]
    exact State.eventTa_of_enabled he now
  · rw [step_of_placed hp]
    have h := State.eventRefill_of_enabled (s := { s with pending := ms }) (t := t) (by rwa [State.track_with_pending])
    rw [State.track_with_pending] at h
    unfold Gran.pull at h
    exact h

theorem State.agentStep_of_not_enabled {e : Bool} (h : e = false) (ts : TrackState) : s.agentStep t e ts = s := by
  rw [h]; rfl

theorem State.eventTa_of_not_enabled (h : (s.track t).taEnabled = false) (now : Nat) : s.eventTa t now = .next s := by
  unfold State.eventTa; rw [h]; rfl

theorem State.eventRefill_of_not_enabled (h : (s.track t).refillEnabled s.params = false) :
    s.eventRefill t = .next s := by
  unfold State.eventRefill; rw [h]; rfl

/-- Every driver event asks for its driver, so an unattached track has none (44 R211). -/
theorem TrackState.not_enabled_of_unattached {ts : TrackState} (h : ts.cfg.kind = .none) (p : Params) :
    ts.taEnabled = false ∧ ts.tbEnabled = false ∧ ts.refillEnabled p = false ∧ ts.drainEnabled = false ∧
      ts.underrunEnabled = false := by
  simp [taEnabled, tbEnabled, refillEnabled, drainEnabled, underrunEnabled, h]

/-- Settles O49: each event tests its condition first, and each condition names its driver. -/
theorem notEnabledEventsDoNothing : Obligations.NotEnabledEventsDoNothing := fun _ _ now =>
  ⟨fun h => State.eventTa_of_not_enabled h now, fun h => congrArg _ (State.agentStep_of_not_enabled h _),
    State.eventRefill_of_not_enabled, fun h => congrArg _ (State.agentStep_of_not_enabled h _),
    fun h => congrArg _ (State.agentStep_of_not_enabled h _), fun h => TrackState.not_enabled_of_unattached h _⟩

end Machine

end Sys2Proof
end

section
/-!
Decoding undoes encoding (30_encoding R80 to R96). The command of each opcode is said once, read from its header word and
the payload words of its own length; on an encoded instruction its fields are the operands.
-/
namespace Sys2Proof

section

variable {w0 : Word} (w1 w2 w3 : Word)

theorem decodeFields_illegal0 (h : opcode w0 = 0) :
    decodeFields w0 w1 w2 w3 = .illegal0 (trackOf w0) (w0.extractLsb' 0 27) := by
  simp [decodeFields, h]

theorem decodeFields_load (h : opcode w0 = 1) :
    decodeFields w0 w1 w2 w3 = .load (trackOf w0) (w0.extractLsb' 20 7) (w0.extractLsb' 13 7) (w0.extractLsb' 8 5)
      (w0.extractLsb' 0 8) (payload w1 w2 w3) := by
  simp [decodeFields, h]

theorem decodeFields_seqw (h : opcode w0 = 2) :
    decodeFields w0 w1 w2 w3 = .seqw (trackOf w0) (w0.extractLsb' 20 7) (w0.extractLsb' 13 7) (w0.extractLsb' 8 5)
      (w0.extractLsb' 0 8) (payload w1 w2 w3) := by
  simp [decodeFields, h]

theorem decodeFields_sched (h : opcode w0 = 3) :
    decodeFields w0 w1 w2 w3 = .sched (trackOf w0) (w0.extractLsb' 8 19) (w0.extractLsb' 0 8) := by
  simp [decodeFields, h]

theorem decodeFields_kill (h : opcode w0 = 4) :
    decodeFields w0 w1 w2 w3 = .kill (trackOf w0) (w0.extractLsb' 0 27) := by
  simp [decodeFields, h]

theorem decodeFields_wait (h : opcode w0 = 5) :
    decodeFields w0 w1 w2 w3 = .wait (trackOf w0) (w0.extractLsb' 8 19) (w0.extractLsb' 0 8) := by
  simp [decodeFields, h]

theorem decodeFields_stat (h : opcode w0 = 6) :
    decodeFields w0 w1 w2 w3 = .stat (trackOf w0) (w0.extractLsb' 0 27) := by
  simp [decodeFields, h]

theorem decodeFields_attach (h : opcode w0 = 7) :
    decodeFields w0 w1 w2 w3 = .attach (trackOf w0) (w0.extractLsb' 25 2) (w0.extractLsb' 23 2) (w0.extractLsb' 15 8)
      (w0.extractLsb' 0 15) (w1.extractLsb' 16 16) (w1.extractLsb' 0 16) := by
  simp [decodeFields, h]

/-- An opcode of 8 or more is none of those below 8. -/
theorem opcode_ne_of_high (h : 8 ≤ (opcode w0).toNat) {k : BitVec 4} (hk : k.toNat < 8) : opcode w0 ≠ k := by
  rintro rfl; omega

theorem decodeFields_illegal8F (h : 8 ≤ (opcode w0).toNat) :
    decodeFields w0 w1 w2 w3 = .illegal8F (w0.extractLsb' 28 3) (trackOf w0) (w0.extractLsb' 0 27) := by
  simp [decodeFields, opcode_ne_of_high h]

end

/-- The opcodes: one each for 0 to 7, and the illegal ones above (30_encoding R83). -/
theorem opcode_cases (op : BitVec 4) :
    op = 0 ∨ op = 1 ∨ op = 2 ∨ op = 3 ∨ op = 4 ∨ op = 5 ∨ op = 6 ∨ op = 7 ∨ 8 ≤ op.toNat := by
  revert op; decide

/-- Whole commands, and any words behind them: the command is its fields, and the words behind are left (R81, R91). -/
theorem decode_append {w0 : Word} {ws : List Word} (hlen : ws.length + 1 = commandLength w0) (rest : List Word) :
    decode (w0 :: ws ++ rest) =
      .ok (decodeFields w0 ((ws ++ rest).getD 0 0) ((ws ++ rest).getD 1 0) ((ws ++ rest).getD 2 0), rest) := by
  rw [List.cons_append, decode_whole (by simp; omega), ← hlen, List.drop_succ_cons, List.drop_left]

/-- An instruction whose encoded words have its fields is decoded from them (R80, R91). -/
theorem decode_command {i : Instr} {w0 : Word} {ws : List Word} (he : encode i = .command (w0 :: ws))
    (hs : Laws.EncodingHeader.Statement i) (rest : List Word)
    (hf : decodeFields w0 ((ws ++ rest).getD 0 0) ((ws ++ rest).getD 1 0) ((ws ++ rest).getD 2 0) = i) :
    decode (w0 :: ws ++ rest) = .ok (i, rest) := by
  unfold Laws.EncodingHeader.Statement at hs
  rw [he] at hs
  obtain ⟨-, -, hlen⟩ := hs
  rw [decode_append hlen, hf]

theorem decodeFields_load_encoded (t : Track) (idx nbits : BitVec 7) (rsv : BitVec 5) (rep : BitVec 8) (buf : Buf) :
    decodeFields (headerP 1 t idx nbits rsv rep) (buf.extractLsb' 48 32) (buf.extractLsb' 16 32)
      (buf.extractLsb' 0 16 ++ (0 : BitVec 16)) = .load t idx nbits rsv rep buf := by
  rw [decodeFields_load _ _ _ (opcode_headerP ..), trackOf_headerP, idx_headerP, nbits_headerP, rsv_headerP, rep_headerP,
    payload_payloadWords]

theorem decodeFields_seqw_encoded (t : Track) (idx nbits : BitVec 7) (rsv : BitVec 5) (rep : BitVec 8) (buf : Buf) :
    decodeFields (headerP 2 t idx nbits rsv rep) (buf.extractLsb' 48 32) (buf.extractLsb' 16 32)
      (buf.extractLsb' 0 16 ++ (0 : BitVec 16)) = .seqw t idx nbits rsv rep buf := by
  rw [decodeFields_seqw _ _ _ (opcode_headerP ..), trackOf_headerP, idx_headerP, nbits_headerP, rsv_headerP, rep_headerP,
    payload_payloadWords]

theorem decodeFields_attach_encoded (t : Track) (kind gran : BitVec 2) (thresh : BitVec 8) (rsv : BitVec 15)
    (pin unit : BitVec 16) (w2 w3 : Word) :
    decodeFields (headerA t kind gran thresh rsv) (pin ++ unit) w2 w3 = .attach t kind gran thresh rsv pin unit := by
  rw [decodeFields_attach _ _ _ (opcode_headerA ..), trackOf_headerA, kind_headerA, gran_headerA, thresh_headerA,
    rsv_headerA, pin_word, unit_word]

theorem decodeFields_illegal8F_encoded (op : BitVec 3) (t : Track) (rest : BitVec 27) (w1 w2 w3 : Word) :
    decodeFields (headerZ ((1 : BitVec 1) ++ op) t rest) w1 w2 w3 = .illegal8F op t rest := by
  have high : ∀ op : BitVec 3, 8 ≤ ((1 : BitVec 1) ++ op).toNat := by decide
  rw [decodeFields_illegal8F _ _ _ (by rw [opcode_headerZ]; exact high op), op3_headerZ, trackOf_headerZ, rest_headerZ]

/-- Settles O2: the header read back field by field, opcode by opcode. -/
theorem decodeOfEncode : Obligations.DecodeOfEncode := by
  intro i
  cases i with
  | load t idx nbits rsv rep buf =>
    exact fun rest => decode_command rfl (Laws.EncodingHeader.load ..) rest (decodeFields_load_encoded ..)
  | seqw t idx nbits rsv rep buf =>
    exact fun rest => decode_command rfl (Laws.EncodingHeader.seqw ..) rest (decodeFields_seqw_encoded ..)
  | sched t rsv cnt =>
    refine fun rest => decode_command rfl (Laws.EncodingHeader.sched ..) rest ?_
    rw [decodeFields_sched _ _ _ (opcode_headerC ..), trackOf_headerC, rsv_headerC, cnt_headerC]
  | kill t rsv =>
    refine fun rest => decode_command rfl (Laws.EncodingHeader.kill ..) rest ?_
    rw [decodeFields_kill _ _ _ (opcode_headerZ ..), trackOf_headerZ, rest_headerZ]
  | wait t rsv cnt =>
    refine fun rest => decode_command rfl (Laws.EncodingHeader.wait ..) rest ?_
    rw [decodeFields_wait _ _ _ (opcode_headerC ..), trackOf_headerC, rsv_headerC, cnt_headerC]
  | stat t rsv =>
    refine fun rest => decode_command rfl (Laws.EncodingHeader.stat ..) rest ?_
    rw [decodeFields_stat _ _ _ (opcode_headerZ ..), trackOf_headerZ, rest_headerZ]
  | attach t kind gran thresh rsv pin unit =>
    exact fun rest => decode_command rfl (Laws.EncodingHeader.attach ..) rest (decodeFields_attach_encoded ..)
  | illegal0 t rest' =>
    refine fun rest => decode_command rfl (Laws.EncodingHeader.illegal0 ..) rest ?_
    rw [decodeFields_illegal0 _ _ _ (opcode_headerZ ..), trackOf_headerZ, rest_headerZ]
  | illegal8F op t rest' =>
    exact fun rest => decode_command rfl (Laws.EncodingHeader.illegal8F ..) rest (decodeFields_illegal8F_encoded ..)
  | pullBit | pullByte | pullPacket => rfl

/-- Settles O1: the decoder run on each group of words. -/
theorem wordsDecode : Obligations.WordsDecode :=
  ⟨rfl, rfl, rfl, rfl, rfl, rfl, rfl, rfl, rfl, rfl, rfl, rfl, rfl, rfl, rfl, rfl⟩

end Sys2Proof
end

section
/-!
Encoding undoes decoding (30_encoding R81, R85, R91): the fields of a header, written one after the other, are the header
again, and the payload words are written back less the ignored half of the last.
-/
namespace Sys2Proof

section

variable (w : Word)

theorem trackOf_bit : (trackOf w).bit = w.extractLsb' 27 1 := by
  unfold trackOf
  ext i hi
  obtain rfl : i = 0 := by omega
  simp only [BitVec.getElem_extractLsb', Nat.add_zero]
  cases w.getLsbD 27 <;> simp [Track.bit]

theorem opcode_append_trackOf : opcode w ++ (trackOf w).bit = w.extractLsb' 27 5 := by
  rw [trackOf_bit]
  exact BitVec.extractLsb'_append_extractLsb'_eq_extractLsb' rfl

theorem headerP_fields : headerP (opcode w) (trackOf w) (w.extractLsb' 20 7) (w.extractLsb' 13 7) (w.extractLsb' 8 5)
    (w.extractLsb' 0 8) = w := by
  unfold headerP
  rw [opcode_append_trackOf]
  simp (disch := decide) only [BitVec.extractLsb'_append_extractLsb'_eq_extractLsb']
  exact BitVec.extractLsb'_eq_self

theorem headerC_fields : headerC (opcode w) (trackOf w) (w.extractLsb' 8 19) (w.extractLsb' 0 8) = w := by
  unfold headerC
  rw [opcode_append_trackOf]
  simp (disch := decide) only [BitVec.extractLsb'_append_extractLsb'_eq_extractLsb']
  exact BitVec.extractLsb'_eq_self

theorem headerZ_fields : headerZ (opcode w) (trackOf w) (w.extractLsb' 0 27) = w := by
  unfold headerZ
  rw [opcode_append_trackOf]
  simp (disch := decide) only [BitVec.extractLsb'_append_extractLsb'_eq_extractLsb']
  exact BitVec.extractLsb'_eq_self

theorem headerA_fields (h : opcode w = 7) : headerA (trackOf w) (w.extractLsb' 25 2) (w.extractLsb' 23 2)
    (w.extractLsb' 15 8) (w.extractLsb' 0 15) = w := by
  unfold headerA
  rw [← h, opcode_append_trackOf]
  simp (disch := decide) only [BitVec.extractLsb'_append_extractLsb'_eq_extractLsb']
  exact BitVec.extractLsb'_eq_self

theorem halves_append : w.extractLsb' 16 16 ++ w.extractLsb' 0 16 = w := by
  simp (disch := decide) only [BitVec.extractLsb'_append_extractLsb'_eq_extractLsb']
  exact BitVec.extractLsb'_eq_self

/-- The mask keeps the high half (30_encoding R85). -/
theorem high_half_append : w.extractLsb' 16 16 ++ (0 : BitVec 16) = w &&& 0xFFFF0000#32 := by
  have mask : 0xFFFF0000#32 = BitVec.allOnes 16 ++ (0 : BitVec 16) := by decide
  calc w.extractLsb' 16 16 ++ (0 : BitVec 16)
      = (w.extractLsb' 16 16 &&& BitVec.allOnes 16) ++ (w.extractLsb' 0 16 &&& (0 : BitVec 16)) := by
        rw [BitVec.and_allOnes, BitVec.ofNat_eq_ofNat, BitVec.and_zero]
    _ = (w.extractLsb' 16 16 ++ w.extractLsb' 0 16) &&& (BitVec.allOnes 16 ++ (0 : BitVec 16)) := BitVec.and_append.symm
    _ = w &&& 0xFFFF0000#32 := by rw [halves_append, mask]

/-- The top bit of an opcode of 8 or more is 1 (30_encoding R93). -/
theorem opcode_of_high (h : 8 ≤ (opcode w).toNat) : (1 : BitVec 1) ++ w.extractLsb' 28 3 = opcode w := by
  have top : ∀ op : BitVec 4, 8 ≤ op.toNat → (1 : BitVec 1) ++ op.extractLsb' 0 3 = op := by decide
  rw [← top _ h]
  unfold opcode
  rw [extractLsb'_extractLsb'_of_add_le _ (by decide)]

end

/-- The payload words of a payload are the words it was read from, less what R85 ignores. -/
theorem payloadWords_payload (w1 w2 w3 : Word) :
    payloadWords (payload w1 w2 w3) = [w1, w2, w3 &&& 0xFFFF0000#32] := by
  unfold payloadWords payload
  simp (disch := decide) only [BitVec.extractLsb'_append_eq_of_le, BitVec.extractLsb'_append_eq_right, Nat.reduceSub,
    BitVec.extractLsb'_eq_self, high_half_append]

section

variable (w0 w1 w2 w3 : Word)

/-- The words of a decoded command are its words, less what R85 ignores. -/
theorem encode_decodeFields :
    encode (decodeFields w0 w1 w2 w3) = .command ([w0, w1, w2, w3 &&& 0xFFFF0000#32].take (commandLength w0)) := by
  unfold commandLength
  rcases opcode_cases (opcode w0) with h | h | h | h | h | h | h | h | h
  · rw [decodeFields_illegal0 _ _ _ h, encode, ← h, headerZ_fields, h]; rfl
  · rw [decodeFields_load _ _ _ h, encode, ← h, headerP_fields, payloadWords_payload, h]; rfl
  · rw [decodeFields_seqw _ _ _ h, encode, ← h, headerP_fields, payloadWords_payload, h]; rfl
  · rw [decodeFields_sched _ _ _ h, encode, ← h, headerC_fields, h]; rfl
  · rw [decodeFields_kill _ _ _ h, encode, ← h, headerZ_fields, h]; rfl
  · rw [decodeFields_wait _ _ _ h, encode, ← h, headerC_fields, h]; rfl
  · rw [decodeFields_stat _ _ _ h, encode, ← h, headerZ_fields, h]; rfl
  · rw [decodeFields_attach _ _ _ h, encode, headerA_fields _ h, halves_append, h]; rfl
  · rw [decodeFields_illegal8F _ _ _ h, encode, opcode_of_high _ h, headerZ_fields]
    simp [opcode_ne_of_high h]

end

/-- Settles O3: four words hold a whole command, and it is encoded as the words it was read from. -/
theorem encodeOfDecode : Obligations.EncodeOfDecode := by
  intro w0 w1 w2 w3
  refine ⟨_, _, decode_four w0 w1 w2 w3, ?_, rfl⟩
  have hlen : [w0, w1, w2, w3].length - ([w0, w1, w2, w3].drop (commandLength w0)).length = commandLength w0 := by
    have := (commandLength_range w0).2
    simp only [List.length_drop, List.length_cons, List.length_nil]
    omega
  rw [hlen]
  exact encode_decodeFields w0 w1 w2 w3

end Sys2Proof
end

section
/-!
The pulse descriptor of a bit (30_encoding R95) and the command port (R81): words are collected until the length the header
asks for is reached, and the command of those words then runs; so does an instruction placed for the next step.
-/
namespace Sys2Proof

theorem halfPeriod_pos {p : Params} (hp : p.Legal) (b : Bool) : 0 < p.halfPeriod b := by
  have hticks := hp.ticksPerUs
  unfold Params.halfPeriod Config.t1HalfUs Config.t0HalfUs
  split <;> omega

/-- The three lengths of a command, and the opcodes that have them (R81). -/
theorem commandLength_cases (w0 : Word) :
    (opcode w0 = 1 ∨ opcode w0 = 2) ∧ commandLength w0 = 4 ∨ opcode w0 = 7 ∧ commandLength w0 = 2 ∨
      (opcode w0 ≠ 1 ∧ opcode w0 ≠ 2 ∧ opcode w0 ≠ 7) ∧ commandLength w0 = 1 := by
  unfold commandLength
  split_ifs with h₁₂ h₇
  · exact .inl ⟨h₁₂, rfl⟩
  · exact .inr (.inl ⟨h₇, rfl⟩)
  · obtain ⟨h₁, h₂⟩ := not_or.1 h₁₂
    exact .inr (.inr ⟨⟨h₁, h₂, h₇⟩, rfl⟩)

/-- As many words as the header asks for are one command, and none is left. -/
theorem decode_all {w0 : Word} {ws : List Word} (hlen : (w0 :: ws).length = commandLength w0) :
    decode (w0 :: ws) = .ok (decodeFields w0 (ws.getD 0 0) (ws.getD 1 0) (ws.getD 2 0), []) := by
  simpa using decode_append hlen []

/-- Words beyond a command's own length do not matter to it (R81, R91). -/
theorem decode_take (w0 w1 w2 w3 : Word) :
    decode ([w0, w1, w2, w3].take (commandLength w0)) = .ok (decodeFields w0 w1 w2 w3, []) := by
  rcases commandLength_cases w0 with ⟨-, hlen⟩ | ⟨h, hlen⟩ | ⟨⟨h₁, h₂, h₇⟩, hlen⟩ <;> rw [hlen]
  · exact decode_all (ws := [w1, w2, w3]) hlen.symm
  · refine (decode_all (ws := [w1]) hlen.symm).trans ?_
    rw [decodeFields_attach _ _ _ h, decodeFields_attach _ _ _ h]
    rfl
  · refine (decode_all (ws := []) hlen.symm).trans ?_
    simp only [decodeFields, if_neg h₁, if_neg h₂, if_neg h₇]

namespace Machine

/-- Settles O6: the fields of a descriptor, each wide enough for a half-period of legal parameters. -/
theorem descriptorOfBit : Obligations.DescriptorOfBit := fun p hp b =>
  ⟨rfl, descL0_desc p b, descDur0_desc hp b, descL1_desc p b, descDur1_desc hp b, halfPeriod_pos hp b⟩

/-- Settles O7: the words collected do not decode until they are as many as the header asks for. -/
theorem commandRunsOnLastWord : Obligations.CommandRunsOnLastWord := by
  intro s w w0 ws hw hws
  refine ⟨fun hlen => ?_, fun hlen => ?_⟩
  · have hd : decode (s.cmdWords ++ [w]) = _ := hws ▸ decode_part hlen
    show takeWord w s = _
    unfold takeWord
    rw [hw, hd]
  · have hd := decode_all (w0 := w0) hlen
    exact ⟨_, hd, takeWord_of_decode hw (hws ▸ hd)⟩

/-- The last word of a placed command is the next move, and the words before it are collected (log 12). -/
theorem State.withFetchWord_command (s : State) {nbits w : Nat} (h : ¬nbits < 32) {w0 : Word} {ws : List Word}
    (htable : tableWords nbits w = w0 :: ws) :
    s.withFetchWord nbits w =
      { s with
        cmdWords := ((w0 :: ws).take (commandLength w0)).dropLast
        waitHold := none
        pending := .word (((w0 :: ws).take (commandLength w0)).getLastD 0) :: s.pending } := by
  unfold State.withFetchWord
  rw [if_neg h, htable]
  rfl

theorem dropLast_append_getLastD {ws : List Word} (h : ws ≠ []) : ws.dropLast ++ [ws.getLastD 0] = ws := by
  rw [List.getLastD_eq_getLast?, List.getLast?_eq_some_getLast h, Option.getD_some, List.dropLast_append_getLast]

/-- With all words of a command but its last collected, and its last the next move, the step runs it (R81). -/
theorem step_of_last_word (s : State) {ws : List Word} {i : Instr} {after : List Word} (hne : ws ≠ [])
    (hd : decode ws = .ok (i, after)) :
    step { s with cmdWords := ws.dropLast, waitHold := none, pending := .word (ws.getLastD 0) :: s.pending } =
      exec i { s with cmdWords := [], waitHold := none } := by
  rw [step_of_placed rfl]
  refine takeWord_of_decode (s := { s with cmdWords := ws.dropLast, waitHold := none }) (after := after) rfl ?_
  rw [dropLast_append_getLastD hne, hd]

/-- The step after a command is placed runs it on the state with no words collected and no WAIT held. -/
theorem step_placed_command (s : State) {nbits w : Nat} {i : Instr} (h : ¬nbits < 32)
    (hi : decodeTableWord nbits w = some i) :
    step (s.withFetchWord nbits w) = exec i { s with cmdWords := [], waitHold := none } := by
  obtain ⟨w0, w1, w2, w3, htable⟩ : ∃ w0 w1 w2 w3, tableWords nbits w = [w0, w1, w2, w3] := ⟨_, _, _, _, rfl⟩
  have hd := decode_take w0 w1 w2 w3
  obtain rfl : decodeFields w0 w1 w2 w3 = i := by
    unfold decodeTableWord at hi
    rw [if_neg h, htable, decode_four] at hi
    exact Option.some.inj hi
  have hne : [w0, w1, w2, w3].take (commandLength w0) ≠ [] := fun he => by rw [he] at hd; cases hd
  rw [s.withFetchWord_command h htable, step_of_last_word s hne hd]

/-- A placed pull is made by the refill of an empty ring that has room for it (log 12). -/
theorem step_withPull (s : State) (g : Gran) :
    step (s.withPull g) = thenTrack (exec (g.pull .main) { s.withPull g with pending := s.pending }) .main
      (TrackState.finishRefill (s.withPull g).params) := by
  rw [step_of_placed (m := .refill .main) (ms := s.pending) rfl]
  refine State.eventRefill_of_enabled (s := { s.withPull g with pending := s.pending }) (t := .main) ?_
  exact decide_eq_true ⟨rfl, rfl, le_max_right _ _⟩

/-- The step after a pull is placed makes it, inside a refill. -/
theorem step_placed_pull (s : State) {nbits w : Nat} {i : Instr} (h : nbits < 32)
    (hi : decodeTableWord nbits w = some i) :
    step (s.withFetchWord nbits w) = thenTrack (exec i { s.withFetchWord nbits w with pending := s.pending }) .main
      (TrackState.finishRefill (s.withFetchWord nbits w).params) := by
  unfold decodeTableWord decodePull at hi
  unfold State.withFetchWord
  simp only [if_pos h] at hi ⊢
  split_ifs at hi ⊢
  · cases hi; exact step_withPull s .bit
  · cases hi; exact step_withPull s .byte
  · cases hi; exact step_withPull s .packet
  · cases hi

/-- Settles O9: commands and pulls, each as it is placed. -/
theorem placedInstructionRuns : Obligations.PlacedInstructionRuns := by
  intro s nbits w i hi
  show _ = if nbits < 32 then _ else _
  by_cases h : nbits < 32
  · rw [if_pos h]; exact step_placed_pull s h hi
  · rw [if_neg h]; exact step_placed_command s h hi

end Machine

end Sys2Proof
end

section
/-!
Ill-formed commands (30_encoding R92, R93): whatever makes a command ill formed, it ends with EILLEGAL on its track. The
decoder leaves the track and the reserved bits of the header in the instruction.
-/
namespace Sys2Proof

/-- A decoded command is of the track its header names (R80). -/
theorem decodeFields_track (w0 w1 w2 w3 : Word) : (decodeFields w0 w1 w2 w3).track = trackOf w0 := by
  unfold decodeFields
  simp only []
  split_ifs <;> rfl

/-- The illegal opcodes: 0, and 8 to F (R93). -/
def IllegalOpcode (w0 : Word) : Prop := opcode w0 = 0 ∨ 8 ≤ (opcode w0).toNat

/-- A reserved bit of the header of a legal opcode is 1 (R92). -/
def ReservedBitSet (w0 : Word) : Prop :=
  (opcode w0 = 1 ∨ opcode w0 = 2) ∧ w0.extractLsb' 8 5 ≠ 0 ∨ (opcode w0 = 3 ∨ opcode w0 = 5) ∧ w0.extractLsb' 8 19 ≠ 0 ∨
    (opcode w0 = 4 ∨ opcode w0 = 6) ∧ w0.extractLsb' 0 27 ≠ 0 ∨ opcode w0 = 7 ∧ w0.extractLsb' 0 15 ≠ 0

section

variable {w0 : Word} (w1 w2 w3 : Word)

theorem decodeFields_wf_of_illegalOpcode (h : IllegalOpcode w0) : (decodeFields w0 w1 w2 w3).wf = false := by
  rcases h with h | h
  · rw [decodeFields_illegal0 _ _ _ h]; rfl
  · rw [decodeFields_illegal8F _ _ _ h]; rfl

theorem decodeFields_wf_of_reservedBitSet (h : ReservedBitSet w0) : (decodeFields w0 w1 w2 w3).wf = false := by
  rcases h with ⟨h | h, hr⟩ | ⟨h | h, hr⟩ | ⟨h | h, hr⟩ | ⟨h, hr⟩
  · rw [decodeFields_load _ _ _ h]; exact beq_eq_false_iff_ne.2 hr
  · rw [decodeFields_seqw _ _ _ h]; exact beq_eq_false_iff_ne.2 hr
  · rw [decodeFields_sched _ _ _ h]; exact beq_eq_false_iff_ne.2 hr
  · rw [decodeFields_wait _ _ _ h]; exact beq_eq_false_iff_ne.2 hr
  · rw [decodeFields_kill _ _ _ h]; exact beq_eq_false_iff_ne.2 hr
  · rw [decodeFields_stat _ _ _ h]; exact beq_eq_false_iff_ne.2 hr
  · rw [decodeFields_attach _ _ _ h]; exact beq_eq_false_iff_ne.2 hr

theorem commandLength_of_illegalOpcode (h : IllegalOpcode w0) : commandLength w0 = 1 := by
  unfold commandLength
  rcases h with h | h
  · rw [h]; rfl
  · simp [opcode_ne_of_high h]

end

/-- The low half of the third payload word is in no packet (30_encoding R85). -/
theorem payload_congr {w3 x : Word} (w1 w2 : Word) (h : w3.extractLsb' 16 16 = x.extractLsb' 16 16) :
    payload w1 w2 w3 = payload w1 w2 x := by
  unfold payload; rw [h]

namespace Machine

variable {i : Instr} {s : State}

/-- An ill-formed command writes `lastStatus` and responds with code 5 (R92, R93). -/
theorem exec_of_ill_formed (h : i.wf = false) (s : State) : exec i s = .next (s.endedWith i.track .eIllegal 5) := by
  have he : ∀ t, s.endedWith t .eIllegal 5 = s.status t .eIllegal := fun t => (s.status_eq t .eIllegal).symm
  rw [he]
  cases i with
  | load | seqw | sched | kill | wait | stat | attach => exact congrArg _ (if_pos (beq_eq_false_iff_ne.1 h))
  | illegal0 | illegal8F => rfl
  | pullBit | pullByte | pullPacket => cases h

/-- The word that completes an ill-formed command ends it. -/
theorem takeWord_of_ill_formed {w w0 : Word} {ws : List Word} (hw : s.waitHold = none) (hws : s.cmdWords ++ [w] = w0 :: ws)
    (hlen : (w0 :: ws).length = commandLength w0) (hwf : ∀ w1 w2 w3, (decodeFields w0 w1 w2 w3).wf = false) :
    takeWord w s = .next (({ s with cmdWords := [] }).endedWith (trackOf w0) .eIllegal 5) := by
  rw [takeWord_of_decode hw (hws ▸ decode_all hlen), exec_of_ill_formed (hwf _ _ _), decodeFields_track]

/-- Settles O19: an illegal opcode is a whole command, and never well formed. -/
theorem illegalOpcodes : Obligations.IllegalOpcodes := by
  refine ⟨fun s w hw hc (hop : IllegalOpcode w) => ?_, fun s t rest => ?_, fun s op t rest => ?_⟩
  · have hrun := takeWord_of_ill_formed (ws := []) hw (by rw [hc]; rfl) (commandLength_of_illegalOpcode hop).symm
      fun w1 w2 w3 => decodeFields_wf_of_illegalOpcode w1 w2 w3 hop
    have hs : { s with cmdWords := [] } = s := by rw [← hc]
    rwa [hs] at hrun
  · exact exec_of_ill_formed (i := .illegal0 t rest) rfl s
  · exact exec_of_ill_formed (i := .illegal8F op t rest) rfl s

/-- Settles O20: a reserved bit makes the command ill formed, whatever its payload; and of the third payload word only the
packet's half is read. -/
theorem reservedBits : Obligations.ReservedBits := by
  refine ⟨fun s w w0 ws hw hws hlen (hr : ReservedBitSet w0) => ?_, fun w0 w1 w2 w3 x hop hx => ?_⟩
  · exact takeWord_of_ill_formed hw hws hlen fun w1 w2 w3 => decodeFields_wf_of_reservedBitSet w1 w2 w3 hr
  · have hlen : commandLength w0 = 4 := if_pos hop
    rw [decode_four, decode_four, hlen]
    rcases hop with h | h
    · rw [decodeFields_load _ _ _ h, decodeFields_load _ _ _ h, payload_congr w1 w2 hx]; rfl
    · rw [decodeFields_seqw _ _ _ h, decodeFields_seqw _ _ _ h, payload_congr w1 w2 hx]; rfl

end Machine

end Sys2Proof
end

section
/-!
The responses (30_encoding R82, 41 R126): a command that ends responds with its status, a successful STAT with STATUS, a
WAIT that holds with nothing yet, and a pull with nothing.
-/
namespace Sys2Proof.Machine

variable {s s' : State} {i : Instr}

/-- A command that is not a successful STAT and does not hold the port responds with the status it leaves (R82). -/
theorem CommandEffect.response (h : CommandEffect s i s') (hstat : ∀ t, i ≠ .stat t 0) :
    (∃ t thr, i = .wait t 0 thr ∧ thr.toNat < (s.track t).seqLen.toNat ∧
      s' = { s with waitHold := some { track := t, thr := thr } }) ∨
    s'.responses = s.responses ++ [((s'.track i.track).lastStatus.code.setWidth 32 : Word)] := by
  cases h with
  | ended i c => right; rw [State.status_responses, State.status_track]
  | updated i u => right; rw [State.status_responses, State.status_track, State.setTrack_responses]
  | answered t => exact absurd rfl (hstat t)
  | waitEnded t cnt => right; rw [Instr.track, State.status_responses, State.status_track]
  | held t cnt hd =>
    have hlt : ¬(s.track t).seqLen.toNat ≤ cnt.toNat := fun hle =>
      Bool.false_ne_true (hd.symm.trans ((State.waitDone_iff { track := t, thr := cnt }).2 hle))
    exact .inl ⟨t, cnt, rfl, Nat.lt_of_not_le hlt, rfl⟩

theorem exec_responses_of_pull (hi : i.isCommand = false) (s : State) :
    ∃ s', exec i s = .next s' ∧ s'.responses = s.responses := by
  cases i with
  | pullBit | pullByte | pullPacket => exact ⟨_, rfl, s.setTrack_responses _ _⟩
  | load | seqw | sched | kill | wait | stat | attach | illegal0 | illegal8F => cases hi

/-- Settles O22: a successful STAT apart, every command's effect ends with its status or holds the port. -/
theorem oneResponsePerCommand : Obligations.OneResponsePerCommand := by
  intro s i
  cases hi : i.isCommand with
  | false => simpa using exec_responses_of_pull hi s
  | true =>
    simp only [if_true]
    by_cases hstat : ∃ t, i = .stat t 0
    · obtain ⟨t, rfl⟩ := hstat
      exact ⟨_, rfl, .inl ⟨t, rfl, rfl⟩⟩
    · have hstat := not_exists.1 hstat
      obtain ⟨s', hs', he⟩ := exec_effect hi s
      rcases he.response hstat with hheld | hresponse
      · exact ⟨s', hs', .inr (.inl hheld)⟩
      · exact ⟨s', hs', .inr (.inr ⟨hstat, hresponse⟩)⟩

end Sys2Proof.Machine
end

section
/-!
Who pulls (30_encoding R96, 44 R211): what a move leaves of one track, told with the command or the event that did it; and
that of these only the track's own TA and REFILL touch the reading side of its rotator, while only KILL lowers `seqLen`.
-/
namespace Sys2Proof.Machine

variable {p : Params} {t : Track} {ts u : TrackState} {s s' : State} {i : Instr} {m : Move}

/-- What a move but reset leaves of track `t`: the track as it was, but for a status; or what a command decoded from the
port, or an event of its driver, wrote there. -/
inductive TrackEffect (s : State) (t : Track) (m : Move) : TrackState → Prop
  | kept : TrackEffect s t m (s.track t)
  | ended (c : Status) : TrackEffect s t m { s.track t with lastStatus := c }
  | command (w : Word) (i : Instr) (after : List Word) (u : TrackState) (hm : m = .word w)
      (hd : decode (s.cmdWords ++ [w]) = .ok (i, after)) (hu : CommandUpdate s.params t (s.track t) i u) :
      TrackEffect s t m { u with lastStatus := .ok }
  | event (u : TrackState) (hu : EventUpdate s.params t (s.track t) m u) : TrackEffect s t m u

/-- A status reaches one track only, whatever has happened to the command port. -/
theorem TrackEffect.of_status {s₁ : State} (h : s₁.track t = s.track t) (t' : Track) (c : Status) :
    TrackEffect s t m ((s₁.status t' c).track t) := by
  by_cases e : t = t'
  · subst e; rw [State.status_track, h]; exact .ended c
  · rw [State.status_track_of_ne _ e, h]; exact .kept

theorem CommandEffect.trackEffect {w : Word} {after : List Word} (hd : decode (s.cmdWords ++ [w]) = .ok (i, after))
    (h : CommandEffect { s with cmdWords := [] } i s') (t : Track) : TrackEffect s t (.word w) (s'.track t) := by
  cases h with
  | ended i c => exact .of_status (s.track_with_cmdWords t []) i.track c
  | updated i u hu =>
    by_cases e : t = i.track
    · subst e
      rw [State.status_track, State.track_setTrack]
      rw [State.track_with_cmdWords] at hu
      exact .command w i after u rfl hd hu
    · rw [State.status_track_of_ne _ e, State.track_setTrack_of_ne _ e, State.track_with_cmdWords]; exact .kept
  | answered => rw [State.respond_track, State.track_with_cmdWords]; exact .kept
  | waitEnded u => exact .of_status (by cases t <;> rfl) u .ok
  | held => simpa using .kept

theorem MoveEffect.trackEffect (h : MoveEffect s m s') (hm : m ≠ .reset) (t : Track) : TrackEffect s t m (s'.track t) := by
  cases h with
  | kept => exact .kept
  | collected => rw [State.track_with_cmdWords]; exact .kept
  | command w i after s' hw hd he => exact he.trackEffect hd t
  | waitEnded hold => exact .of_status (s.track_with_waitHold t none) hold.track .ok
  | event m t' u hu =>
    by_cases e : t = t'
    · subst e; rw [State.track_setTrack]; exact .event u hu
    · rw [State.track_setTrack_of_ne _ e]; exact .kept
  | reset => exact absurd rfl hm

/-- The reading side of a track's rotator, and the reply lines, are as they were: no pull has happened. -/
def TrackState.Unread (ts u : TrackState) : Prop :=
  u.latch = ts.latch ∧ u.bitPos = ts.bitPos ∧ u.curReg = ts.curReg ∧ u.mix = ts.mix ∧ u.replyBit = ts.replyBit ∧
    u.replyByte = ts.replyByte ∧ u.replyPacket = ts.replyPacket

theorem TrackState.Unread.refl (ts : TrackState) : ts.Unread ts := ⟨rfl, rfl, rfl, rfl, rfl, rfl, rfl⟩

/-- No command pulls (60 R236). -/
theorem CommandUpdate.unread (hu : CommandUpdate p t ts i u) : ts.Unread u := by
  cases hu with
  | load => rw [TrackState.loadRegister_eq]; exact .refl _
  | seqw | sched | kill | attachTimer | attachRing => exact .refl _

/-- Of the commands only KILL lowers the remaining length: SCHED sets it where it was 0 (41 R122, R124). -/
theorem CommandUpdate.kill_of_seqLen_lt (hu : CommandUpdate p t ts i u) (hI : ts.Inv p t)
    (hlt : u.seqLen.toNat < ts.seqLen.toNat) : i = .kill t 0 := by
  cases hu with
  | load => rw [TrackState.loadRegister_eq] at hlt; exact absurd hlt (lt_irrefl _)
  | sched cnt hidle =>
    have hactive : ts.seqActive = true := hI.activeLen.2 (Nat.lt_of_le_of_lt (Nat.zero_le _) hlt)
    exact absurd (hidle.symm.trans hactive) Bool.false_ne_true
  | kill => rfl
  | seqw | attachTimer | attachRing => exact absurd hlt (lt_irrefl _)

/-- A move that is not an enabled TA or REFILL of track `t` (43 R172, R182). -/
def Move.NoPull (p : Params) (t : Track) (ts : TrackState) (m : Move) : Prop :=
  (∀ now, m = .ta t now → ts.taEnabled = false) ∧ (m = .refill t → ts.refillEnabled p = false)

/-- A driver event that is not the track's own pull reads nothing of the rotator (43 R173, R185, R186). -/
theorem EventUpdate.unread (hu : EventUpdate p t ts m u) (hm : Move.NoPull p t ts m) :
    ts.Unread u ∧ u.seqLen = ts.seqLen := by
  cases hu with
  | ta now he => exact absurd (he.symm.trans (hm.1 now rfl)) Bool.false_ne_true.symm
  | refill he => exact absurd (he.symm.trans (hm.2 rfl)) Bool.false_ne_true.symm
  | tb | underrun => exact ⟨.refl _, rfl⟩
  | drain => rw [TrackState.drain_eq]; exact ⟨.refl _, rfl⟩

theorem TrackEffect.unread (h : TrackEffect s t m u) (hm : Move.NoPull s.params t (s.track t) m) :
    (s.track t).Unread u := by
  cases h with
  | kept | ended => exact .refl _
  | command w i after u hw hd hu => exact hu.unread
  | event u hu => exact (hu.unread hm).1

theorem TrackEffect.kill_of_seqLen_lt (h : TrackEffect s t m u) (hI : (s.track t).Inv s.params t)
    (hm : Move.NoPull s.params t (s.track t) m) (hlt : u.seqLen.toNat < (s.track t).seqLen.toNat) :
    ∃ w after, m = .word w ∧ decode (s.cmdWords ++ [w]) = .ok (.kill t 0, after) := by
  cases h with
  | kept | ended => exact absurd hlt (lt_irrefl _)
  | command w i after u hw hd hu => exact ⟨w, after, hw, hu.kill_of_seqLen_lt hI hlt ▸ hd⟩
  | event u hu => rw [(hu.unread hm).2] at hlt; exact absurd hlt (lt_irrefl _)

/-- The driver of an unattached track has no event that is enabled (44 R211). -/
theorem Move.noPull_of_unattached (h : ts.cfg.kind = .none) (p : Params) (t : Track) (m : Move) :
    Move.NoPull p t ts m := by
  obtain ⟨hta, -, hrefill, -⟩ := TrackState.not_enabled_of_unattached h p
  exact ⟨fun _ _ => hta, fun _ => hrefill⟩

/-- Settles O60: what a move leaves of a track, where it is no pull of that track. -/
theorem onlyTheTracksDriverPulls : Obligations.OnlyTheTracksDriverPulls := by
  intro s s' t m hI hs hm still
  have effect : TrackEffect s t m (s'.track t) := (moveEffect_of_applyMove hs).trackEffect hm t
  have quiet : Move.NoPull s.params t (s.track t) m → still := fun hno => by
    obtain ⟨hlatch, hpos, hcur, hmix, hbit, hbyte, hpacket⟩ := effect.unread hno
    exact ⟨hlatch, hpos, hcur, hmix, hbit, hbyte, hpacket, effect.kill_of_seqLen_lt (hI.tracks t) hno⟩
  exact ⟨quiet, fun hnone => quiet (Move.noPull_of_unattached hnone _ t m)⟩

end Sys2Proof.Machine
end

section
/-!
The outcomes of LOAD (40 R110), one equation per outcome; and what becomes of a loaded packet (40 R111, R112): every advance
decision leaves it in the inactive slot with `pend` set, or takes its register and sends it.
-/
namespace Sys2Proof

/-- The register LOAD leaves, slot by slot (10_state R22). -/
theorem Register.load_eq (g : Register) (k : Packet) :
    g.load k = { slot0 := if g.act then k else g.slot0, slot1 := if g.act then g.slot1 else k, act := g.act, pend := true } := by
  unfold Register.load; cases g.act <;> rfl

namespace Machine

variable {p : Params} {t : Track} {ts u : TrackState} {r : BitVec 7} {k : Packet} {s : State}

theorem State.endedWith_track (s : State) (t : Track) (c : Status) (code : Word) :
    (s.endedWith t c code).track t = { s.track t with lastStatus := c } := by
  unfold State.endedWith; rw [State.track_with_responses, State.track_setTrack]

theorem TrackState.register_of_getElem? {g : Register} (h : ts.regs[r.toNat]? = some g) : ts.register r = g := by
  simp [register, h]

section

variable {idx nbits : BitVec 7} (rep : BitVec 8) (buf : Buf)

theorem exec_load_of_badReg (h : s.params.nreg t ≤ idx.toNat) :
    exec (.load t idx nbits 0 rep buf) s = .next (s.endedWith t .eBadReg 1) := by
  have hrun : exec (.load t idx nbits 0 rep buf) s = .next (s.status t .eBadReg) := congrArg _ (if_pos h)
  rw [hrun, State.status_eq]; rfl

theorem exec_load_of_badLength (hidx : idx.toNat < s.params.nreg t) (h : nbits.toNat = 0 ∨ 80 < nbits.toNat) :
    exec (.load t idx nbits 0 rep buf) s = .next (s.endedWith t .eBadLen 2) := by
  have hrun : exec (.load t idx nbits 0 rep buf) s = .next (s.status t .eBadLen) :=
    congrArg _ ((if_neg (Nat.not_le.2 hidx)).trans (if_pos ((badLength_iff nbits).2 h)))
  rw [hrun, State.status_eq]; rfl

theorem exec_load_of_accepted (hidx : idx.toNat < s.params.nreg t) (h : ¬(nbits.toNat = 0 ∨ 80 < nbits.toNat)) :
    exec (.load t idx nbits 0 rep buf) s = .next ((s.setTrack t
      ((s.track t).loadRegister idx { buf := buf, nbits := nbits, rep := rep })).endedWith t .ok 0) := by
  have hrun : exec (.load t idx nbits 0 rep buf) s = .next ((s.setTrack t
      ((s.track t).loadRegister idx { buf := buf, nbits := nbits, rep := rep })).status t .ok) :=
    congrArg _ ((if_neg (Nat.not_le.2 hidx)).trans (if_neg (mt (badLength_iff nbits).1 h)))
  rw [hrun, State.status_eq]; rfl

end

/-- Settles O11: one equation per outcome; an accepted LOAD writes what `loadRegister_eq` says. -/
theorem loadResult : Obligations.LoadResult := by
  intro s t idx nbits rsv rep buf g hg
  by_cases hrsv : rsv = 0
  · subst hrsv
    rw [if_neg (not_not.2 rfl)]
    by_cases hidx : s.params.nreg t ≤ idx.toNat
    · rw [if_pos hidx]; exact exec_load_of_badReg rep buf hidx
    rw [if_neg hidx]
    have hidx := Nat.lt_of_not_le hidx
    by_cases hlen : nbits.toNat = 0 ∨ 80 < nbits.toNat
    · rw [if_pos hlen]; exact exec_load_of_badLength rep buf hidx hlen
    rw [if_neg hlen, exec_load_of_accepted rep buf hidx hlen, TrackState.loadRegister_eq,
      TrackState.register_of_getElem? (hg hidx), Register.load_eq]
    rfl
  · rw [if_pos hrsv]
    exact exec_of_ill_formed (i := .load t idx nbits rsv rep buf) (beq_eq_false_iff_ne.2 hrsv) s

namespace TrackState

/-- A loaded packet `k` waits in the inactive slot of register `r` (10_state R22). -/
def LoadWaits (ts : TrackState) (r : BitVec 7) (k : Packet) : Prop :=
  (ts.register r).pend = true ∧ (ts.register r).inactive = k

/-- Register `r` has just been taken and its packet `k` is what is sent (42 R142). -/
def LoadTaken (ts : TrackState) (r : BitVec 7) (k : Packet) : Prop :=
  (ts.register r).pend = false ∧ (ts.register r).active.latch = k.latch ∧ ts.latch = k.latch ∧ ts.curReg = r

theorem loadWaits_loadRegister (hr : r.toNat < ts.regs.length) (k : Packet) : (ts.loadRegister r k).LoadWaits r k := by
  unfold LoadWaits; rw [loadRegister_register_self hr]; exact ⟨Register.load_pend _ _, Register.load_inactive _ _⟩

/-- Whether a packet waits is read from its register alone. -/
theorem LoadWaits.of_register_eq (h : ts.LoadWaits r k) (e : u.register r = ts.register r) : u.LoadWaits r k := by
  unfold LoadWaits; rwa [e]

theorem retire_regs (ts : TrackState) : ts.retire.regs = ts.regs := by
  unfold retire; split <;> rfl

theorem sendEntry_regs (ts : TrackState) : ts.sendEntry.regs = ts.regs := by
  unfold sendEntry; simp only []; split <;> rfl

/-- A repeat of register 0 writes its active slot only (42 R141 step 2). -/
theorem LoadWaits.repeatOneShot (h0 : (0 : BitVec 7).toNat < ts.regs.length) (h : ts.LoadWaits r k) :
    ts.repeatOneShot.LoadWaits r k := by
  by_cases hr : r = 0
  · subst hr
    unfold LoadWaits
    rw [repeatOneShot_register_self h0, Register.setActiveRep_pend, Register.setActiveRep_inactive]
    exact h
  · exact h.of_register_eq (repeatOneShot_register_of_ne hr)

/-- TAKE sends the packet that waits (10_state R22, 42 R142). -/
theorem LoadWaits.take (hr : r.toNat < ts.regs.length) (h : ts.LoadWaits r k) (hcur : ts.curReg = r) :
    (ts.take r).LoadTaken r k := by
  obtain ⟨hpend, hslot⟩ := h
  have hswap : (ts.register r).swap.active = k := (Register.swap_of_pend hpend).trans hslot
  refine ⟨by rw [take_pend hr, if_pos rfl], ?_, by rw [take_latch, hswap], hcur⟩
  rw [take_register_self hr]
  split_ifs
  · rw [Register.setActiveRep_active, hswap]; rfl
  · rw [hswap]

theorem LoadWaits.rotate_of_next (hr : r.toNat < ts.regs.length) (h : ts.LoadWaits r k) (hnext : ts.nextRegister = r) :
    ts.rotate.LoadTaken r k := by
  subst hnext
  exact LoadWaits.take (ts := { ts with nextV := false, curReg := ts.nextRegister }) hr h rfl

/-- Rotating to the register sends its packet; rotating to another one leaves it (42 R141 steps 3 and 4). -/
theorem LoadWaits.rotate (hr : r.toNat < ts.regs.length) (h : ts.LoadWaits r k) :
    ts.rotate.LoadWaits r k ∨ ts.rotate.LoadTaken r k := by
  by_cases hnext : ts.nextRegister = r
  · exact .inr (h.rotate_of_next hr hnext)
  · exact .inl (h.of_register_eq (take_register_of_ne (Ne.symm hnext)))

/-- An advance decision leaves a loaded packet or sends it (40 R112). -/
theorem LoadWaits.advance (h0 : (0 : BitVec 7).toNat < ts.regs.length) (hr : r.toNat < ts.regs.length) (h : ts.LoadWaits r k) :
    ts.advance.LoadWaits r k ∨ ts.advance.LoadTaken r k := by
  have h' : ts.retire.LoadWaits r k := h.of_register_eq (register_congr ts.retire_regs r)
  rw [← ts.retire_regs] at h0 hr
  rcases ts.advance_cases with ⟨-, e⟩ | ⟨-, -, -, e⟩ | ⟨-, -, e⟩ <;> rw [e]
  · exact .inl (h'.of_register_eq (register_congr (sendEntry_regs _) r))
  · exact .inl (h'.repeatOneShot h0)
  · exact h'.rotate hr

/-- With no sequence active and register 0 not repeating, an advance decision rotates (42 R141 steps 3 and 4). -/
theorem Inv.advance_eq_rotate (hI : ts.Inv p t) (hidle : ts.seqActive = false)
    (hzero : ¬(ts.curReg = 0 ∧ 0 < (ts.register 0).active.rep)) : ts.advance = ts.rotate := by
  have hretire : ts.retire = ts :=
    retire_of_not (Bool.eq_false_iff.2 fun hr => Bool.false_ne_true (hidle.symm.trans (hI.retireActive hr)))
  have hcases := ts.advance_cases
  rw [hretire] at hcases
  rcases hcases with ⟨hactive, -⟩ | ⟨-, hcur, hrep, -⟩ | ⟨-, -, e⟩
  · exact absurd (hidle.symm.trans hactive) Bool.false_ne_true
  · exact absurd ⟨hcur, hrep⟩ hzero
  · exact e

theorem nextRegister_of_request (h : ts.nextV = true) : ts.nextRegister = ts.nextIdx := if_pos h

end TrackState

/-- Settles O34: LOAD makes the packet wait; `LoadWaits.advance` says what a decision does to it; with the request pending
and nothing before it, the decision is the one that takes the register. -/
theorem loadedPacketIsTakenNext : Obligations.LoadedPacketIsTakenNext := by
  refine ⟨fun s t r nbits rep buf hI hr hmin hmax => ?_, fun _ t ts r k _ hI hr hpend hslot => ?_⟩
  · refine ⟨_, exec_load_of_accepted rep buf hr (by omega), ?_⟩
    rw [← (hI.tracks t).regsSize] at hr
    rw [State.endedWith_track, State.track_setTrack]
    exact TrackState.loadWaits_loadRegister hr _
  · have hwaits : ts.LoadWaits r k := ⟨hpend, hslot⟩
    rw [← hI.regsSize] at hr
    refine ⟨hwaits.advance hI.reg0 hr, fun hidle hzero hv hidx => ?_⟩
    rw [hI.advance_eq_rotate hidle hzero]
    exact hwaits.rotate_of_next hr ((TrackState.nextRegister_of_request hv).trans hidx)

end Machine

end Sys2Proof
end

section
/-!
The outcomes of SEQW, SCHED, KILL and WAIT (41 R120 to R127), and that a sequence, once active, is left alone by every
command but KILL (41 R121, R125).
-/
namespace Sys2Proof.Machine

variable {p : Params} {t : Track} {ts u : TrackState} {s s' : State} {i : Instr}

/-- An accepted SEQW ends with its entry staged and every other entry as it was (41 R120). -/
theorem TrackState.getElem?_setEntry_seq {idx : BitVec 7} (h : idx.toNat < ts.seq.length) (k : Packet) (j : Nat) :
    (ts.setEntry idx k).seq[j]? = if j = idx.toNat then some k else ts.seq[j]? := by
  rw [setEntry_seq, List.getElem?_set]
  by_cases hj : idx.toNat = j
  · rw [if_pos hj, if_pos h, if_pos hj.symm]
  · rw [if_neg hj, if_neg (Ne.symm hj)]

/-- Settles O12: the checks in their order; an accepted SEQW writes one entry of the buffer. -/
theorem seqwResult : Obligations.SeqwResult := by
  intro s t idx nbits rsv rep buf hsize
  refine ⟨_, rfl, ?_⟩
  simp only [badLength_iff, State.status_eq]
  split_ifs with hrsv hbusy hidx hlen
  · rfl
  · rfl
  · rfl
  · rfl
  · rw [State.endedWith_track, State.track_setTrack]
    refine ⟨rfl, List.length_set.trans hsize, fun j _ => ?_⟩
    exact TrackState.getElem?_setEntry_seq (by omega) _ j

/-- Settles O13: the checks in their order, and the sequence an accepted SCHED installs. -/
theorem schedResult : Obligations.SchedResult := by
  intro s t rsv cnt
  show execSched t rsv cnt s = _
  unfold execSched
  have hcnt : cnt = 0 ↔ cnt.toNat = 0 := by simp [BitVec.toNat_eq]
  simp only [State.status_eq, hcnt]
  rfl

/-- Settles O14: the one check of KILL, and the sequence fields it clears. -/
theorem killResult : Obligations.KillResult := by
  intro s t rsv
  show execKill t rsv s = _
  unfold execKill
  simp only [State.status_eq]
  rfl

/-- While a WAIT is held the command port takes no word (41 R126). -/
theorem takeWord_of_held {hold : WaitHold} (h : s.waitHold = some hold) (w : Word) : takeWord w s = .next s := by
  unfold takeWord; rw [h]

/-- Settles O15: the command, then the transition of the WAIT it may hold, each by whether the remaining length allows the
end, and the port meanwhile. -/
theorem waitResult : Obligations.WaitResult := by
  intro s t rsv thr
  refine ⟨?_, fun hheld => ?_, fun hnone => ?_, fun hheld w => takeWord_of_held hheld w⟩
  · show execWait t rsv thr s = _
    unfold execWait
    simp only [State.status_eq, State.waitDone_iff]
    rfl
  · show Host.Outcome.next s.endWait = _
    unfold State.endWait
    rw [hheld]
    simp only [State.status_eq, State.waitDone_iff]
    rfl
  · show Host.Outcome.next s.endWait = _
    unfold State.endWait
    rw [hnone]

/-- The sequence and its entries are the same (10_state R30 to R34). -/
def TrackState.SameSequence (ts u : TrackState) : Prop :=
  u.seqActive = ts.seqActive ∧ u.seqLen = ts.seqLen ∧ u.seqCur = ts.seqCur ∧ u.seqRetire = ts.seqRetire ∧ u.seq = ts.seq

/-- While a sequence is active SEQW and SCHED are not accepted (41 R121), and LOAD and ATTACH write other fields. -/
theorem CommandUpdate.sameSequence (hu : CommandUpdate p t ts i u) (hactive : ts.seqActive = true)
    (hkill : ∀ rsv, i ≠ .kill t rsv) : ts.SameSequence u := by
  cases hu with
  | load idx nbits rep buf => rw [TrackState.loadRegister_eq]; exact ⟨rfl, rfl, rfl, rfl, rfl⟩
  | seqw _ _ _ _ hidle => exact absurd (hidle.symm.trans hactive) Bool.false_ne_true
  | sched _ hidle => exact absurd (hidle.symm.trans hactive) Bool.false_ne_true
  | kill => exact absurd rfl (hkill 0)
  | attachTimer | attachRing => exact ⟨rfl, rfl, rfl, rfl, rfl⟩

/-- Whatever else a command does to its own track, it leaves an active sequence unless it is KILL. -/
theorem CommandEffect.sameSequence (h : CommandEffect s i s') (hactive : (s.track i.track).seqActive = true)
    (hkill : ∀ rsv, i ≠ .kill i.track rsv) : (s.track i.track).SameSequence (s'.track i.track) := by
  cases h with
  | ended i c => rw [State.status_track]; exact ⟨rfl, rfl, rfl, rfl, rfl⟩
  | updated i u hu =>
    rw [State.status_track, State.track_setTrack]
    exact hu.sameSequence hactive hkill
  | answered t => rw [State.respond_track]; exact ⟨rfl, rfl, rfl, rfl, rfl⟩
  | waitEnded t cnt =>
    rw [Instr.track, State.status_track, State.track_with_waitHold]
    exact ⟨rfl, rfl, rfl, rfl, rfl⟩
  | held t cnt => rw [State.track_with_waitHold]; exact ⟨rfl, rfl, rfl, rfl, rfl⟩

/-- Settles O24: a command of the other track leaves this one alone, and one of this track leaves its sequence. -/
theorem onlyKillEndsSequence : Obligations.OnlyKillEndsSequence := by
  intro s s' i t hactive hi hkill hrun
  suffices hsame : (s.track t).SameSequence (s'.track t) from ⟨hsame.1.trans hactive, hsame.2⟩
  by_cases ht : t = i.track
  · subst ht
    obtain ⟨s₁, h₁, he⟩ := exec_effect hi s
    obtain rfl : s₁ = s' := Host.Outcome.next.inj (h₁.symm.trans hrun)
    exact he.sameSequence hactive hkill
  · rw [exec_track_of_ne ht hrun]
    exact ⟨rfl, rfl, rfl, rfl, rfl⟩

end Sys2Proof.Machine
end

section
/-!
A sequence from its SCHED to the boundary after its last transmission (41 R123). `InSequence` says how far it has got; every
advance decision sends once more or moves to the next entry, and none reaches the register file. So the decision that
retires the last entry finds the rotation as SCHED found it.
-/
namespace Sys2Proof

open Machine

/-- A staged entry after `j` of its transmissions: what is left of its repeats (42 R141 step 1). -/
def Packet.afterSends (e : Packet) (j : Nat) : Packet := { e with rep := BitVec.ofNat 8 (e.rep.toNat - j) }

theorem Packet.afterSends_zero (e : Packet) : e.afterSends 0 = e := by simp [afterSends]

/-- One more transmission consumes one repeat, if one is left (00_scope R9). -/
theorem Packet.satdec8_afterSends (e : Packet) (j : Nat) : satdec8 (e.afterSends j).rep = (e.afterSends (j + 1)).rep := by
  have hr := e.rep.isLt
  apply BitVec.eq_of_toNat_eq
  unfold satdec8 afterSends
  split_ifs with h
  · have hzero : (e.rep.toNat - j) % 256 = 0 := congrArg BitVec.toNat h
    simp; omega
  · have hpos : e.rep.toNat - j ≠ 0 := fun e => h (by simp [e])
    rw [BitVec.toNat_sub_of_le (by simp [BitVec.le_def]; omega)]
    simp; omega

/-- No repeat is left after the last of `max(1, rep)` transmissions. -/
theorem Packet.afterSends_rep_eq_zero (e : Packet) (j : Nat) :
    (e.afterSends (j + 1)).rep = 0 ↔ timesSent e.rep ≤ j + 1 := by
  have hr := e.rep.isLt
  simp [afterSends, timesSent, BitVec.toNat_eq]; omega

namespace Machine

theorem timesSent_pos (rep : BitVec 8) : 0 < timesSent rep := Nat.le_max_left 1 _

namespace TrackState

variable {p : Params} {t : Track} {ts u : TrackState} {cnt i j m : Nat}

/-- `SEQ[t][i]`, the index a number below the size of any buffer (00_scope R5). -/
abbrev entryAt (ts : TrackState) (i : Nat) : Packet := ts.entry (BitVec.ofNat 7 i)

/-- Two states of a track agree in all that steps 2 to 4 of the advance decision read (42 R141). -/
structure SameRotation (ts u : TrackState) : Prop where
  regs      : u.regs = ts.regs
  maxLoaded : u.maxLoaded = ts.maxLoaded
  curReg    : u.curReg = ts.curReg
  nextV     : u.nextV = ts.nextV
  nextIdx   : u.nextIdx = ts.nextIdx

/-- Entry `i` of a sequence of `cnt` entries, all staged in `ts`, has been sent `j` times, and the register file is as in
`ts`. The entry is to be retired when that was its last time (41 R123, 42 R141). -/
structure InSequence (ts : TrackState) (cnt i j : Nat) (u : TrackState) : Prop where
  rotation : ts.SameRotation u
  active   : u.seqActive = true
  cur      : u.seqCur = BitVec.ofNat 7 i
  len      : u.seqLen.toNat = cnt - i
  retire   : u.seqRetire = decide (timesSent (ts.entryAt i).rep ≤ j)
  entry    : u.entryAt i = (ts.entryAt i).afterSends j
  later    : ∀ k, i < k → k < cnt → u.entryAt k = ts.entryAt k

/-- Sending an entry, field by field (42 R141 step 1). -/
theorem sendEntry_eq (ts : TrackState) :
    ts.sendEntry =
      { ts with
        latch := (ts.entry ts.seqCur).latch
        bitPos := 0
        seq := ts.seq.set ts.seqCur.toNat { ts.entry ts.seqCur with rep := satdec8 (ts.entry ts.seqCur).rep }
        seqRetire := decide (satdec8 (ts.entry ts.seqCur).rep = 0) || ts.seqRetire } := by
  unfold sendEntry
  simp only []
  split_ifs with h
  · rw [decide_eq_true h]; rfl
  · rw [decide_eq_false h]; rfl

theorem entryAt_sendEntry_self (hi : ts.seqCur.toNat < ts.seq.length) (hc : ts.seqCur = BitVec.ofNat 7 i) :
    ts.sendEntry.entryAt i = { ts.entryAt i with rep := satdec8 (ts.entryAt i).rep } := by
  rw [sendEntry_eq, hc]; exact entry_setEntry_self (hc ▸ hi) _

theorem entryAt_sendEntry_of_ne {k : Nat} (h : BitVec.ofNat 7 k ≠ ts.seqCur) : ts.sendEntry.entryAt k = ts.entryAt k := by
  rw [sendEntry_eq]; exact entry_setEntry_of_ne h _

/-- A transmission that is still due is made, and recorded. -/
theorem InSequence.sendEntry (h : ts.InSequence cnt i j u) (hj : j < timesSent (ts.entryAt i).rep) (hcnt : cnt ≤ 128)
    (hcur : u.seqCur.toNat < u.seq.length) :
    ts.InSequence cnt i (j + 1) u.sendEntry ∧ u.sendEntry.latch = (ts.entryAt i).latch := by
  have hself := entryAt_sendEntry_self hcur h.cur
  have hother : ∀ k, i < k → k < cnt → u.sendEntry.entryAt k = u.entryAt k := fun k hk hkc =>
    entryAt_sendEntry_of_ne fun e => by
      have := congrArg BitVec.toNat (e.trans h.cur)
      simp at this; omega
  have hcurrent : u.entry u.seqCur = (ts.entryAt i).afterSends j := by rw [h.cur]; exact h.entry
  rw [h.entry, Packet.satdec8_afterSends] at hself
  refine ⟨{
    rotation := ?_, active := ?_, cur := ?_, len := ?_, retire := ?_
    entry := hself
    later := fun k hk hkc => (hother k hk hkc).trans (h.later k hk hkc) }, ?_⟩ <;> rw [sendEntry_eq, hcurrent]
  · exact { h.rotation with }
  · exact h.active
  · exact h.cur
  · exact h.len
  · show (decide _ || u.seqRetire) = _
    rw [h.retire, decide_eq_false (Nat.not_le.2 hj), Bool.or_false, Packet.satdec8_afterSends]
    exact decide_eq_decide.2 (Packet.afterSends_rep_eq_zero _ _)
  · rfl

/-- Retiring an entry that is not the last one makes the next entry current (42 R141 (a)). -/
theorem InSequence.retire_next (h : ts.InSequence cnt i (timesSent (ts.entryAt i).rep) u) (hi : i + 1 < cnt)
    (hcnt : cnt ≤ 128) : ts.InSequence cnt (i + 1) 0 u.retire := by
  have hretire : u.seqRetire = true := by rw [h.retire]; simp
  have hlen : (u.seqLen - 1).toNat = cnt - (i + 1) := by
    have := h.len
    rw [BitVec.toNat_sub_of_le (by simp [BitVec.le_def]; omega)]; simp; omega
  have hmore : u.seqLen - 1 ≠ 0 := fun e => by rw [e] at hlen; simp at hlen; omega
  have hcur : u.seqCur.toNat = i := by rw [h.cur]; simp; omega
  have hnext := nextCursor_toNat (ts := u) (by omega)
  rw [TrackState.retire, if_pos hretire, if_neg hmore]
  exact {
    rotation := { h.rotation with }
    active := h.active
    cur := BitVec.eq_of_toNat_eq (by simp [hnext]; omega)
    len := hlen
    retire := (decide_eq_false (Nat.not_le.2 (timesSent_pos _))).symm
    entry := (h.later (i + 1) i.lt_succ_self hi).trans (Packet.afterSends_zero _).symm
    later := fun k hk => h.later k (Nat.lt_of_succ_lt hk) }

/-- While a transmission of the entry is due, there is nothing to retire. -/
theorem InSequence.retire_eq (h : ts.InSequence cnt i j u) (hj : j < timesSent (ts.entryAt i).rep) : u.retire = u :=
  retire_of_not (by rw [h.retire]; exact decide_eq_false (Nat.not_le.2 hj))

/-- A boundary that finds a transmission due makes it. -/
theorem InSequence.advance (h : ts.InSequence cnt i j u.retire) (hj : j < timesSent (ts.entryAt i).rep) (hcnt : cnt ≤ 128)
    (hp : p.Legal) (hI : u.Inv p t) :
    ts.InSequence cnt i (j + 1) u.advance ∧ u.advance.latch = (ts.entryAt i).latch := by
  have hI' := hI.retire hp
  have hcur : u.retire.seqCur.toNat < u.retire.seq.length := by
    have := hI'.seqFits h.active
    have := hI'.activeLen.1 h.active
    rw [hI'.seqSize]; omega
  have hadvance : u.advance = u.retire.sendEntry := if_pos h.active
  rw [hadvance]
  exact h.sendEntry hj hcnt hcur

theorem Inv.advances (hp : p.Legal) (h : ts.Inv p t) (n : Nat) : (ts.advances n).Inv p t := by
  induction n with
  | zero => exact h
  | succ n ih => exact (ih.advance hp).1

/-- From the boundary that finds its first transmission due, an entry is sent at every boundary, `timesSent` times. -/
theorem InSequence.advances_entry (h : ts.InSequence cnt i 0 (u.advances m).retire) (hcnt : cnt ≤ 128) (hp : p.Legal)
    (hI : u.Inv p t) (hj : j < timesSent (ts.entryAt i).rep) :
    ts.InSequence cnt i (j + 1) (u.advances (m + j + 1)) ∧ (u.advances (m + j + 1)).latch = (ts.entryAt i).latch := by
  induction j with
  | zero => exact h.advance hj hcnt hp (hI.advances hp m)
  | succ j ih =>
    obtain ⟨hsent, -⟩ := ih (Nat.lt_of_succ_lt hj)
    rw [← hsent.retire_eq hj] at hsent
    exact hsent.advance hj hcnt hp (hI.advances hp (m + j + 1))

/-- The transmissions of one entry, up to its last. -/
theorem InSequence.advances_whole_entry (h : ts.InSequence cnt i 0 (u.advances m).retire) (hcnt : cnt ≤ 128) (hp : p.Legal)
    (hI : u.Inv p t) :
    ts.InSequence cnt i (timesSent (ts.entryAt i).rep) (u.advances (m + timesSent (ts.entryAt i).rep)) := by
  have hpos := timesSent_pos (ts.entryAt i).rep
  obtain ⟨hsent, -⟩ := h.advances_entry hcnt hp hI (Nat.sub_lt hpos Nat.one_pos)
  rwa [Nat.add_assoc, Nat.sub_add_cancel hpos] at hsent

/-- The boundary after the transmissions of the entries before it finds an entry due, none of its own made (41 R123). -/
theorem InSequence.advances_sentBefore (h : ts.InSequence cnt 0 0 u) (hcnt : cnt ≤ 128) (hp : p.Legal) (hI : u.Inv p t)
    (hi : i < cnt) : ts.InSequence cnt i 0 (u.advances (ts.sentBefore i)).retire := by
  induction i with
  | zero =>
    have hretire : (u.advances (ts.sentBefore 0)).retire = u := h.retire_eq (timesSent_pos _)
    rwa [hretire]
  | succ i ih => exact ((ih (Nat.lt_of_succ_lt hi)).advances_whole_entry hcnt hp hI).retire_next hi hcnt

/-- Retiring the last entry ends the sequence (42 R141 (a)). -/
theorem InSequence.retire_last (h : ts.InSequence (i + 1) i (timesSent (ts.entryAt i).rep) u) :
    u.retire.seqActive = false ∧ u.retire.seqLen = 0 ∧ ts.SameRotation u.retire := by
  have hretire : u.seqRetire = true := by rw [h.retire]; simp
  have hlen : u.seqLen - 1 = 0 := by
    have hone : u.seqLen = 1 := BitVec.eq_of_toNat_eq (by simp [h.len])
    rw [hone]; rfl
  rw [TrackState.retire, if_pos hretire, if_pos hlen]
  exact ⟨rfl, hlen, { h.rotation with }⟩

/-- The packet sent, the register chosen, the request and the register file are the same. -/
def SameChoice (ts u : TrackState) : Prop :=
  u.latch = ts.latch ∧ u.curReg = ts.curReg ∧ u.nextV = ts.nextV ∧ u.regs = ts.regs

theorem SameRotation.repeatOneShot (h : ts.SameRotation u) : ts.repeatOneShot.SameChoice u.repeatOneShot := by
  unfold TrackState.repeatOneShot
  simp only [register_congr h.regs]
  exact ⟨rfl, h.curReg, h.nextV, congrArg (List.set · _ _) h.regs⟩

theorem SameRotation.take (h : ts.SameRotation u) (r : BitVec 7) : (ts.take r).SameChoice (u.take r) := by
  unfold TrackState.take
  simp only [register_congr h.regs]
  exact ⟨rfl, h.curReg, h.nextV, congrArg (List.set · _ _) h.regs⟩

theorem SameRotation.rotate (h : ts.SameRotation u) : ts.rotate.SameChoice u.rotate := by
  have hnext : u.nextRegister = ts.nextRegister := by
    unfold nextRegister; rw [h.nextV, h.nextIdx, h.maxLoaded, h.curReg]
  unfold TrackState.rotate
  rw [hnext]
  exact SameRotation.take (ts := { ts with nextV := false, curReg := ts.nextRegister })
    (u := { u with nextV := false, curReg := ts.nextRegister }) { h with curReg := rfl, nextV := rfl } _

/-- Where no sequence is active after part (a), the decision depends on the rotation alone (42 R141 steps 2 to 4). -/
theorem SameRotation.advance (h : ts.retire.SameRotation u.retire) (hts : ts.retire.seqActive = false)
    (hu : u.retire.seqActive = false) : ts.advance.SameChoice u.advance := by
  unfold TrackState.advance
  simp only [hts, hu, h.curReg, register_congr h.regs]
  rw [if_neg Bool.false_ne_true, if_neg Bool.false_ne_true]
  split_ifs
  · exact h.repeatOneShot
  · exact h.rotate

/-- Steps 2 to 4 leave the sequence fields to part (a) (42 R141). -/
theorem advance_sequence_of_idle (h : ts.retire.seqActive = false) :
    ts.advance.seqActive = false ∧ ts.advance.seqLen = ts.retire.seqLen := by
  rcases ts.advance_cases with ⟨ha, -⟩ | ⟨-, -, -, e⟩ | ⟨-, -, e⟩
  · exact absurd (h.symm.trans ha) Bool.false_ne_true
  · rw [e]; exact ⟨h, rfl⟩
  · rw [e]; exact ⟨h, rfl⟩

/-- With no sequence active, part (a) does nothing (10_state R48 invariant 6). -/
theorem Inv.retire_of_idle (hI : ts.Inv p t) (h : ts.seqActive = false) : ts.retire = ts :=
  retire_of_not (Bool.eq_false_iff.2 fun hr => Bool.false_ne_true (h.symm.trans (hI.retireActive hr)))

/-- The boundary after the last transmission of the last entry ends the sequence and chooses as in the state before SCHED
(41 R123). -/
theorem InSequence.advance_last (h : ts.InSequence (i + 1) i (timesSent (ts.entryAt i).rep) u) (hI : ts.Inv p t)
    (hidle : ts.seqActive = false) :
    u.advance.seqActive = false ∧ u.advance.seqLen = 0 ∧ ts.advance.SameChoice u.advance := by
  obtain ⟨hactive, hlen, hrot⟩ := h.retire_last
  obtain ⟨hactive', hlen'⟩ := advance_sequence_of_idle hactive
  rw [← hI.retire_of_idle hidle] at hrot hidle
  exact ⟨hactive', hlen'.trans hlen, hrot.advance hidle hactive⟩

/-- What an accepted SCHED leaves is a sequence none of whose entries has been sent (41 R122). -/
theorem inSequence_sched (ts : TrackState) (cnt : BitVec 8) :
    ts.InSequence cnt.toNat 0 0
      { ts with seqActive := true, seqLen := cnt, seqCur := 0, seqRetire := false, lastStatus := .ok } where
  rotation := ⟨rfl, rfl, rfl, rfl, rfl⟩
  active := rfl
  cur := rfl
  len := rfl
  retire := (decide_eq_false (Nat.not_le.2 (timesSent_pos _))).symm
  entry := (Packet.afterSends_zero _).symm
  later := fun _ _ _ => rfl

end TrackState

theorem exec_sched_of_accepted {s : State} {t : Track} {cnt : BitVec 8} (hidle : (s.track t).seqActive = false)
    (hpos : 1 ≤ cnt.toNat) (hcap : cnt.toNat ≤ s.params.seqCap) :
    exec (.sched t 0 cnt) s = .next ((s.setTrack t
      { s.track t with seqActive := true, seqLen := cnt, seqCur := 0, seqRetire := false }).endedWith t .ok 0) := by
  rw [schedResult, if_neg (not_not.2 rfl), hidle, if_neg Bool.false_ne_true, if_neg (by omega)]

/-- Settles O33: entry by entry from the state SCHED leaves, which meets the invariant; the boundary after the last
transmission finds the rotation untouched. -/
theorem sequenceTransmission : Obligations.SequenceTransmission := by
  intro s t cnt hI hidle hpos hcap
  have hp := hI.params
  have hcnt : cnt.toNat ≤ 128 := hcap.trans hp.seqCap.2
  refine ⟨_, exec_sched_of_accepted hidle hpos hcap, ?_⟩
  rw [State.endedWith_track, State.track_setTrack]
  have hstart := TrackState.inSequence_sched (s.track t) cnt
  have hnonzero : cnt ≠ 0 := fun e => by simp [e] at hpos
  have hinv := ((hI.tracks t).sched hnonzero hcap).lastStatus .ok
  refine ⟨fun i hi j hj => ?_, ?_⟩
  · obtain ⟨hsent, hlatch⟩ := (hstart.advances_sentBefore hcnt hp hinv hi).advances_entry hcnt hp hinv hj
    exact ⟨hlatch, hsent.len⟩
  · obtain ⟨n, hn⟩ := Nat.exists_eq_add_of_le' hpos
    have hdue := hstart.advances_sentBefore hcnt hp hinv (i := n) (by omega)
    have hlast := hdue.advances_whole_entry hcnt hp hinv
    rw [hn] at hlast
    rw [hn]
    exact hlast.advance_last (hI.tracks t) hidle

end Machine

end Sys2Proof
end

section
/-!
The advance decision field by field (42 R141, R142, R146): TAKE, part (a) and steps 1 to 4, each in one equation.
-/
namespace Sys2Proof

/-- The swap of TAKE in one form for both cases (42 R142). -/
theorem Register.swap_eq (g : Register) :
    g.swap = { g with act := if g.pend then !g.act else g.act, pend := false } := by
  obtain ⟨slot0, slot1, act, pend⟩ := g
  cases pend <;> rfl

/-- The write of the active repeat count, slot by slot (10_state R21). -/
theorem Register.setActiveRep_eq (g : Register) (v : BitVec 8) :
    g.setActiveRep v =
      { g with
        slot0 := if g.act then g.slot0 else { g.slot0 with rep := v }
        slot1 := if g.act then { g.slot1 with rep := v } else g.slot1 } := by
  unfold Register.setActiveRep; split_ifs <;> rfl

/-- One repeat less in the active slot, by the slot that is active (42 R141 step 2). -/
theorem Register.setActiveRep_sub_one (g : Register) :
    g.setActiveRep (g.active.rep - 1) =
      if g.act then { g with slot1 := { g.slot1 with rep := g.slot1.rep - 1 } }
      else { g with slot0 := { g.slot0 with rep := g.slot0.rep - 1 } } := by
  unfold Register.setActiveRep Register.active; split_ifs <;> rfl

namespace Machine

open TrackState

variable {p : Params} {t : Track} {ts : TrackState}

/-- The saturating decrement is that of the numbers (00_scope R9). -/
theorem satdec8_eq_ofNat (v : BitVec 8) : satdec8 v = BitVec.ofNat 8 (v.toNat - 1) := by
  have hv := v.isLt
  unfold satdec8
  split_ifs with h
  · subst h; rfl
  · have hpos : (1 : BitVec 8) ≤ v := Nat.one_le_iff_ne_zero.2 fun e => h (BitVec.eq_of_toNat_eq e)
    apply BitVec.eq_of_toNat_eq
    rw [BitVec.toNat_sub_of_le hpos]
    simp; omega

theorem satdec8_eq_zero_iff (v : BitVec 8) : satdec8 v = 0 ↔ v.toNat ≤ 1 := by
  have hv := v.isLt
  rw [satdec8_eq_ofNat, BitVec.toNat_eq]; simp; omega

/-- Settles O29: the register after the swap, with one repeat of register 0 spent, slot by slot. -/
theorem takeResult : Obligations.TakeResult := by
  intro ts r g hg act k k'
  have hswap : g.swap = { g with act := act, pend := false } := g.swap_eq
  have hactive : g.swap.active = k := by rw [hswap]; rfl
  have htaken : (if r = 0 then g.swap.setActiveRep (satdec8 g.swap.active.rep) else g.swap) =
      { slot0 := if act then g.slot0 else k', slot1 := if act then k' else g.slot1, act := act, pend := false } := by
    by_cases hr : r = 0
    · rw [if_pos hr, Register.setActiveRep_eq, hactive, hswap, satdec8_eq_ofNat]
      cases hact : act <;> simp [k', k, hr, hact]
    · have hk : k' = k := if_neg hr
      rw [if_neg hr, hswap, hk]
      cases hact : act <;> simp [k, hact]
  unfold TrackState.take
  simp only [register_of_getElem? hg]
  rw [htaken, hactive]; rfl

/-- Settles O30: every advance decision keeps the invariant and loads a packet with a bit to send. -/
theorem advanceLoadsLegalPacket : Obligations.AdvanceLoadsLegalPacket := fun _ _ ts hp hI =>
  have ⟨hkept, hpos⟩ := hI.advance hp
  ⟨hpos, hkept.latchSize, ts.advance_bitPos⟩

/-- Part (a) leaves all that steps 2 to 4 read (42 R141). -/
theorem TrackState.sameRotation_retire (ts : TrackState) : ts.SameRotation ts.retire := by
  unfold retire; split <;> exact ⟨rfl, rfl, rfl, rfl, rfl⟩

theorem TrackState.retire_seqRetire (ts : TrackState) : ts.retire.seqRetire = false := by
  unfold retire
  split
  · rfl
  · next h => exact Bool.eq_false_iff.2 h

/-- Steps 1 to 4 leave the sequence cursor (42 R141). -/
theorem TrackState.advance_seqCur (ts : TrackState) : ts.advance.seqCur = ts.retire.seqCur := by
  rcases ts.advance_cases with ⟨-, e⟩ | ⟨-, -, -, e⟩ | ⟨-, -, e⟩ <;> rw [e]
  · rw [sendEntry_eq]
  · rfl
  · rfl

/-- Part (a) in the numbers of 42 R141; the cursor's value after entry 127 is whatever the decision leaves. -/
theorem TrackState.Inv.retire_eq (hI : ts.Inv p t) :
    ts.retire =
      if ts.seqRetire then
        { ts with
          seqRetire := false, seqLen := ts.seqLen - 1
          seqCur := if ts.seqCur = 127 then ts.advance.seqCur else ts.seqCur + 1
          seqActive := decide (1 < ts.seqLen.toNat) }
      else ts := by
  by_cases hdue : ts.seqRetire = true
  · have hcur : ts.nextCursor = if ts.seqCur = 127 then ts.advance.seqCur else ts.seqCur + 1 := by
      rw [advance_seqCur, TrackState.retire, if_pos hdue, nextCursor]
      split_ifs <;> rfl
    have hactive : (if ts.seqLen - 1 = 0 then false else ts.seqActive) = decide (1 < ts.seqLen.toNat) := by
      have hrunning := hI.retireActive hdue
      have hlen : (1 : BitVec 8) ≤ ts.seqLen := hI.activeLen.1 hrunning
      have hlast : ts.seqLen - 1 = 0 ↔ ts.seqLen.toNat ≤ 1 := by
        rw [BitVec.toNat_eq, BitVec.toNat_sub_of_le hlen]; simp; omega
      rw [hrunning]
      split_ifs with h
      · exact (decide_eq_false (Nat.not_lt.2 (hlast.1 h))).symm
      · exact (decide_eq_true (Nat.lt_of_not_le (mt hlast.2 h))).symm
    rw [TrackState.retire, if_pos hdue, if_pos hdue, hcur, hactive]
  · rw [TrackState.retire, if_neg hdue, if_neg hdue]

/-- Step 2, field by field (42 R141). -/
theorem TrackState.repeatOneShot_eq (ts : TrackState) :
    ts.repeatOneShot =
      { ts with
        latch := (ts.register 0).active.latch
        bitPos := 0
        regs := ts.regs.set 0 ((ts.register 0).setActiveRep ((ts.register 0).active.rep - 1)) } := rfl

/-- Settles O28: part (a) by `retire_eq`, then one of the three cases of `advance_cases`. -/
theorem advanceDecision : Obligations.AdvanceDecision := by
  intro p t ts _ hI r e g x
  have hr : ts.retire = r := hI.retire_eq
  have hrot := ts.sameRotation_retire
  have hnext : ts.retire.nextRegister = x := by
    unfold nextRegister; rw [hrot.nextV, hrot.nextIdx, hrot.maxLoaded, hrot.curReg]; rfl
  have hzero : ts.retire.register 0 = g := register_congr hrot.regs 0
  have hnone : ts.retire.seqActive = false → ¬r.seqActive = true := fun h => by
    rw [← hr, h]; exact Bool.false_ne_true
  rcases ts.advance_cases with ⟨hactive, h⟩ | ⟨hidle, hcur, hrep, h⟩ | ⟨hidle, hno, h⟩
  · have hlast : ts.retire.sendEntry.seqRetire = decide (e.rep.toNat ≤ 1) := by
      rw [sendEntry_eq, ts.retire_seqRetire, Bool.or_false, hr]
      exact decide_eq_decide.2 (satdec8_eq_zero_iff e.rep)
    rw [hr] at hactive h hlast
    rw [h, if_pos hactive, ← hlast, ← satdec8_eq_ofNat, sendEntry_eq]
    rfl
  · have hrep : 0 < g.active.rep.toNat := hrep
    rw [h, if_neg (hnone hidle), if_pos ⟨hcur, hrep⟩, repeatOneShot_eq, hzero, hrot.regs, hr,
      Register.setActiveRep_sub_one]
    rfl
  · have hno : ¬(ts.curReg = 0 ∧ 0 < g.active.rep.toNat) := hno
    rw [h, if_neg (hnone hidle), if_neg hno, rotate, hnext, hr]

end Machine

end Sys2Proof
end

section
/-!
The pulls read one stream (42 R150 to R153): what each pull does, in one equation; a byte is the eight bits it was shifted
from; the boundaries of a run of bit pulls are those of its parts one after the other; and a packet pulled from an exhausted
packet is as many bit pulls, whose one boundary is the first.
-/
namespace Sys2Proof.Machine

open TrackState

variable {p : Params} {t : Track} {ts : TrackState}

/-- An advance decision does not read `MIX`, and leaves it (42 R141). -/
theorem TrackState.advance_withMix (ts : TrackState) (b : Bool) :
    ({ ts with mix := b } : TrackState).advance = { ts.advance with mix := b } := by
  have hretire : ({ ts with mix := b } : TrackState).retire = { ts.retire with mix := b } := by
    have hdue : ({ ts with mix := b } : TrackState).seqRetire = ts.seqRetire := rfl
    unfold retire; rw [hdue]; split_ifs <;> rfl
  unfold advance
  simp only [hretire]
  have hregister : ({ ts.retire with mix := b } : TrackState).register 0 = ts.retire.register 0 := rfl
  rw [hregister]
  split_ifs
  · rw [sendEntry_eq, sendEntry_eq]; rfl
  · rfl
  · rfl

/-- `MIX` after the bits left of a packet are discarded, in one form for both cases (42 R152). -/
theorem TrackState.discard_eq (ts : TrackState) :
    ts.discard = { ts with mix := ts.mix || decide (ts.bitPos.toNat < ts.latch.nbits.toNat) } := by
  unfold discard
  split_ifs with h
  · rw [decide_eq_true (BitVec.lt_def.1 h), Bool.or_true]
  · rw [decide_eq_false (mt BitVec.lt_def.2 h), Bool.or_false]

/-- NEXTPACKET in one equation: one advance decision, whose packet is returned and consumed (42 R152). -/
theorem TrackState.nextPacket_eq (ts : TrackState) :
    ts.nextPacket = (ts.advance.latch, { ts.advance with
      bitPos := ts.advance.latch.nbits, mix := ts.mix || decide (ts.bitPos.toNat < ts.latch.nbits.toNat) }) := by
  unfold nextPacket; rw [discard_eq, advance_withMix]

/-- Settles O37: `MIX` is set before the advance decision, which does not read it. -/
theorem pullPacketResult : Obligations.PullPacketResult := fun s t => by
  have hrun : exec (.pullPacket t) s = .next (s.setTrack t (s.track t).pullPacket) := rfl
  rw [hrun, pullPacket, nextPacket, discard_eq]

/-- Settles O35: after a boundary the position is inside a packet of at most 80 bits, where `pbit` reads the buffer. -/
theorem pullBitResult : Obligations.PullBitResult := fun s t hI => by
  obtain ⟨hinv, hlt⟩ := (hI.tracks t).boundary hI.params
  have hbit := pbit_eq_getMsbD (s.track t).boundary.latch.buf (hlt.trans_le hinv.latchSize)
  have hrun : exec (.pullBit t) s = .next (s.setTrack t (s.track t).pullBit) := rfl
  rw [hrun, pullBit, nextBit, hbit, boundary]

/-- The bits of a byte put together from eight bits are those bits. -/
theorem byteBits_byteOfBits {l : List Bool} (h : l.length = 8) : byteBits (byteOfBits l) = l :=
  byteOfBits_bits' l h

theorem getElem?_byteBits (v : Byte) {j : Nat} (hj : j < 8) : (byteBits v)[j]? = some (v.getLsbD (7 - j)) := by
  simp [byteBits, hj, BitVec.getMsbD]

/-- NEXTBYTE gives the bits of eight NEXTBITs (42 R151). -/
theorem TrackState.byteBits_nextByte (ts : TrackState) : byteBits ts.nextByte.1 = (ts.nextBits 8).1 :=
  byteBits_byteOfBits (nextBits_length 8 ts)

/-- Settles O36: the byte replied is the one whose bits are those of eight NEXTBITs. -/
theorem pullByteResult : Obligations.PullByteResult := fun s t =>
  ⟨(s.track t).nextByte.1, rfl, fun j hj => by rw [← byteBits_nextByte, getElem?_byteBits _ hj]⟩

/-- The boundaries of `m + n` bits are those of the first `m`, then those of the other `n` behind them. -/
theorem TrackState.bitBoundaries_add (m n : Nat) : ∀ ts : TrackState,
    ts.bitBoundaries (m + n) = ts.bitBoundaries m ++ ((ts.nextBits m).2.bitBoundaries n).map (· + m) := by
  induction m with
  | zero => intro ts; simp [bitBoundaries, nextBits]
  | succ m ih => intro ts; rw [Nat.succ_add]; simp [bitBoundaries, nextBits, ih]

/-- Byte pulls and bit pulls give the same bits, with the same boundaries, and leave the same track (42 R153). -/
theorem TrackState.nextBytes_eq_nextBits (n : Nat) : ∀ ts : TrackState,
    (ts.nextBytes n).1.flatMap byteBits = (ts.nextBits (8 * n)).1 ∧ (ts.nextBytes n).2 = (ts.nextBits (8 * n)).2 ∧
      ts.byteBoundaries n = ts.bitBoundaries (8 * n) := by
  induction n with
  | zero => exact fun _ => ⟨rfl, rfl, rfl⟩
  | succ n ih =>
    intro ts
    obtain ⟨hbits, hleft, hboundaries⟩ := ih ts.nextByte.2
    have hstart : ts.nextByte.2 = (ts.nextBits 8).2 := rfl
    rw [Nat.mul_succ, Nat.add_comm (8 * n), nextBits_add, bitBoundaries_add, ← hstart, ← hbits, ← hleft, ← hboundaries,
      ← byteBits_nextByte]
    exact ⟨rfl, rfl, rfl⟩

/-- Inside a packet there is no boundary (42 R140). -/
theorem TrackState.bitBoundaries_within (k : Nat) : ∀ {ts : TrackState}, ts.bitPos.toNat + k ≤ ts.latch.nbits.toNat →
    ts.bitBoundaries k = [] := by
  induction k with
  | zero => exact fun _ => rfl
  | succ k ih =>
    intro ts h
    have hlt := ts.latch.nbits.isLt
    have hne : ts.bitPos ≠ ts.latch.nbits := fun e => by rw [e] at h; omega
    have hpos : (ts.bitPos + 1).toNat = ts.bitPos.toNat + 1 := by rw [BitVec.toNat_add]; simp; omega
    have hrest := ih (ts := { ts with bitPos := ts.bitPos + 1 }) (by simp only [hpos]; omega)
    rw [bitBoundaries, if_neg hne, nextBit_within hne, hrest]; rfl

/-- The bits of a legal packet are read by `pbit` inside the buffer. -/
theorem Latch.bits_eq_map_pbit {l : Latch} (h : l.nbits.toNat ≤ 80) :
    l.bits = (List.range l.nbits.toNat).map (pbit l.buf) :=
  List.map_congr_left fun _ hi => (pbit_eq_getMsbD l.buf ((List.mem_range.1 hi).trans_le h)).symm

theorem Latch.bits_length (l : Latch) : l.bits.length = l.nbits.toNat := by simp [Latch.bits]

/-- From an exhausted packet, a packet pull gives the bits of as many bit pulls, whose one boundary is the first of them, and
leaves the same track (42 R153). -/
theorem TrackState.Inv.nextPacket_bits (hp : p.Legal) (hI : ts.Inv p t) (h : ts.bitPos = ts.latch.nbits) :
    ts.nextBits ts.nextPacket.1.nbits.toNat = (ts.nextPacket.1.bits, ts.nextPacket.2) ∧
      ts.bitBoundaries ts.nextPacket.1.nbits.toNat = [0] := by
  obtain ⟨-, hpos, hsize⟩ := hI.nextPacket hp
  rw [Latch.bits_eq_map_pbit hsize]
  refine ⟨nextPacket_eq_nextBits h (hI.advance hp).2, ?_⟩
  rw [nextPacket_eq] at hpos ⊢
  obtain ⟨n, hn⟩ := Nat.exists_eq_add_of_le' hpos
  have hrest : ts.nextBit.2.bitBoundaries n = [] := by
    rw [nextBit_boundary h]
    exact bitBoundaries_within n (by simp [hn, Nat.add_comm])
  rw [hn, bitBoundaries, if_pos h, hrest]; rfl

/-- From an exhausted packet, packet pulls give the bits of as many bit pulls, with a boundary at the first bit of each packet
and nowhere else, and leave the same track (42 R153). -/
theorem TrackState.Inv.nextPackets_bits (hp : p.Legal) (n : Nat) : ∀ {ts : TrackState}, ts.Inv p t →
    ts.bitPos = ts.latch.nbits →
    (ts.nextPackets n).1.length = n ∧
    ts.nextBits ((ts.nextPackets n).1.flatMap Latch.bits).length =
      ((ts.nextPackets n).1.flatMap Latch.bits, (ts.nextPackets n).2) ∧
    ts.bitBoundaries ((ts.nextPackets n).1.flatMap Latch.bits).length = packetStarts (ts.nextPackets n).1 := by
  induction n with
  | zero => exact fun _ _ => ⟨rfl, rfl, rfl⟩
  | succ n ih =>
    intro ts hI h
    obtain ⟨hbits, hboundary⟩ := hI.nextPacket_bits hp h
    obtain ⟨hlen, hrest, hstarts⟩ := ih (hI.nextPacket hp).1 rfl
    simp only [nextPackets, List.flatMap_cons, List.length_append, packetStarts, nextBits_add, bitBoundaries_add, hbits,
      hrest, hstarts, hboundary, Latch.bits_length, List.length_cons, hlen, List.singleton_append, and_self]

/-- Settles O39: bytes by `nextBytes_eq_nextBits`, one packet by `nextPacket_eq`, packets by `nextPackets_bits`. -/
theorem pullsAreEquivalent : Obligations.PullsAreEquivalent := by
  intro p t ts hp hI n
  refine ⟨nextBytes_eq_nextBits n ts, nextPacket_eq ts, fun h => ?_⟩
  obtain ⟨hlen, hbits, hstarts⟩ := hI.nextPackets_bits hp n h
  exact ⟨hlen, congrArg Prod.fst hbits.symm, congrArg Prod.snd hbits.symm, hstarts⟩

end Sys2Proof.Machine
end

section
/-!
The rotation (42 R143, R144). Where nothing else has a claim (`Rotates`), every boundary takes the next register of the cycle
1, ..., `maxLoaded`, and no boundary changes which packet is the newest of a register. Register 0, while its repeats last
(`Repeated`), is sent at every boundary; a loaded packet of register 0 then takes its turn, and after it the rotation goes on.
-/
namespace Sys2Proof

/-- The newest loaded packet of a register: the one that waits for its swap, else the active one (10_state R22). -/
def Register.newest (g : Register) : Packet := if g.pend then g.inactive else g.active

/-- TAKE sends the newest packet (42 R142). -/
theorem Register.swap_active (g : Register) : g.swap.active = g.newest := by
  unfold Register.newest
  split_ifs with h
  · exact Register.swap_of_pend h
  · rw [Register.swap_of_not_pend (Bool.eq_false_iff.2 h)]

theorem Register.swap_newest (g : Register) : g.swap.newest = g.newest := by
  rw [← Register.swap_active, Register.swap_swap, Register.swap_active]

theorem Register.setActiveRep_newest_latch (g : Register) (v : BitVec 8) :
    (g.setActiveRep v).newest.latch = g.newest.latch := by
  unfold Register.newest
  rw [Register.setActiveRep_pend, Register.setActiveRep_inactive, Register.setActiveRep_active]
  split_ifs <;> rfl

theorem Register.setActiveRep_self (g : Register) : g.setActiveRep g.active.rep = g := by
  unfold Register.setActiveRep Register.active; split_ifs <;> rfl

theorem Register.setActiveRep_setActiveRep (g : Register) (v w : BitVec 8) :
    (g.setActiveRep v).setActiveRep w = g.setActiveRep w := by
  obtain ⟨slot0, slot1, act, pend⟩ := g
  cases act <;> rfl

/-- Counting down from a repeat count, there is a repeat left before the end of it. -/
theorem ofNat_sub_pos {r : BitVec 8} {j : Nat} (hj : j < r.toNat) : 0 < BitVec.ofNat 8 (r.toNat - j) := by
  have hr := r.isLt
  rw [BitVec.lt_def]; simp; omega

theorem ofNat_sub_sub_one {r : BitVec 8} {j : Nat} (hj : j < r.toNat) :
    BitVec.ofNat 8 (r.toNat - j) - 1 = BitVec.ofNat 8 (r.toNat - (j + 1)) := by
  have hr := r.isLt
  apply BitVec.eq_of_toNat_eq
  simp; omega

namespace Machine

namespace TrackState

variable {p : Params} {t : Track} {ts u : TrackState} {j : Nat} {k : Packet}

theorem advances_add (m n : Nat) : ts.advances (m + n) = (ts.advances m).advances n := by
  induction n with
  | zero => rfl
  | succ n ih => exact congrArg advance ih

/-- No sequence is active, no register is requested and register 0 is not repeating: the rotation alone chooses (42 R144). -/
structure Rotates (ts : TrackState) : Prop where
  idle : ts.seqActive = false
  noRequest : ts.nextV = false
  noRepeat : ts.curReg = 0 → (ts.register 0).active.rep = 0

theorem Rotates.advance_eq (h : ts.Rotates) (hI : ts.Inv p t) : ts.advance = ts.rotate :=
  hI.advance_eq_rotate h.idle fun ⟨hcur, hrep⟩ => by rw [h.noRepeat hcur] at hrep; exact BitVec.lt_irrefl _ hrep

/-- Round robin leaves the rotation to itself: it never enters register 0 (42 R144). -/
theorem Rotates.advance (h : ts.Rotates) (hp : p.Legal) (hI : ts.Inv p t) : ts.advance.Rotates := by
  rw [h.advance_eq hI]
  exact ⟨h.idle, rfl, fun hcur => absurd hcur (hI.nextRegister_ne_zero hp h.noRequest)⟩

/-- The next register in the cycle 1, ..., `maxLoaded` (42 R144). -/
theorem Inv.nextRegister_toNat (hp : p.Legal) (hI : ts.Inv p t) (hv : ts.nextV = false) :
    ts.nextRegister.toNat = ts.curReg.toNat % ts.maxLoaded.toNat + 1 := by
  obtain ⟨hmark, hmark'⟩ := hI.markRange
  have hcur := hI.curRange
  obtain ⟨-, hreg⟩ := nreg_range hp t
  unfold nextRegister
  rw [hv, if_neg Bool.false_ne_true]
  split_ifs with hlast
  · have hlast : ts.maxLoaded.toNat ≤ ts.curReg.toNat := hlast
    rw [Nat.le_antisymm hcur hlast, Nat.mod_self]; rfl
  · have hlast : ¬ts.maxLoaded.toNat ≤ ts.curReg.toNat := hlast
    rw [Nat.mod_eq_of_lt (Nat.lt_of_not_le hlast), BitVec.toNat_add]; simp; omega

/-- TAKE leaves which packet is the newest of each register (42 R142). -/
theorem take_newest_latch {r : BitVec 7} (hr : r.toNat < ts.regs.length) (q : BitVec 7) :
    ((ts.take r).register q).newest.latch = (ts.register q).newest.latch := by
  by_cases hq : q = r
  · rw [hq, take_register_self hr]
    split_ifs
    · rw [Register.setActiveRep_newest_latch, Register.swap_newest]
    · rw [Register.swap_newest]
  · rw [take_register_of_ne hq]

/-- What steps 3 and 4 leave in the register they take (42 R141, R142). -/
theorem rotate_register_self (hr : ts.nextRegister.toNat < ts.regs.length) :
    ts.rotate.register ts.nextRegister =
      if ts.nextRegister = 0 then
        (ts.register ts.nextRegister).swap.setActiveRep (satdec8 (ts.register ts.nextRegister).swap.active.rep)
      else (ts.register ts.nextRegister).swap :=
  take_register_self (ts := { ts with nextV := false, curReg := ts.nextRegister }) hr

theorem rotate_latch (ts : TrackState) : ts.rotate.latch = (ts.register ts.nextRegister).swap.active.latch := rfl

theorem rotate_newest_latch (hr : ts.nextRegister.toNat < ts.regs.length) (q : BitVec 7) :
    (ts.rotate.register q).newest.latch = (ts.register q).newest.latch :=
  take_newest_latch (ts := { ts with nextV := false, curReg := ts.nextRegister }) hr q

/-- `n` boundaries of the rotation leave it to itself, with the same high-water mark and the same newest packets. -/
theorem Rotates.advances (h : ts.Rotates) (hp : p.Legal) (hI : ts.Inv p t) (n : Nat) :
    (ts.advances n).Rotates ∧ (ts.advances n).maxLoaded = ts.maxLoaded ∧
      ∀ q, ((ts.advances n).register q).newest.latch = (ts.register q).newest.latch := by
  induction n with
  | zero => exact ⟨h, rfl, fun _ => rfl⟩
  | succ n ih =>
    obtain ⟨hrot, hmark, hnewest⟩ := ih
    have hIn := hI.advances hp n
    have hnext : (ts.advances n).nextRegister.toNat < (ts.advances n).regs.length := by
      rw [hIn.regsSize]; exact (hIn.nextRegister_le hp).trans_lt hIn.markRange.2
    refine ⟨hrot.advance hp hIn, ?_, fun q => ?_⟩ <;> rw [TrackState.advances, hrot.advance_eq hIn]
    · exact hmark
    · rw [rotate_newest_latch hnext, hnewest]

/-- From one boundary of the rotation to the next, the cursor moves on by one place in the cycle (42 R144). -/
theorem Rotates.advances_succ_curReg (h : ts.Rotates) (hp : p.Legal) (hI : ts.Inv p t) (n : Nat) :
    (ts.advances (n + 1)).curReg.toNat = (ts.advances n).curReg.toNat % ts.maxLoaded.toNat + 1 := by
  obtain ⟨hrot, hmark, -⟩ := h.advances hp hI n
  have hIn := hI.advances hp n
  rw [← hmark, ← hIn.nextRegister_toNat hp hrot.noRequest, TrackState.advances, hrot.advance_eq hIn]; rfl

/-- The register of the `n + 1`-th boundary of the rotation (42 R144). -/
theorem Rotates.advances_curReg (h : ts.Rotates) (hp : p.Legal) (hI : ts.Inv p t) (n : Nat) :
    (ts.advances (n + 1)).curReg.toNat =
      (ts.curReg.toNat + ts.maxLoaded.toNat - 1 + (n + 1)) % ts.maxLoaded.toNat + 1 := by
  rw [h.advances_succ_curReg hp hI]
  induction n with
  | zero =>
    have hmark := hI.markRange.1
    have hcycle : ts.curReg.toNat + ts.maxLoaded.toNat - 1 + (0 + 1) = ts.curReg.toNat + ts.maxLoaded.toNat := by omega
    rw [hcycle, Nat.add_mod_right]; rfl
  | succ n ih => rw [h.advances_succ_curReg hp hI, ih, Nat.mod_add_mod]; rfl

/-- A boundary of the rotation sends the newest packet of the register it takes (42 R144). -/
theorem Rotates.advances_latch (h : ts.Rotates) (hp : p.Legal) (hI : ts.Inv p t) (n : Nat) :
    (ts.advances (n + 1)).latch = (ts.register (ts.advances (n + 1)).curReg).newest.latch := by
  obtain ⟨hrot, -, hnewest⟩ := h.advances hp hI n
  rw [TrackState.advances, hrot.advance_eq (hI.advances hp n), ← hnewest, ← Register.swap_active]; rfl

/-- After register 0 the rotation goes on at register 1 (42 R144). -/
theorem Rotates.advance_curReg_of_zero (h : ts.Rotates) (hp : p.Legal) (hI : ts.Inv p t) (hcur : ts.curReg = 0) :
    ts.advance.curReg = 1 := by
  have hnext := hI.nextRegister_toNat hp h.noRequest
  rw [hcur] at hnext
  rw [h.advance_eq hI]
  exact BitVec.eq_of_toNat_eq (hnext.trans (congrArg (· + 1) (Nat.zero_mod _)))

theorem Rotates.advances_curReg_ne_zero (h : ts.Rotates) (hp : p.Legal) (hI : ts.Inv p t) (n : Nat) :
    (ts.advances (n + 1)).curReg ≠ 0 := fun e => by
  have hcur := h.advances_curReg hp hI n
  rw [e] at hcur
  exact absurd hcur (Nat.succ_ne_zero _).symm

/-- With register 0 repeating and no sequence active, an advance decision sends it again (42 R141 step 2). -/
theorem Inv.advance_eq_repeatOneShot (hI : ts.Inv p t) (hidle : ts.seqActive = false) (hcur : ts.curReg = 0)
    (hrep : 0 < (ts.register 0).active.rep) : ts.advance = ts.repeatOneShot := by
  unfold TrackState.advance
  simp only [hI.retire_of_idle hidle, hidle]
  rw [if_neg Bool.false_ne_true, if_pos ⟨hcur, hrep⟩]

/-- Register 0 has been sent `j` times more than in `ts`, and nothing else has happened (42 R141 step 2). -/
structure Repeated (ts : TrackState) (j : Nat) (u : TrackState) : Prop where
  idle : u.seqActive = false
  cur : u.curReg = 0
  request : u.nextV = ts.nextV
  index : u.nextIdx = ts.nextIdx
  zero : u.register 0 = (ts.register 0).setActiveRep (BitVec.ofNat 8 ((ts.register 0).active.rep.toNat - j))

theorem Repeated.refl (hidle : ts.seqActive = false) (hcur : ts.curReg = 0) : ts.Repeated 0 ts where
  idle := hidle
  cur := hcur
  request := rfl
  index := rfl
  zero := by rw [Nat.sub_zero, BitVec.ofNat_toNat, BitVec.setWidth_eq, Register.setActiveRep_self]

/-- While a repeat is left, the next boundary sends it. -/
theorem Repeated.advance (h : ts.Repeated j u) (hI : u.Inv p t) (hj : j < (ts.register 0).active.rep.toNat) :
    ts.Repeated (j + 1) u.advance ∧ u.advance.latch = (ts.register 0).active.latch := by
  have hactive : (u.register 0).active =
      { (ts.register 0).active with rep := BitVec.ofNat 8 ((ts.register 0).active.rep.toNat - j) } := by
    rw [h.zero, Register.setActiveRep_active]
  have hrep : 0 < (u.register 0).active.rep := by rw [hactive]; exact ofNat_sub_pos hj
  have hless : (u.register 0).active.rep - 1 = BitVec.ofNat 8 ((ts.register 0).active.rep.toNat - (j + 1)) := by
    rw [hactive]; exact ofNat_sub_sub_one hj
  rw [hI.advance_eq_repeatOneShot h.idle h.cur hrep]
  refine ⟨⟨h.idle, h.cur, h.request, h.index, ?_⟩, ?_⟩
  · rw [repeatOneShot_register_self hI.reg0, hless, h.zero, Register.setActiveRep_setActiveRep]
  · rw [repeatOneShot_eq, hactive]; rfl

/-- Register 0 is sent at every boundary until its repeats are used up (42 R143). -/
theorem Inv.repeated (hp : p.Legal) (hI : ts.Inv p t) (hidle : ts.seqActive = false) (hcur : ts.curReg = 0)
    (hj : j ≤ (ts.register 0).active.rep.toNat) : ts.Repeated j (ts.advances j) := by
  induction j with
  | zero => exact .refl hidle hcur
  | succ j ih => exact ((ih (Nat.le_of_succ_le hj)).advance (hI.advances hp j) hj).1

theorem Inv.advances_repeat (hp : p.Legal) (hI : ts.Inv p t) (hidle : ts.seqActive = false) (hcur : ts.curReg = 0)
    (hj : j < (ts.register 0).active.rep.toNat) :
    (ts.advances (j + 1)).curReg = 0 ∧ (ts.advances (j + 1)).latch = (ts.register 0).active.latch := by
  obtain ⟨hsent, hlatch⟩ := (hI.repeated hp hidle hcur hj.le).advance (hI.advances hp j) hj
  exact ⟨hsent.cur, hlatch⟩

/-- A packet loaded into register 0 waits there, and the request for it is the next thing the rotation serves
(40 R110, R112). -/
structure ZeroRequested (ts : TrackState) (k : Packet) : Prop where
  idle : ts.seqActive = false
  request : ts.nextV = true
  index : ts.nextIdx = 0
  waits : ts.LoadWaits 0 k

/-- The packet `k` of register 0 has just been sent for the first time (42 R142). -/
structure ZeroTaken (ts : TrackState) (k : Packet) : Prop where
  idle : ts.seqActive = false
  noRequest : ts.nextV = false
  cur : ts.curReg = 0
  latch : ts.latch = k.latch
  active : (ts.register 0).active = { k with rep := satdec8 k.rep }

/-- How often register 0 has still to be sent before the rotation serves a request (40 R114 (c)). -/
def zeroRepeats (ts : TrackState) : Nat := if ts.curReg = 0 then (ts.register 0).active.rep.toNat else 0

theorem zeroRequested_loadRegister (hI : ts.Inv p t) (hidle : ts.seqActive = false) (k : Packet) :
    (ts.loadRegister 0 k).ZeroRequested k where
  idle := by rw [loadRegister_eq]; exact hidle
  request := by rw [loadRegister_eq]
  index := by rw [loadRegister_eq]; exact ite_self 0
  waits := loadWaits_loadRegister hI.reg0 k

/-- The remaining repeats of register 0 are sent, and the request is still there. -/
theorem ZeroRequested.repeats (h : ts.ZeroRequested k) (hp : p.Legal) (hI : ts.Inv p t) :
    (∀ n, n < ts.zeroRepeats → (ts.advances (n + 1)).curReg = 0 ∧
      (ts.advances (n + 1)).latch = (ts.register 0).active.latch) ∧
    (ts.advances ts.zeroRepeats).ZeroRequested k ∧
    ¬((ts.advances ts.zeroRepeats).curReg = 0 ∧ 0 < ((ts.advances ts.zeroRepeats).register 0).active.rep) := by
  unfold zeroRepeats
  split_ifs with hcur
  · have hdone := hI.repeated hp h.idle hcur le_rfl
    obtain ⟨hpend, hslot⟩ := h.waits
    refine ⟨fun n hn => hI.advances_repeat hp h.idle hcur hn, ?_, ?_⟩
    · exact ⟨hdone.idle, hdone.request.trans h.request, hdone.index.trans h.index, by
        unfold LoadWaits
        rw [hdone.zero, Register.setActiveRep_pend, Register.setActiveRep_inactive]
        exact ⟨hpend, hslot⟩⟩
    · rw [hdone.zero, Register.setActiveRep_active, Nat.sub_self]
      exact fun ⟨_, hrep⟩ => BitVec.lt_irrefl _ hrep
  · exact ⟨nofun, h, fun ⟨hzero, _⟩ => hcur hzero⟩

/-- The boundary that serves the request sends the loaded packet (42 R141 step 3, R142). -/
theorem ZeroRequested.advance (h : ts.ZeroRequested k) (hI : ts.Inv p t)
    (hdone : ¬(ts.curReg = 0 ∧ 0 < (ts.register 0).active.rep)) : ts.advance.ZeroTaken k := by
  obtain ⟨hpend, hslot⟩ := h.waits
  have hnext : ts.nextRegister = 0 := (nextRegister_of_request h.request).trans h.index
  have hswap : (ts.register 0).swap.active = k := (Register.swap_of_pend hpend).trans hslot
  have hregister := rotate_register_self (ts := ts) (hnext ▸ hI.reg0)
  rw [hnext, if_pos rfl, hswap] at hregister
  rw [hI.advance_eq_rotate h.idle hdone]
  exact
  { idle := h.idle
    noRequest := rfl
    cur := hnext
    latch := by rw [rotate_latch, hnext, hswap]
    active := by rw [hregister, Register.setActiveRep_active, hswap] }

/-- A packet of register 0 that has been sent once is sent `max(1, rep)` times in all; then no repeat is left and the rotation
goes on (42 R143). -/
theorem ZeroTaken.repeats (h : ts.ZeroTaken k) (hp : p.Legal) (hI : ts.Inv p t) :
    (∀ n, n ≤ k.rep.toNat - 1 → (ts.advances n).curReg = 0 ∧ (ts.advances n).latch = k.latch) ∧
    (ts.advances (k.rep.toNat - 1)).curReg = 0 ∧
    ((ts.advances (k.rep.toNat - 1)).register 0).active.rep = 0 ∧ (ts.advances (k.rep.toNat - 1)).Rotates := by
  have hlt := k.rep.isLt
  have hleft : (ts.register 0).active.rep.toNat = k.rep.toNat - 1 := by
    rw [h.active, satdec8_eq_ofNat]; simp; omega
  have hdone := hI.repeated hp h.idle h.cur hleft.ge
  have hzero : ((ts.advances (k.rep.toNat - 1)).register 0).active.rep = 0 := by
    rw [hdone.zero, Register.setActiveRep_active, hleft, Nat.sub_self]; rfl
  refine ⟨fun n hn => ?_, hdone.cur, hzero, hdone.idle, hdone.request.trans h.noRequest, fun _ => hzero⟩
  cases n with
  | zero => exact ⟨h.cur, h.latch⟩
  | succ n =>
    have hsent := hI.advances_repeat hp h.idle h.cur (hleft ▸ hn)
    rwa [h.active] at hsent

/-- A requested packet of register 0 is sent `max(1, rep)` times, once the old repeats are over; then the rotation goes on
(40 R114 (c), 42 R143). -/
theorem ZeroRequested.sent (h : ts.ZeroRequested k) (hp : p.Legal) (hI : ts.Inv p t) :
    (∀ n, n < timesSent k.rep → (ts.advances (ts.zeroRepeats + n + 1)).curReg = 0 ∧
      (ts.advances (ts.zeroRepeats + n + 1)).latch = k.latch) ∧
    (ts.advances (ts.zeroRepeats + timesSent k.rep)).curReg = 0 ∧
    ((ts.advances (ts.zeroRepeats + timesSent k.rep)).register 0).active.rep = 0 ∧
    (ts.advances (ts.zeroRepeats + timesSent k.rep)).Rotates := by
  obtain ⟨-, hrequested, hover⟩ := h.repeats hp hI
  have htaken : (ts.advances (ts.zeroRepeats + 1)).ZeroTaken k := hrequested.advance (hI.advances hp _) hover
  have htimes : ts.zeroRepeats + timesSent k.rep = ts.zeroRepeats + 1 + (k.rep.toNat - 1) := by
    unfold timesSent; omega
  obtain ⟨hsent, hlast⟩ := htaken.repeats hp (hI.advances hp _)
  rw [← advances_add, ← htimes] at hlast
  refine ⟨fun n hn => ?_, hlast⟩
  have hsent := hsent n (by unfold timesSent at hn; omega)
  rwa [← advances_add, Nat.add_right_comm] at hsent

end TrackState

/-- Settles O31: the closed form of the cycle, and the newest packet of each register it comes to. -/
theorem roundRobin : Obligations.RoundRobin := fun _ _ _ hp hI hidle hnone hzero n =>
  have hrot : TrackState.Rotates _ := ⟨hidle, hnone, hzero⟩
  ⟨hrot.advances_curReg hp hI n, hrot.advances_latch hp hI n⟩

/-- Settles O32: the old repeats, the loaded packet's transmissions and the rotation after them, one stage after the other. -/
theorem registerZeroBudget : Obligations.RegisterZeroBudget := by
  intro s t nbits rep buf hI hidle hmin hmax
  have hp := hI.params
  have hI := hI.tracks t
  have hzero : (0 : BitVec 7).toNat < s.params.nreg t := hI.regsSize ▸ hI.reg0
  refine ⟨_, exec_load_of_accepted rep buf hzero (by omega), ?_⟩
  rw [State.endedWith_track, State.track_setTrack]
  set k : Packet := { buf := buf, nbits := nbits, rep := rep }
  set u : TrackState := { (s.track t).loadRegister 0 k with lastStatus := .ok } with hu
  intro old m
  have hIu : u.Inv s.params t := (hI.loadRegister hzero ⟨hmin, hmax⟩).lastStatus .ok
  have hrequested : u.ZeroRequested k :=
    { TrackState.zeroRequested_loadRegister hI hidle k with }
  have hold : (u.register 0).active = old :=
    (congrArg Register.active (TrackState.loadRegister_register_self hI.reg0 k)).trans (Register.load_active _ k)
  have hcur : u.curReg = (s.track t).curReg := by rw [hu, TrackState.loadRegister_eq]
  have hm : u.zeroRepeats = m := by unfold TrackState.zeroRepeats; rw [hold, hcur]
  obtain ⟨hrepeats, -⟩ := hrequested.repeats hp hIu
  obtain ⟨hsent, hlast, hspent, hrotates⟩ := hrequested.sent hp hIu
  rw [hm] at hrepeats hsent hlast hspent hrotates
  rw [hold] at hrepeats
  have hIlast := hIu.advances hp (m + timesSent rep)
  refine ⟨hrepeats, hsent, hspent, hrotates.advance_curReg_of_zero hp hIlast hlast, fun n => ?_⟩
  rw [Nat.add_assoc, TrackState.advances_add]
  exact hrotates.advances_curReg_ne_zero hp hIlast n

end Machine

end Sys2Proof
end

section
/-!
No packet is cut short (42 R152, 43 R180): pulls of bits leave `MIX`, a pull of a packet finds the packet exhausted and leaves
it so, and a track changes from no driver to a driver with its packet exhausted.
-/
namespace Sys2Proof.Machine

open TrackState

variable {p : Params} {t : Track} {ts u : TrackState} {i : Instr} {m : Move}

@[simp] theorem TrackState.advance_mix (ts : TrackState) : ts.advance.mix = ts.mix := by rw [advance_frame]

@[simp] theorem TrackState.boundary_mix (ts : TrackState) : ts.boundary.mix = ts.mix := by
  unfold boundary
  split
  · exact advance_mix ts
  · rfl

@[simp] theorem TrackState.nextBit_mix (ts : TrackState) : ts.nextBit.2.mix = ts.mix := boundary_mix ts

@[simp] theorem TrackState.nextBits_mix (n : Nat) : ∀ ts : TrackState, (ts.nextBits n).2.mix = ts.mix := by
  induction n with
  | zero => exact fun _ => rfl
  | succ n ih => exact fun ts => (ih ts.nextBit.2).trans (nextBit_mix ts)

/-- A packet pulled from an exhausted packet discards no bit (42 R152). -/
theorem TrackState.nextPacket_mix (h : ts.bitPos = ts.latch.nbits) : ts.nextPacket.2.mix = ts.mix := by
  rw [nextPacket_eq, h]; simp

theorem TrackState.WholePackets.resetWith (p : Params) (n : Nat) : (TrackState.resetWith p n).WholePackets :=
  ⟨rfl, fun _ => rfl⟩

/-- The timer driver pulls bits, and of its packet nothing is asked. -/
theorem TrackState.WholePackets.of_timer (hmix : ts.mix = false) (hk : ts.cfg.kind = .timer) : ts.WholePackets :=
  ⟨hmix, by rw [hk]; exact nofun⟩

theorem CommandUpdate.wholePackets (hu : CommandUpdate p t ts i u) (h : ts.WholePackets) : u.WholePackets := by
  cases hu with
  | load => rw [loadRegister_eq]; exact h
  | seqw | sched | kill => exact h
  | attachTimer => exact .of_timer h.1 rfl
  | attachRing kind gran g thresh pin unit hnone => exact ⟨h.1, fun _ => h.2 (.inl hnone)⟩

/-- The pull of a unit cuts no packet short: a unit that is a packet is pulled from an exhausted one (43 R180). -/
theorem TrackState.pullUnit_mix (h : ts.cfg.gran = .packet → ts.bitPos = ts.latch.nbits) : ts.pullUnit.2.mix = ts.mix := by
  unfold pullUnit
  cases hg : ts.cfg.gran with
  | bit => exact nextBit_mix ts
  | byte => exact nextBits_mix 8 ts
  | packet => exact nextPacket_mix (h hg)

theorem TrackState.pullUnit_exhausted (h : ts.cfg.gran = .packet) : ts.pullUnit.2.bitPos = ts.pullUnit.2.latch.nbits := by
  unfold pullUnit; rw [h]; rfl

theorem TrackState.WholePackets.pullUnit (h : ts.WholePackets) (hk : ts.cfg.kind = .ring) : ts.pullUnit.2.WholePackets := by
  obtain ⟨hmix, hwhole⟩ := h
  have hcfg : ts.pullUnit.2.cfg = ts.cfg := by rw [← pullUnit_driver]; rfl
  refine ⟨(pullUnit_mix fun hg => hwhole (.inr ⟨hk, hg⟩)).trans hmix, ?_⟩
  rw [hcfg, hk]
  exact fun hpacket => pullUnit_exhausted (hpacket.resolve_left nofun).2

/-- TA pulls a bit for the timer driver (43 R172). -/
theorem TrackState.WholePackets.ta (h : ts.WholePackets) (hk : ts.cfg.kind = .timer) (now : Nat) :
    (ts.ta p now).WholePackets := by
  have hcfg : ts.startTa.nextBit.2.cfg = ts.cfg := by rw [← nextBit_driver]; rfl
  exact .of_timer ((nextBit_mix ts.startTa).trans h.1) ((congrArg DriverConfig.kind hcfg).trans hk)

/-- REFILL pulls a unit for the ring driver, and then writes the ring (43 R182). -/
theorem TrackState.WholePackets.refill (h : ts.WholePackets) (hk : ts.cfg.kind = .ring) : (ts.refill p).WholePackets := by
  rw [refill_eq]; exact h.pullUnit hk

theorem EventUpdate.wholePackets (hu : EventUpdate p t ts m u) (h : ts.WholePackets) : u.WholePackets := by
  cases hu with
  | ta now he => exact h.ta (p := p) (of_decide_eq_true he).1 now
  | tb | underrun => exact h
  | refill he => exact h.refill (p := p) (of_decide_eq_true he).1
  | drain => rw [drain_eq]; exact h

theorem TrackStep.wholePackets (hs : TrackStep p t ts u) (h : ts.WholePackets) : u.WholePackets := by
  cases hs with
  | kept | ended => exact h
  | updated i v hu => exact hu.wholePackets h
  | event m _ hu => exact hu.wholePackets h
  | reset => rw [State.resetWith_track]; exact .resetWith p _

/-- Settles O56: the reset value has no driver and an empty packet, and every step of a track keeps packets whole. -/
theorem driversNeverMixPulls : Obligations.DriversNeverMixPulls :=
  ⟨fun p t => by rw [State.resetWith_track]; exact .resetWith p _,
    fun _ _ _ h hs t => ((moveEffect_of_applyMove hs).trackStep t).wholePackets (h t)⟩

end Sys2Proof.Machine
end

section
/-!
What a move but reset does to a driver (43, 44 R210): commands write the driver's part of their track only when they attach
one, and the rest is the driver's own events. From it: which timer event is enabled (R174), and when a refill is asked for
(R183).
-/
namespace Sys2Proof.Machine

open TrackState

variable {p : Params} {t : Track} {ts u : TrackState} {s s' : State} {i : Instr} {m : Move}

/-- What a move but reset does to the driver of a track: it stays, whatever becomes of the rotator `r` and of the last
status; or it is attached; or it makes an event of its own. -/
inductive DriverStep (p : Params) (t : Track) (ts : TrackState) (m : Move) : TrackState → Prop
  | kept (r : TrackState) (c : Status) : DriverStep p t ts m (r.graft { ts with lastStatus := c })
  | attachedTimer (hnone : ts.cfg.kind = .none) (pin unit : BitVec 16) :
      DriverStep p t ts m { ts.attachTimer pin unit with lastStatus := .ok }
  | attachedRing (hnone : ts.cfg.kind = .none) (g : Gran) (thresh : BitVec 8) (pin unit : BitVec 16) :
      DriverStep p t ts m { ts.attachRing g thresh pin unit with lastStatus := .ok }
  | event (u : TrackState) (hu : EventUpdate p t ts m u) : DriverStep p t ts m u

theorem DriverStep.of_graft (h : u.graft ts = u) (c : Status) : DriverStep p t ts m { u with lastStatus := c } := by
  rw [← h]; exact .kept u c

theorem CommandUpdate.driverStep (hu : CommandUpdate p t ts i u) : DriverStep p t ts m { u with lastStatus := .ok } := by
  cases hu with
  | load => exact .of_graft (by rw [loadRegister_eq]; rfl) .ok
  | seqw | sched | kill => exact .of_graft rfl .ok
  | attachTimer kind gran thresh pin unit hnone => exact .attachedTimer hnone pin unit
  | attachRing kind gran g thresh pin unit hnone => exact .attachedRing hnone g thresh pin unit

/-- What a move but reset does to a track's driver. -/
theorem driverStep_of_applyMove (h : applyMove m s = .next s') (hm : m ≠ .reset) (t : Track) :
    DriverStep s.params t (s.track t) m (s'.track t) := by
  have effect : TrackEffect s t m (s'.track t) := (moveEffect_of_applyMove h).trackEffect hm t
  generalize s'.track t = u at effect
  cases effect with
  | kept => exact .kept (s.track t) (s.track t).lastStatus
  | ended c => exact .kept (s.track t) c
  | command w i after u hw hd hu => exact hu.driverStep
  | event u hu => exact .event _ hu

theorem reset_track_kind (h : applyMove .reset s = .next s') (t : Track) : (s'.track t).cfg.kind = .none := by
  cases h; cases t <;> rfl

/-- The pin that goes high before the pull of a TA does not matter to the pull (43 R172). -/
theorem TrackState.startTa_nextBit (ts : TrackState) :
    ts.startTa.nextBit = (ts.nextBit.1, ts.nextBit.2.graft ts.startTa) := nextBit_graft ts ts.startTa

/-- TA in one form, without the reply (43 R172). -/
theorem TrackState.ta_eq (p : Params) (now : Nat) (ts : TrackState) :
    ts.ta p now =
      { ts.nextBit.2 with
        pin := true
        tBit := ts.nextBit.1
        tPhase := .high
        tB := .due (now + p.halfPeriod ts.nextBit.1)
        tA := .due (now + 2 * p.halfPeriod ts.nextBit.1)
        wave := ts.wave ++ [{ level := true, dur := .ticks (p.halfPeriod ts.nextBit.1) }] } := by
  unfold ta
  rw [startTa_nextBit, ← nextBit_driver ts]
  rfl

theorem EventUpdate.cfg_eq (hu : EventUpdate p t ts m u) : u.cfg = ts.cfg := by
  cases hu with
  | ta now => rw [ta_eq, ← nextBit_driver]; rfl
  | refill => rw [refill_eq, ← pullUnit_driver]; rfl
  | drain => rw [drain_eq]
  | tb | underrun => rfl

/-- Every driver event is of a driver that is there (44 R211). -/
theorem EventUpdate.attached (hu : EventUpdate p t ts m u) : ts.cfg.kind ≠ .none := by
  cases hu with
  | ta _ he | tb he | refill he | drain he | underrun he => rw [(of_decide_eq_true he).1]; exact nofun

/-- The configuration of an attached track stays (44 R210). -/
theorem DriverStep.cfg_eq (h : DriverStep p t ts m u) (hk : ts.cfg.kind ≠ .none) : u.cfg = ts.cfg := by
  cases h with
  | kept => rfl
  | attachedTimer hnone | attachedRing hnone => exact absurd hnone hk
  | event _ hu => exact hu.cfg_eq

theorem State.eventTa_of_enabled_eq (he : (s.track t).taEnabled = true) (now : Nat) :
    s.eventTa t now = .next (s.setTrack t (((s.track t).ta s.params now).withReply (s.track t).nextBit.1
      (s.track t).replyByte (s.track t).replyPacket)) := by
  rw [State.eventTa_eq, State.agentStep, if_pos he, startTa_nextBit]

theorem State.eventTb_of_enabled (he : (s.track t).tbEnabled = true) :
    s.eventTb t = s.setTrack t ((s.track t).tb s.params) := if_pos he

theorem TrackState.taEnabled_of_phase (hk : ts.cfg.kind = .timer) (h : ts.tPhase = .armed ∨ ts.tPhase = .low) :
    ts.taEnabled = true := decide_eq_true ⟨hk, h⟩

/-- Settles O40: TA in one form, and its half-period written out. -/
theorem timerAResult : Obligations.TimerAResult := by
  intro s t now hk hphase
  have hrun : applyMove (.ta t now) s = s.eventTa t now := rfl
  obtain ⟨-, hbyte, hpacket⟩ := (kept_nextBit (s.track t)).replies
  rw [hrun, State.eventTa_of_enabled_eq (taEnabled_of_phase hk hphase), ta_eq, ← hbyte, ← hpacket]
  rfl

/-- Settles O41: TB writes these three fields. -/
theorem timerBResult : Obligations.TimerBResult := fun _ _ hk hphase =>
  congrArg _ (State.eventTb_of_enabled (decide_eq_true ⟨hk, hphase⟩))

/-- Settles O46: UNDERRUN writes these three fields. -/
theorem underrunResult : Obligations.UnderrunResult := fun _ _ hk hrunning hempty hfrozen =>
  congrArg _ (if_pos (decide_eq_true ⟨hk, hrunning, hempty, hfrozen⟩))

/-- Which timer event is enabled depends on the driver's kind and phase alone. -/
theorem TrackState.enabled_congr (hcfg : u.cfg = ts.cfg) (hphase : u.tPhase = ts.tPhase) :
    u.taEnabled = ts.taEnabled ∧ u.tbEnabled = ts.tbEnabled := by
  simp [taEnabled, tbEnabled, hcfg, hphase]

theorem TrackState.enabled_ta (he : ts.taEnabled = true) (now : Nat) (b : Bool) (v : Byte) (k : Latch) :
    ((ts.ta p now).withReply b v k).taEnabled = false ∧ ((ts.ta p now).withReply b v k).tbEnabled = true := by
  have hk : ts.nextBit.2.cfg.kind = .timer := by rw [← nextBit_driver]; exact (of_decide_eq_true he).1
  rw [ta_eq]
  simp [taEnabled, tbEnabled, withReply, hk]

theorem TrackState.enabled_tb (he : ts.tbEnabled = true) : (ts.tb p).taEnabled = true ∧ (ts.tb p).tbEnabled = false := by
  have hk : ts.cfg.kind = .timer := (of_decide_eq_true he).1
  simp [taEnabled, tbEnabled, tb, hk]

/-- The ring driver's events leave the timer driver's phase. -/
theorem EventUpdate.tPhase_eq (hu : EventUpdate p t ts m u) (hta : ∀ now, m ≠ .ta t now) (htb : m ≠ .tb t) :
    u.tPhase = ts.tPhase := by
  cases hu with
  | ta now => exact absurd rfl (hta now)
  | tb => exact absurd rfl htb
  | refill => rw [refill_eq, ← pullUnit_driver]; rfl
  | drain => rw [drain_eq]
  | underrun => rfl

theorem DriverStep.enabled_eq (h : DriverStep p t ts m u) (hta : ∀ now, m ≠ .ta t now) (htb : m ≠ .tb t)
    (hk : ts.cfg.kind ≠ .none) : u.taEnabled = ts.taEnabled ∧ u.tbEnabled = ts.tbEnabled := by
  refine enabled_congr (h.cfg_eq hk) ?_
  cases h with
  | kept => rfl
  | attachedTimer hnone | attachedRing hnone => exact absurd hnone hk
  | event _ hu => exact hu.tPhase_eq hta htb

/-- A timer driver on a track that had none has just been attached (43 R171, 60 R237). -/
theorem DriverStep.timer_attached (h : DriverStep p t ts m u) (hnone : ts.cfg.kind = .none) (hk : u.cfg.kind = .timer) :
    u.taEnabled = true ∧ u.tbEnabled = false ∧ u.tA = .dueAtOnce ∧ u.tB = .armed := by
  cases h with
  | kept => exact absurd (hnone.symm.trans hk) nofun
  | attachedTimer => exact ⟨rfl, rfl, rfl, rfl⟩
  | attachedRing => exact absurd hk nofun
  | event _ hu => exact absurd hnone hu.attached

/-- Settles O42: the two events set the phase, and what else a move does to a driver leaves it, but for ATTACH. -/
theorem timerEventsAlternate : Obligations.TimerEventsAlternate := by
  intro s s' t m h
  refine ⟨fun now hm he => ?_, fun hm he => ?_, fun hta htb hreset hk => ?_, fun hta htb hnone hk => ?_⟩
  · subst hm
    obtain rfl : _ = s' := Host.Outcome.next.inj ((State.eventTa_of_enabled_eq he now).symm.trans h)
    rw [State.track_setTrack]
    exact enabled_ta he now _ _ _
  · subst hm
    obtain rfl : _ = s' := (State.eventTb_of_enabled he).symm.trans (Host.Outcome.next.inj h)
    rw [State.track_setTrack]
    exact enabled_tb he
  · exact (driverStep_of_applyMove h hreset t).enabled_eq hta htb hk
  · have hreset : m ≠ .reset := by
      rintro rfl
      exact absurd ((reset_track_kind h t).symm.trans hk) nofun
    exact (driverStep_of_applyMove h hreset t).timer_attached hnone hk

/-- Any move keeps the invariant, as a step does. -/
theorem State.Inv.applyMove (hI : s.Inv) (h : applyMove m s = .next s') : s'.Inv where
  params := (moveEffect_of_applyMove h).params_eq ▸ hI.params
  tracks t := (moveEffect_of_applyMove h).params_eq ▸ ((moveEffect_of_applyMove h).trackStep t).inv hI.params (hI.tracks t)

theorem State.DriverInv.applyMove (hD : s.DriverInv) (hI : s.Inv) (h : applyMove m s = .next s') : s'.DriverInv := fun t =>
  (moveEffect_of_applyMove h).params_eq ▸ ((moveEffect_of_applyMove h).trackStep t).driverInv (hI.tracks t) (hD t)

/-- A ring driver that is asked to fill can (43 R183). -/
theorem TrackState.DriverInv.refillEnabled (hD : ts.DriverInv p) (hk : ts.cfg.kind = .ring) (hr : ts.refilling = true) :
    ts.refillEnabled p = true := decide_eq_true ⟨hk, hr, hD.refillRoom hk hr⟩

theorem State.eventDrain_of_enabled (he : (s.track t).drainEnabled = true) :
    s.eventDrain t = s.setTrack t ((s.track t).drain s.params) := if_pos he

theorem TrackState.drain_asks (h : (ts.drain p).rCount ≤ ts.cfg.thresh.toNat) : (ts.drain p).refilling = true := by
  rw [drain_eq] at h ⊢
  exact if_pos h

/-- Of the driver's events only a DRAIN that leaves at most `thresh` descriptors asks for a refill (43 R183, R185). -/
theorem EventUpdate.asks (hu : EventUpdate p t ts m u) (hold : ts.refilling = false) (hnew : u.refilling = true) :
    m = .drain t ∧ ts.drainEnabled = true ∧ u.rCount ≤ ts.cfg.thresh.toNat := by
  have silent (h : u.refilling = ts.refilling) : False := by simp [h, hold] at hnew
  cases hu with
  | ta now => exact (silent (by rw [ta_eq, ← nextBit_driver]; rfl)).elim
  | tb | underrun => exact (silent rfl).elim
  | refill he => exact absurd ((of_decide_eq_true he).2.1.symm.trans hold) nofun
  | drain he =>
    refine ⟨rfl, he, ?_⟩
    rw [drain_eq] at hnew ⊢
    by_contra hgt
    exact absurd (hold.symm.trans ((if_neg hgt).symm.trans hnew)) nofun

theorem DriverStep.asks (h : DriverStep p t ts m u) (hold : ts.refilling = false) (hnew : u.refilling = true) :
    m = .drain t ∧ ts.drainEnabled = true ∧ u.rCount ≤ ts.cfg.thresh.toNat ∨
      ts.cfg.kind = .none ∧ u.cfg.kind = .ring := by
  cases h with
  | kept | attachedTimer => exact absurd (hold.symm.trans hnew) nofun
  | attachedRing hnone => exact .inr ⟨hnone, rfl⟩
  | event _ hu => exact .inl (hu.asks hold hnew)

/-- A ring driver on a track that had none has just been attached, and is asked to fill (44 R210). -/
theorem DriverStep.ring_attached (h : DriverStep p t ts m u) (hnone : ts.cfg.kind = .none) (hk : u.cfg.kind = .ring) :
    u.refilling = true := by
  cases h with
  | kept => exact absurd (hnone.symm.trans hk) nofun
  | attachedTimer => exact absurd hk nofun
  | attachedRing => rfl
  | event _ hu => exact absurd hnone hu.attached

/-- Settles O47: the room and the end of a burst are the driver invariant's, before and after the move; what asks is told by
what a move does to the driver. -/
theorem refillThreshold : Obligations.RefillThreshold := by
  intro s s' t m hI hD h ts u
  have hD' : u.DriverInv s'.params := hD.applyMove hI h t
  have hstep : m ≠ .reset → DriverStep s.params t ts m u := fun hm => driverStep_of_applyMove h hm t
  have attached_of_ring (hk : u.cfg.kind = .ring) : m ≠ .reset := by
    rintro rfl
    exact absurd ((reset_track_kind h t).symm.trans hk) nofun
  have asks_of_ring (hr : u.refilling = true) : u.cfg.kind = .ring := by
    by_contra hk
    exact absurd (hr.symm.trans (hD'.ringKind hk).2.1) nofun
  refine ⟨(hD t).refillEnabled, hD'.refillEnabled, fun hm he hle => ?_, fun hnone hk => ?_, fun hold hnew => ?_,
    fun hold hnew hm => ?_⟩
  · subst hm
    obtain rfl : _ = s' := (State.eventDrain_of_enabled he).symm.trans (Host.Outcome.next.inj h)
    simp only [u, State.track_setTrack] at hle ⊢
    exact drain_asks hle
  · exact (hstep (attached_of_ring hk)).ring_attached hnone hk
  · exact (hstep (attached_of_ring (asks_of_ring hnew))).asks hold hnew
  · have hk : ts.cfg.kind = .ring := by
      by_contra hk
      exact absurd (hold.symm.trans ((hD t).ringKind hk).2.1) nofun
    have hcfg : u.cfg = ts.cfg := (hstep hm).cfg_eq (by rw [hk]; exact nofun)
    by_contra hle
    rw [← hcfg, Nat.not_lt] at hle
    exact absurd (hnew.symm.trans (hD'.refillAsked (hcfg ▸ hk) hle)) nofun

end Sys2Proof.Machine
end

section
/-!
One REFILL and one DRAIN of a ring driver (43 R182, R185): the entries that a refill writes, and the descriptor that leaves the
queue.
-/
namespace Sys2Proof.Machine

open TrackState

variable {p : Params} {t : Track} {ts u v : TrackState} {s s' : State}

theorem TrackState.ringQueue_length (cap : Nat) (ts : TrackState) : (ts.ringQueue cap).length = ts.rCount := by
  simp [ringQueue]

/-- DRAIN takes the front of the queue (43 R185). -/
theorem TrackState.Inv.ringQueue_drain (hI : ts.Inv p t) (hpos : 0 < ts.rCount) :
    ts.ringQueue p.ringCap = ts.ringFront :: (ts.drain p).ringQueue p.ringCap :=
  ringQueue_pop hI.ringHead hpos (by rw [drain_eq]) (by rw [drain_eq]) (by rw [drain_eq])

/-- Settles O45: a queue that is not empty enables DRAIN, and what it sends is the front of the queue. -/
theorem drainResult : Obligations.DrainResult := by
  intro s t d rest hI ts hk hrunning hqueue
  have hpos : 0 < ts.rCount := by rw [← ringQueue_length s.params.ringCap ts, hqueue]; exact Nat.succ_pos _
  have hpop := (hI.tracks t).ringQueue_drain hpos
  obtain ⟨hfront, hrest⟩ := List.cons.inj (hqueue.symm.trans hpop)
  have hrun := State.eventDrain_of_enabled (decide_eq_true ⟨hk, hrunning, hpos⟩)
  refine ⟨_, congrArg Host.Outcome.next hrun, ?_, ?_⟩
  · rw [State.track_setTrack]; exact hrest.symm
  · rw [drain_eq, hfront]; rfl

/-- The bits a REFILL pulls are the unit of its pull (43 R180, R182). -/
theorem State.bitsPulled_refill (hI : s.Inv) (he : (s.track t).refillEnabled s.params = true) :
    s.bitsPulled t (.refill t) = (s.track t).pullUnit.1 := by
  simp only [State.bitsPulled, he, and_self, if_true]
  unfold TrackState.pullUnit
  cases (s.track t).cfg.gran with
  | bit | byte => rfl
  | packet => exact Latch.bits_eq_map_pbit ((hI.tracks t).nextPacket hI.params).2.2

/-- A REFILL has joined the descriptors of `bits` to the ring of track `t`, which its pull left as `v`: behind those held, in
order, and with less than a unit of room it has ended the burst (43 R182). -/
def State.Refilled (s : State) (t : Track) (unit : Nat) (bits : List Bool) (v : TrackState) (s' : State) : Prop :=
  let ts := s.track t
  let cap := s.params.ringCap
  let u := s'.track t
  u.ringQueue cap = ts.ringQueue cap ++ bits.map s.params.desc ∧
  (∀ i, i < bits.length → u.ring[(ts.rHead + ts.rCount + i) % cap]? = (bits[i]?).map s.params.desc) ∧
  (∀ k, (∀ i, i < bits.length → k ≠ (ts.rHead + ts.rCount + i) % cap) → u.ring[k]? = ts.ring[k]?) ∧
  u.rCount = ts.rCount + bits.length ∧
  (if cap - u.rCount < unit then u.refilling = false ∧ u.running = true
    else u.refilling = true ∧ u.running = ts.running) ∧
  s' = s.setTrack t { v with ring := u.ring, rCount := u.rCount, refilling := u.refilling, running := u.running }

/-- The slots a refill writes are those of the pushes, since its pull leaves the ring (43 R181, R182). -/
theorem TrackState.Inv.refill_slots (hp : p.Legal) (hI : ts.Inv p t) (he : ts.refillEnabled p = true) :
    (∀ i, i < ts.pullUnit.1.length →
      (ts.refill p).ring[(ts.rHead + ts.rCount + i) % p.ringCap]? = (ts.pullUnit.1[i]?).map p.desc) ∧
    ∀ k, (∀ i, i < ts.pullUnit.1.length → k ≠ (ts.rHead + ts.rCount + i) % p.ringCap) →
      (ts.refill p).ring[k]? = ts.ring[k]? := by
  obtain ⟨hpulled, hunit⟩ := hI.pullUnit hp
  have hroom : ts.cfg.gran.unit ≤ p.ringCap - ts.rCount := (of_decide_eq_true he).2.2
  have hcap := hI.ringCount
  have hcount : ts.pullUnit.2.rCount = ts.rCount := by rw [← pullUnit_driver]; rfl
  have hhead : ts.pullUnit.2.rHead = ts.rHead := by rw [← pullUnit_driver]; rfl
  have hring : ts.pullUnit.2.ring = ts.ring := by rw [← pullUnit_driver]; rfl
  have hslots := pushBits_slots (p := p) ts.pullUnit.1 hpulled.ringSize (by omega)
  rw [hcount, hhead, hring] at hslots
  rw [refill_eq]
  exact hslots

/-- REFILL with whatever its pull left: the pull of a unit and its reply (43 R182). -/
theorem State.refilled_of_pull (hI : s.Inv) (he : (s.track t).refillEnabled s.params = true)
    (hpull : takePull t s = .next (s.setTrack t v)) :
    ∃ s', s.eventRefill t = .next s' ∧
      s.Refilled t (s.track t).cfg.gran.unit (s.track t).pullUnit.1 v s' := by
  obtain ⟨b, y, k, hpull', hreply⟩ := takePull_ring (of_decide_eq_true he).1
  obtain rfl : v = (s.track t).pullUnit.2.withReply b y k := by
    simpa using congrArg (State.track · t) (Host.Outcome.next.inj (hpull.symm.trans hpull'))
  have hrun : s.eventRefill t = .next (s.setTrack t (((s.track t).refill s.params).withReply b y k)) := by
    rw [State.eventRefill, if_pos he, hpull, thenTrack_next, State.track_setTrack, State.setTrack_setTrack,
      finishRefill_withReply _ _ _ _ _ hreply]
  obtain ⟨hqueue, -⟩ := refill_spec (hI.tracks t) hI.params he
  obtain ⟨hslots, hothers⟩ := (hI.tracks t).refill_slots hI.params he
  refine ⟨_, hrun, ?_⟩
  unfold State.Refilled
  simp only [State.track_setTrack]
  refine ⟨hqueue, hslots, hothers, ?_, ?_, ?_⟩
  · rw [refill_eq]; rfl
  · have hasked : (s.track t).refilling = true := (of_decide_eq_true he).2.1
    rw [refill_eq]
    simp only [withReply, hasked]
    split_ifs with hend
    · exact ⟨rfl, rfl⟩
    · exact ⟨rfl, rfl⟩
  · rw [refill_eq]; rfl

/-- Settles O44: whatever the granularity, REFILL does with the bits of its pull what `refilled_of_pull` says. -/
theorem refillResult : Obligations.RefillResult := by
  intro s t hI
  dsimp only
  cases hg : (s.track t).cfg.gran
  all_goals
    intro hk hr hroom
    have he : (s.track t).refillEnabled s.params = true := decide_eq_true ⟨hk, hr, by rw [hg]; exact hroom⟩
    have hpull := takePull_of_ring hk
    have hbits := State.bitsPulled_refill hI he
    rw [hg] at hpull
    simp only [State.bitsPulled, he, and_self, if_true, hg] at hbits
    have result := State.refilled_of_pull hI he hpull
    rw [hg, ← hbits] at result
  case bit | packet => exact result
  case byte => rw [byteBits_nextByte] at result; exact result

end Sys2Proof.Machine
end

section
/-!
Runs of moves (20_memory R66): what the moves of a run carry along with the bits they pull, the run carries along with the bits
it pulls; and the bits that a track's own events pull are read on from its stream, the rotator as bit pulls leave it.
-/
namespace Sys2Proof.Machine

open TrackState

variable {p : Params} {t : Track} {ts u v w : TrackState} {s s' : State} {m : Move} {ms : List Move}
  {bits bits' : List Bool}

theorem runMoves_cons (h : applyMove m s = .next s') (ms : List Move) : runMoves (m :: ms) s = runMoves ms s' := by
  rw [runMoves, h]

theorem runBits_cons (h : applyMove m s = .next s') (t : Track) (ms : List Move) :
    runBits t (m :: ms) s = s.bitsPulled t m ++ runBits t ms s' := by
  rw [runBits, h]

/-- No run stops (60 R232). -/
theorem runMoves_next (ms : List Move) : ∀ s : State, ∃ s', runMoves ms s = .next s' := by
  induction ms with
  | nil => exact fun s => ⟨s, rfl⟩
  | cons m ms ih =>
    intro s
    obtain ⟨s₁, h, -⟩ := applyMove_effect m s
    rw [runMoves_cons h]
    exact ih s₁

/-- A relation of the state to the bits pulled so far that every move of a run carries along holds after the run. -/
theorem runMoves_carries {Q : Move → Prop} {R : List Bool → State → Prop}
    (move : ∀ {m s s' bits}, Q m → R bits s → applyMove m s = .next s' → R (bits ++ s.bitsPulled t m) s')
    (hms : ∀ m ∈ ms, Q m) (hR : R bits s) (hrun : runMoves ms s = .next s') : R (bits ++ runBits t ms s) s' := by
  induction ms generalizing s bits with
  | nil => cases hrun; rw [runBits, List.append_nil]; exact hR
  | cons m ms ih =>
    obtain ⟨s₁, h, -⟩ := applyMove_effect m s
    obtain ⟨hm, hms⟩ := List.forall_mem_cons.1 hms
    rw [runMoves_cons h] at hrun
    rw [runBits_cons h, ← List.append_assoc]
    exact ih hms (move hm hR h) hrun

/-- How a move reads the stream of track `t`: by an enabled TA, by an enabled REFILL, or not at all (30_encoding R96). -/
inductive PullMove (s : State) (t : Track) (s' : State) : Move → Prop
  | ta (now : Nat) (he : (s.track t).taEnabled = true) (b : Bool) (v : Byte) (k : Latch)
      (hu : s'.track t = ((s.track t).ta s.params now).withReply b v k)
      (hbits : s.bitsPulled t (.ta t now) = [(s.track t).nextBit.1]) : PullMove s t s' (.ta t now)
  | refill (he : (s.track t).refillEnabled s.params = true) (b : Bool) (v : Byte) (k : Latch)
      (hu : s'.track t = ((s.track t).refill s.params).withReply b v k) : PullMove s t s' (.refill t)
  | none (m : Move) (hno : Move.NoPull s.params t (s.track t) m) (hbits : s.bitsPulled t m = []) : PullMove s t s' m

theorem pullMove_of_applyMove (h : applyMove m s = .next s') (t : Track) : PullMove s t s' m := by
  cases m with
  | ta t' now =>
    by_cases he : t' = t ∧ (s.track t).taEnabled = true
    · obtain ⟨rfl, hen⟩ := he
      have hs' := Host.Outcome.next.inj ((State.eventTa_of_enabled_eq hen now).symm.trans h)
      exact .ta now hen _ _ _ (by rw [← hs', State.track_setTrack]) (if_pos ⟨rfl, hen⟩)
    · refine .none _ ⟨fun now' hm => ?_, nofun⟩ (if_neg he)
      obtain ⟨rfl, -⟩ := Move.ta.inj hm
      simpa using he
  | refill t' =>
    by_cases he : t' = t ∧ (s.track t).refillEnabled s.params = true
    · obtain ⟨rfl, hen⟩ := he
      obtain ⟨b, v, k, hrun⟩ := s.eventRefill_eq t'
      rw [State.agentStep, if_pos hen] at hrun
      have hs' := Host.Outcome.next.inj (hrun.symm.trans h)
      exact .refill hen b v k (by rw [← hs', State.track_setTrack])
    · refine .none _ ⟨nofun, fun hm => ?_⟩ (if_neg he)
      obtain rfl := Move.refill.inj hm
      simpa using he
  | word | waitEnd | tb | drain | underrun | reset => exact .none _ ⟨nofun, nofun⟩ rfl

/-- `bits` are the next bits of the stream of `ts`, and `u` has the rotator that bit pulls of them leave (42 R150, R153). -/
def TrackState.ReadsTo (ts : TrackState) (bits : List Bool) (u : TrackState) : Prop :=
  bits = (ts.nextBits bits.length).1 ∧ u.SameRotator (ts.nextBits bits.length).2

/-- A track has the rotator of another one when grafting that one's on it changes nothing. -/
theorem TrackState.sameRotator_iff : u.SameRotator v ↔ v.graft u = u := by
  constructor
  · rintro ⟨hregs, hmark, hcur, hnext, hidx, hlatch, hpos, hseq, hactive, hlen, hcursor, hretire, hmix⟩
    simp only [graft, ← hregs, ← hmark, ← hcur, ← hnext, ← hidx, ← hlatch, ← hpos, ← hseq, ← hactive, ← hlen, ← hcursor,
      ← hretire, ← hmix]
  · intro h
    rw [← h]
    exact ⟨rfl, rfl, rfl, rfl, rfl, rfl, rfl, rfl, rfl, rfl, rfl, rfl, rfl⟩

theorem TrackState.ReadsTo.refl (ts : TrackState) : ts.ReadsTo [] ts := ⟨rfl, sameRotator_iff.2 rfl⟩

/-- Pulls read the rotator alone, so the stream is read on from a track with the same rotator. -/
theorem TrackState.ReadsTo.trans (h : ts.ReadsTo bits u) (h' : u.ReadsTo bits' w) : ts.ReadsTo (bits ++ bits') w := by
  obtain ⟨hbits, hu⟩ := h
  obtain ⟨hbits', hw⟩ := h'
  have hon := nextBits_graft bits'.length (ts.nextBits bits.length).2 u
  rw [sameRotator_iff.1 hu] at hon
  rw [hon] at hbits' hw
  unfold ReadsTo
  rw [List.length_append, nextBits_add]
  refine ⟨congrArg₂ _ hbits hbits', ?_⟩
  rw [sameRotator_iff] at hw ⊢
  exact hw

theorem TrackState.readsTo_ta (p : Params) (now : Nat) (b : Bool) (v : Byte) (k : Latch) :
    ts.ReadsTo [ts.nextBit.1] ((ts.ta p now).withReply b v k) := by
  refine ⟨rfl, sameRotator_iff.2 ?_⟩
  rw [ta_eq]; rfl

theorem TrackState.Inv.readsTo_refill (hp : p.Legal) (hI : ts.Inv p t)
    (hwhole : ts.cfg.gran = .packet → ts.bitPos = ts.latch.nbits) (b : Bool) (v : Byte) (k : Latch) :
    ts.ReadsTo ts.pullUnit.1 ((ts.refill p).withReply b v k) := by
  obtain ⟨hunit, -⟩ := pullUnit_eq_nextBits hp hI hwhole
  unfold ReadsTo
  rw [← hunit]
  refine ⟨rfl, sameRotator_iff.2 ?_⟩
  rw [refill_eq]; rfl

/-- An event of the driver that pulls nothing leaves the rotator (43 R173, R185, R186). -/
theorem EventUpdate.readsTo (hu : EventUpdate p t ts m u) (hno : Move.NoPull p t ts m) : ts.ReadsTo [] u := by
  obtain ⟨hta, hrefill⟩ := hno
  cases hu with
  | ta now he => exact absurd ((hta now rfl).symm.trans he) nofun
  | refill he => exact absurd ((hrefill rfl).symm.trans he) nofun
  | tb | underrun => exact .refl ts
  | drain => rw [drain_eq]; exact .refl ts

/-- A move of track `t`'s driver is one of its events or nothing (20_memory R65). -/
theorem readsTo_of_noPull (hm : m.driverTrack = some t) (h : applyMove m s = .next s')
    (hno : Move.NoPull s.params t (s.track t) m) : (s.track t).ReadsTo [] (s'.track t) := by
  have effect := moveEffect_of_applyMove h
  cases effect with
  | kept => exact .refl _
  | event m t' u hu =>
    obtain rfl : t = t' := Option.some.inj (hm.symm.trans hu.driverTrack_eq)
    rw [State.track_setTrack]
    exact hu.readsTo hno
  | collected | command | waitEnded | reset => cases hm

end Sys2Proof.Machine
end

section
/-!
The waveform of the timer driver (43 R175): the wire and the low half still owed grow by the waveform of each bit pulled, and
by nothing else.
-/
namespace Sys2Proof.Machine

open TrackState

variable {p : Params} {t : Track} {ts u : TrackState} {s s' : State} {m : Move} {bits : List Bool}

/-- The wire of a timer driver, with what it still owes of the bit it has begun (43 R173). -/
def TrackState.timerWave (p : Params) (ts : TrackState) : List Segment := ts.wave ++ ts.owed p

theorem TrackState.owed_of_taEnabled (he : ts.taEnabled = true) (p : Params) : ts.owed p = [] := by
  obtain ⟨-, hphase⟩ := of_decide_eq_true he
  refine if_neg fun hhigh => ?_
  simp [hhigh] at hphase

/-- TA puts the high half on the wire and owes the low half (43 R172). -/
theorem TrackState.timerWave_ta (he : ts.taEnabled = true) (now : Nat) (b : Bool) (v : Byte) (k : Latch) :
    ((ts.ta p now).withReply b v k).timerWave p = ts.timerWave p ++ bitWave p ts.nextBit.1 := by
  unfold timerWave
  rw [owed_of_taEnabled he, ta_eq, List.append_nil]
  exact List.append_assoc _ _ _

/-- TB puts on the wire what was owed (43 R173). -/
theorem TrackState.timerWave_tb (he : ts.tbEnabled = true) : (ts.tb p).timerWave p = ts.timerWave p := by
  have howed : ts.owed p = [{ level := false, dur := .ticks (p.halfPeriod ts.tBit) }] :=
    if_pos (of_decide_eq_true he).2
  unfold timerWave
  rw [howed]
  exact List.append_nil _

/-- Of the moves that pull nothing only TB touches a timer driver's wire. -/
theorem DriverStep.timerWave_eq (h : DriverStep p t ts m u) (hk : ts.cfg.kind = .timer) (hno : Move.NoPull p t ts m) :
    u.timerWave p = ts.timerWave p := by
  have other {k : DriverKind} (hk' : ts.cfg.kind = k) (hne : k ≠ .timer) : False := hne (hk'.symm.trans hk)
  cases h with
  | kept => rfl
  | attachedTimer hnone | attachedRing hnone => exact (other hnone nofun).elim
  | event _ hu =>
    cases hu with
    | ta now he => exact absurd ((hno.1 now rfl).symm.trans he) nofun
    | tb he => exact timerWave_tb he
    | refill he | drain he | underrun he => exact (other (of_decide_eq_true he).1 nofun).elim

/-- What a run carries along of a timer-driven track: the driver, and a wire to which the pulled bits have been added. -/
structure State.TimerSent (s : State) (t : Track) (bits : List Bool) (s' : State) : Prop where
  params : s'.params = s.params
  kind : (s'.track t).cfg.kind = .timer
  wave : (s'.track t).timerWave s.params = (s.track t).timerWave s.params ++ bits.flatMap (bitWave s.params)

theorem State.TimerSent.applyMove {s₀ : State} (hs : s₀.TimerSent t bits s) (hm : m ≠ .reset)
    (h : applyMove m s = .next s') : s₀.TimerSent t (bits ++ s.bitsPulled t m) s' := by
  obtain ⟨hparams, hk, hwave⟩ := hs
  have hstep := driverStep_of_applyMove h hm t
  refine ⟨(moveEffect_of_applyMove h).params_eq.trans hparams,
    (congrArg DriverConfig.kind (hstep.cfg_eq (by rw [hk]; exact nofun))).trans hk, ?_⟩
  have added : (s'.track t).timerWave s.params =
      (s.track t).timerWave s.params ++ (s.bitsPulled t m).flatMap (bitWave s.params) := by
    cases pullMove_of_applyMove h t with
    | ta now he b v k hu hbits => rw [hu, hbits, timerWave_ta he, List.flatMap_singleton]
    | refill he => exact absurd (hk.symm.trans (of_decide_eq_true he).1) nofun
    | none _ hno hbits => rw [hbits, hstep.timerWave_eq hk hno, List.flatMap_nil, List.append_nil]
  rw [List.flatMap_append, ← List.append_assoc, ← hwave, ← hparams]
  exact added

/-- TA and TB of track `t` in turn, a TA at each of the ticks given. -/
def timerTurns (t : Track) (nows : List Nat) : List Move := nows.flatMap fun now => [.ta t now, .tb t]

theorem timerTurns_cons (t : Track) (now : Nat) (nows : List Nat) :
    timerTurns t (now :: nows) = .ta t now :: .tb t :: timerTurns t nows := rfl

/-- In turn from a phase with TA enabled: one bit each time, and TA is enabled again (43 R174, R175). -/
theorem runBits_timerTurns (nows : List Nat) : ∀ {s : State}, (s.track t).taEnabled = true →
    runMoves (timerTurns t nows) s = .next s' →
    (runBits t (timerTurns t nows) s).length = nows.length ∧ (s'.track t).taEnabled = true := by
  induction nows with
  | nil => intro s he hrun; cases hrun; exact ⟨rfl, he⟩
  | cons now nows ih =>
    intro s he hrun
    obtain ⟨s₁, h₁, -⟩ := applyMove_effect (.ta t now) s
    obtain ⟨s₂, h₂, -⟩ := applyMove_effect (.tb t) s₁
    obtain ⟨-, hhigh⟩ := (timerEventsAlternate s s₁ t _ h₁).1 now rfl he
    obtain ⟨hlow, -⟩ := (timerEventsAlternate s₁ s₂ t _ h₂).2.1 rfl hhigh
    rw [timerTurns_cons, runMoves_cons h₁, runMoves_cons h₂] at hrun
    obtain ⟨hlength, hend⟩ := ih hlow hrun
    have hta : s.bitsPulled t (.ta t now) = [(s.track t).nextBit.1] := if_pos ⟨rfl, he⟩
    have htb : s₁.bitsPulled t (.tb t) = [] := rfl
    rw [timerTurns_cons, runBits_cons h₁, runBits_cons h₂, hta, htb]
    exact ⟨congrArg (· + 1) hlength, hend⟩

/-- Settles O43: by the moves of the run, for the wire from `TimerSent`, for the stream from `ReadsTo`. -/
theorem timerWaveform : Obligations.TimerWaveform := by
  intro s t ms hk hreset
  obtain ⟨s', hrun⟩ := runMoves_next ms s
  refine ⟨s', hrun, ?_, fun hown => ?_, fun nows hms hphase => ?_⟩
  · have hstart : s.TimerSent t [] s := ⟨rfl, hk, (List.append_nil _).symm⟩
    exact (runMoves_carries (Q := (· ≠ .reset)) (fun hm hs h => hs.applyMove hm h)
      (fun m hm hr => hreset (hr ▸ hm)) hstart hrun).wave
  · refine runMoves_carries (Q := fun m => m = .tb t ∨ ∃ now, m = .ta t now)
      (R := fun bits s' => (s.track t).ReadsTo bits (s'.track t)) (fun {m s₁ s₂ bits} hm hR h => hR.trans ?_)
      hown (.refl _) hrun
    have hdriver : m.driverTrack = some t := by rcases hm with rfl | ⟨now, rfl⟩ <;> rfl
    cases pullMove_of_applyMove h t with
    | ta now he b v k hu hbits => rw [hu, hbits]; exact readsTo_ta _ now b v k
    | refill => simp at hm
    | none _ hno hbits => rw [hbits]; exact readsTo_of_noPull hdriver h hno
  · subst hms
    have he := taEnabled_of_phase hk hphase
    obtain ⟨hlength, hend⟩ := runBits_timerTurns nows he hrun
    exact ⟨hlength, owed_of_taEnabled he _, owed_of_taEnabled hend _⟩

end Sys2Proof.Machine
end

section
/-!
The waveform of the ring driver (43 R188): the wire and what the ring holds grow by the waveform of each bit pulled, and by
nothing else until the ring underruns.
-/
namespace Sys2Proof.Machine

open TrackState

variable {p : Params} {t : Track} {ts u : TrackState} {s s' : State} {m : Move} {bits : List Bool}

/-- The wire of a ring driver, with what the ring still holds for it (43 R185). -/
def TrackState.ringWave (p : Params) (ts : TrackState) : List Segment :=
  ts.wave ++ (ts.ringQueue p.ringCap).flatMap descWave

theorem TrackState.ringWave_congr (hring : u.ring = ts.ring) (hhead : u.rHead = ts.rHead) (hcount : u.rCount = ts.rCount)
    (hwave : u.wave = ts.wave) : u.ringWave p = ts.ringWave p := by
  unfold ringWave
  rw [hwave, ringQueue_congr hring hhead hcount]

/-- REFILL puts the waveform of its bits in the ring (43 R182). -/
theorem TrackState.Inv.ringWave_refill (hp : p.Legal) (hI : ts.Inv p t) (he : ts.refillEnabled p = true) (b : Bool)
    (v : Byte) (k : Latch) :
    ((ts.refill p).withReply b v k).ringWave p = ts.ringWave p ++ ts.pullUnit.1.flatMap (bitWave p) := by
  obtain ⟨hqueue, hwave, -⟩ := refill_spec hI hp he
  have hbits : (ts.pullUnit.1.map p.desc).flatMap descWave = ts.pullUnit.1.flatMap (bitWave p) := by
    rw [List.flatMap_map]; simp only [descWave_desc hp]
  have hreply : ((ts.refill p).withReply b v k).ringWave p = (ts.refill p).ringWave p := rfl
  rw [hreply, ringWave, hqueue, hwave, List.flatMap_append, hbits, ← List.append_assoc]
  rfl

/-- DRAIN moves the waveform of a descriptor from the ring to the wire (43 R185). -/
theorem TrackState.Inv.ringWave_drain (hI : ts.Inv p t) (he : ts.drainEnabled = true) :
    (ts.drain p).ringWave p = ts.ringWave p := by
  have hwave : (ts.drain p).wave = ts.wave ++ descWave ts.ringFront := by rw [drain_eq]
  unfold ringWave
  rw [hI.ringQueue_drain (of_decide_eq_true he).2.2, hwave, List.flatMap_cons, List.append_assoc]

/-- Of the moves that pull nothing only DRAIN and UNDERRUN touch a ring driver's wire or queue. -/
theorem DriverStep.ringWave_eq (h : DriverStep p t ts m u) (hI : ts.Inv p t) (hk : ts.cfg.kind = .ring)
    (hno : Move.NoPull p t ts m) (hm : m ≠ .underrun t) : u.ringWave p = ts.ringWave p := by
  have other {k : DriverKind} (hk' : ts.cfg.kind = k) (hne : k ≠ .ring) : False := hne (hk'.symm.trans hk)
  cases h with
  | kept => exact ringWave_congr rfl rfl rfl rfl
  | attachedTimer hnone | attachedRing hnone => exact (other hnone nofun).elim
  | event _ hu =>
    cases hu with
    | ta now he | tb he => exact (other (of_decide_eq_true he).1 nofun).elim
    | refill he => exact absurd ((hno.2 rfl).symm.trans he) nofun
    | drain he => exact hI.ringWave_drain he
    | underrun => exact absurd rfl hm

/-- What a run carries along of a ring-driven track: the invariant, the driver's configuration, and a wire and queue to which
the pulled bits have been added. -/
structure State.RingSent (s : State) (t : Track) (bits : List Bool) (s' : State) : Prop where
  inv : s'.Inv
  params : s'.params = s.params
  cfg : (s'.track t).cfg = (s.track t).cfg
  wave : (s'.track t).ringWave s.params = (s.track t).ringWave s.params ++ bits.flatMap (bitWave s.params)

theorem State.RingSent.applyMove {s₀ : State} (hk₀ : (s₀.track t).cfg.kind = .ring) (hs : s₀.RingSent t bits s)
    (hm : m ≠ .reset ∧ m ≠ .underrun t) (h : applyMove m s = .next s') :
    s₀.RingSent t (bits ++ s.bitsPulled t m) s' := by
  obtain ⟨hI, hparams, hcfg, hwave⟩ := hs
  obtain ⟨hreset, hunderrun⟩ := hm
  have hk : (s.track t).cfg.kind = .ring := hcfg ▸ hk₀
  have hstep := driverStep_of_applyMove h hreset t
  refine ⟨hI.applyMove h, (moveEffect_of_applyMove h).params_eq.trans hparams,
    (hstep.cfg_eq (by rw [hk]; exact nofun)).trans hcfg, ?_⟩
  have added : (s'.track t).ringWave s.params =
      (s.track t).ringWave s.params ++ (s.bitsPulled t m).flatMap (bitWave s.params) := by
    cases pullMove_of_applyMove h t with
    | ta now he => exact absurd (hk.symm.trans (of_decide_eq_true he).1) nofun
    | refill he b v k hu =>
      rw [hu, State.bitsPulled_refill hI he, (hI.tracks t).ringWave_refill hI.params he]
    | none _ hno hbits =>
      rw [hbits, hstep.ringWave_eq (hI.tracks t) hk hno hunderrun, List.flatMap_nil, List.append_nil]
  rw [List.flatMap_append, ← List.append_assoc, ← hwave, ← hparams]
  exact added

/-- Where the driver pulls packets, the packet is exhausted, so that its pulls are whole packets of the stream (43 R180). -/
def TrackState.PacketReady (ts : TrackState) : Prop := ts.cfg.gran = .packet → ts.bitPos = ts.latch.nbits

theorem TrackState.packetReady_refill (p : Params) (b : Bool) (v : Byte) (k : Latch) :
    ((ts.refill p).withReply b v k).PacketReady := by
  have hcfg : ts.pullUnit.2.cfg = ts.cfg := by rw [← pullUnit_driver]; rfl
  intro hg
  rw [refill_eq] at hg ⊢
  exact pullUnit_exhausted (hcfg ▸ hg)

theorem TrackState.PacketReady.of_readsTo_nil (hr : ts.PacketReady) (hcfg : u.cfg = ts.cfg) (h : ts.ReadsTo [] u) :
    u.PacketReady := by
  obtain ⟨-, -, -, -, -, -, hlatch, hpos, -⟩ := h
  intro hg
  rw [hpos, hlatch]
  exact hr (hcfg ▸ hg)

/-- What a run of the ring driver's own events carries along: the invariant, whole packets, and the stream read on. -/
structure State.RingRead (s : State) (t : Track) (bits : List Bool) (s' : State) : Prop where
  inv : s'.Inv
  kind : (s'.track t).cfg.kind = .ring
  ready : (s'.track t).PacketReady
  reads : (s.track t).ReadsTo bits (s'.track t)

theorem State.RingRead.applyMove {s₀ : State} (hs : s₀.RingRead t bits s) (hm : m = .refill t ∨ m = .drain t)
    (h : applyMove m s = .next s') : s₀.RingRead t (bits ++ s.bitsPulled t m) s' := by
  obtain ⟨hI, hk, hready, hreads⟩ := hs
  have hreset : m ≠ .reset := by rcases hm with rfl | rfl <;> exact nofun
  have hdriver : m.driverTrack = some t := by rcases hm with rfl | rfl <;> rfl
  have hcfg := (driverStep_of_applyMove h hreset t).cfg_eq (by rw [hk]; exact nofun)
  have hon : (s'.track t).PacketReady ∧ (s.track t).ReadsTo (s.bitsPulled t m) (s'.track t) := by
    cases pullMove_of_applyMove h t with
    | ta => simp at hm
    | refill he b v k hu =>
      rw [hu, State.bitsPulled_refill hI he]
      exact ⟨packetReady_refill _ b v k, (hI.tracks t).readsTo_refill hI.params hready b v k⟩
    | none _ hno hbits =>
      rw [hbits]
      have hkept := readsTo_of_noPull hdriver h hno
      exact ⟨hready.of_readsTo_nil hcfg hkept, hkept⟩
  exact ⟨hI.applyMove h, (congrArg DriverConfig.kind hcfg).trans hk, hon.1, hreads.trans hon.2⟩

/-- Settles O48: by the moves of the run, for the wire from `RingSent`, for the stream from `RingRead`. -/
theorem ringWaveform : Obligations.RingWaveform := by
  intro s t ms hI hk hreset hunderrun
  obtain ⟨s', hrun⟩ := runMoves_next ms s
  refine ⟨s', hrun, ?_, fun hown hready => ?_⟩
  · have hstart : s.RingSent t [] s := ⟨hI, rfl, rfl, (List.append_nil _).symm⟩
    exact (runMoves_carries (Q := fun m => m ≠ .reset ∧ m ≠ .underrun t) (fun hm hs h => hs.applyMove hk hm h)
      (fun m hm => ⟨fun hr => hreset (hr ▸ hm), fun hr => hunderrun (hr ▸ hm)⟩) hstart hrun).wave
  · have hstart : s.RingRead t [] s := ⟨hI, hk, hready, .refl _⟩
    exact (runMoves_carries (fun hm hs h => hs.applyMove hm h) hown hstart hrun).reads

end Sys2Proof.Machine
end

section
/-!
The outcomes of STAT (44 R214) and ATTACH (44 R210). STAT answers the STATUS word, which after reset is the same for both
tracks and all parameters; ATTACH, past its first two checks, ends as one equation per kind says.
-/
namespace Sys2Proof

/-- Every granularity but the reserved 3, by its field (30_encoding R89, R90). -/
theorem granOf_of_ne_three : ∀ {g : BitVec 2}, g ≠ 3 →
    granOf g = some (if g = 0 then .bit else if g = 1 then .byte else .packet) := by decide

/-- `unit(gran)` by the field of ATTACH (10_state R39, 43 R180). -/
theorem granUnit_of_field (g : BitVec 2) :
    (if g = 0 then Gran.bit else if g = 1 then Gran.byte else Gran.packet).unit =
      if g = 0 then 1 else if g = 1 then 8 else 80 := by
  split_ifs <;> rfl

theorem kindOf_of_reserved {k : BitVec 2} (h : k ≠ 1 ∧ k ≠ 2) : kindOf k = none :=
  (if_neg h.1).trans (if_neg h.2)

namespace Machine

variable {s : State} {t : Track}

/-- STATUS after reset: `curReg` and `maxLoaded` are 1, every other field is 0 (70 R260, 44 R214). -/
theorem statusWord_resetWith (p : Params) (t : Track) :
    ((State.resetWith p).track t).statusWord = 0x02040000#32 :=
  calc ((State.resetWith p).track t).statusWord
    _ = 1#7 ++ 1#7 ++ 0#2 ++ BitVec.ofBool false ++ BitVec.ofBool false ++ BitVec.ofBool false ++ 0#8 ++
          BitVec.ofBool false ++ 0#4 := by cases t <;> rfl
    _ = 0x02040000#32 := by decide

/-- Settles O16: the one check of STAT, and the STATUS word it answers. -/
theorem statResult : Obligations.StatResult := by
  refine fun s t rsv => ⟨?_, fun p => ?_⟩
  · show execStat t rsv s = _
    unfold execStat
    rw [State.status_eq]
    rfl
  · show Host.Outcome.next ((State.resetWith p).respond ((State.resetWith p).track t).statusWord) = _
    rw [statusWord_resetWith]
    rfl

section

variable (gran : BitVec 2) (thresh : BitVec 8) (pin unit : BitVec 16)

theorem State.attachDriver_of_reserved {kind : BitVec 2} (h : kind ≠ 1 ∧ kind ≠ 2) :
    s.attachDriver t kind gran thresh pin unit = s.endedWith t .eCfg 6 := by
  unfold attachDriver
  rw [kindOf_of_reserved h]
  exact s.status_eq t .eCfg

/-- A timer driver is subject to the platform alone; GRAN and THRESH are not looked at (44 R210). -/
theorem State.attachDriver_timer :
    s.attachDriver t 1 gran thresh pin unit =
      if s.platformAccepts t .timer pin unit = false then s.endedWith t .eCfg 6
      else (s.setTrack t ((s.track t).attachTimer pin unit)).endedWith t .ok 0 := by
  unfold attachDriver
  simp only [status_eq]
  cases s.platformAccepts t .timer pin unit <;> rfl

theorem State.attachDriver_ring_of_reserved :
    s.attachDriver t 2 3 thresh pin unit = s.endedWith t .eCfg 6 := s.status_eq t .eCfg

/-- A ring driver needs room for a unit above its threshold, then the platform's consent (44 R210, 43 R183). -/
theorem State.attachDriver_ring {g : Gran} (h : granOf gran = some g) :
    s.attachDriver t 2 gran thresh pin unit =
      if s.params.ringCap < thresh.toNat + g.unit then s.endedWith t .eCfg 6
      else if s.platformAccepts t .ring pin unit = false then s.endedWith t .eCfg 6
      else (s.setTrack t ((s.track t).attachRing g thresh pin unit)).endedWith t .ok 0 := by
  have hkind : kindOf 2 = some .ring := rfl
  unfold attachDriver
  simp only [hkind, h, status_eq]
  cases s.platformAccepts t .ring pin unit <;> rfl

end

/-- Settles O18: the checks before the kind is looked at, then the driver by its kind; a timer driver starts with timer A
due at once and timer B armed. -/
theorem attachResult : Obligations.AttachResult := by
  intro s t kind gran thresh rsv pin unit ok g room
  refine ⟨.dueAtOnce, .armed, ?_⟩
  show execAttach t kind gran thresh rsv pin unit s = _
  unfold execAttach
  rw [State.status_eq, State.status_eq]
  refine congrArg _ (ite_congr rfl (fun _ => rfl) fun _ => ite_congr rfl (fun _ => rfl) fun _ => ?_)
  by_cases hkind : kind ≠ 1 ∧ kind ≠ 2
  · rw [if_pos hkind, State.attachDriver_of_reserved _ _ _ _ hkind]
  rw [if_neg hkind]
  obtain rfl | rfl : kind = 1 ∨ kind = 2 := by tauto
  · exact State.attachDriver_timer gran thresh pin unit
  · by_cases hgran : gran = 3
    · rw [if_pos ⟨rfl, .inl hgran⟩, hgran, State.attachDriver_ring_of_reserved]
    · rw [State.attachDriver_ring gran thresh pin unit (granOf_of_ne_three hgran), granUnit_of_field]
      refine ite_congr ?_ (fun _ => rfl) fun _ => rfl
      exact propext ⟨fun hroom => ⟨rfl, .inr hroom⟩, fun h => h.2.resolve_left hgran⟩

end Machine

end Sys2Proof
end

section
/-!
Nothing stops the block (60 R232), and the order of causes (60 R231): a command tests its causes of failure one after the
other, as the table lists them, and is past them all when it succeeds. `State.Reports` says so of a list of causes and the
state left; `State.reports_cons` adds a test in front of the list.
-/
namespace Sys2Proof

/-- The reserved values of KIND are the ones that name no driver (30_encoding R89, R90). -/
theorem kind_reserved_iff : ∀ k : BitVec 2, k = 0 ∨ k = 3 ↔ k ≠ 1 ∧ k ≠ 2 := by decide

namespace Machine

variable {s s' : State} {i : Instr} {c : Status} {causes : List (Bool × Status)}

/-- Settles O10: every move has a next state, and no effect of a move writes the parameters. -/
theorem stepNeverStops : Obligations.StepNeverStops := fun s => by
  obtain ⟨s', hstep, -⟩ := applyMove_effect s.draw.1 s.draw.2
  exact ⟨s', hstep, params_eq_of_step hstep⟩

/-- `i` has left `s'` without failing: it ended OK, or it is a STAT, or a WAIT that holds the port, and wrote no status
(41 R126, 44 R214). -/
def State.Succeeds (s : State) (i : Instr) (s' : State) : Prop :=
  (s'.track i.track).lastStatus = .ok ∨
    (s'.track i.track).lastStatus = (s.track i.track).lastStatus ∧
      ((∃ t rsv, i = .stat t rsv) ∨
        ∃ t rsv thr, i = .wait t rsv thr ∧ s'.waitHold = some { track := t, thr := thr })

/-- `s'` is what a command with these causes of failure leaves: the end with the first that applies, or success. -/
def State.Reports (s : State) (i : Instr) (causes : List (Bool × Status)) (s' : State) : Prop :=
  match firstCause causes with
  | some c => s' = s.endedWith i.track c (c.code.setWidth 32)
  | none => s.Succeeds i s'

/-- The command runs to its end and reports the first of its causes, or succeeds (60 R231). -/
abbrev State.ReportsCause (s : State) (i : Instr) : Prop := ∃ s', exec i s = .next s' ∧ s.Reports i (s.causes i) s'

theorem State.succeeds_endedWith_ok (s s' : State) (i : Instr) (code : Word) :
    s.Succeeds i (s'.endedWith i.track .ok code) :=
  .inl (by rw [endedWith_track])

/-- A test whose cause is the next of the list ends the command with its status, and else leaves it to the later ones. -/
theorem State.reports_cons {b : Bool} {P : Prop} [Decidable P] {code : Word} (hb : b = true ↔ P)
    (hcode : c.code.setWidth 32 = code) (hrest : ¬P → s.Reports i causes s') :
    s.Reports i ((b, c) :: causes) (if P then s.endedWith i.track c code else s') := by
  by_cases hP : P
  · rw [if_pos hP, hb.2 hP, ← hcode]; rfl
  · rw [if_neg hP, Bool.eq_false_iff.2 (mt hb.1 hP)]; exact hrest hP

section

variable (t : Track) (s : State)

theorem reportsCause_load (idx nbits : BitVec 7) (rsv : BitVec 5) (rep : BitVec 8) (buf : Buf) :
    s.ReportsCause (.load t idx nbits rsv rep buf) := by
  refine ⟨_, rfl, ?_⟩
  simp only [badLength_iff, State.status_eq]
  exact State.reports_cons decide_eq_true_iff rfl fun _ =>
    State.reports_cons decide_eq_true_iff rfl fun _ =>
    State.reports_cons decide_eq_true_iff rfl fun _ => s.succeeds_endedWith_ok _ _ _

theorem reportsCause_seqw (idx nbits : BitVec 7) (rsv : BitVec 5) (rep : BitVec 8) (buf : Buf) :
    s.ReportsCause (.seqw t idx nbits rsv rep buf) := by
  refine ⟨_, rfl, ?_⟩
  simp only [badLength_iff, State.status_eq]
  exact State.reports_cons decide_eq_true_iff rfl fun _ =>
    State.reports_cons .rfl rfl fun _ =>
    State.reports_cons decide_eq_true_iff rfl fun _ =>
    State.reports_cons decide_eq_true_iff rfl fun _ => s.succeeds_endedWith_ok _ _ _

theorem reportsCause_sched (rsv : BitVec 19) (cnt : BitVec 8) : s.ReportsCause (.sched t rsv cnt) :=
  ⟨_, schedResult s t rsv cnt,
    State.reports_cons decide_eq_true_iff rfl fun _ =>
    State.reports_cons .rfl rfl fun _ =>
    State.reports_cons decide_eq_true_iff rfl fun _ => s.succeeds_endedWith_ok _ _ _⟩

theorem reportsCause_kill (rsv : BitVec 27) : s.ReportsCause (.kill t rsv) :=
  ⟨_, killResult s t rsv, State.reports_cons decide_eq_true_iff rfl fun _ => s.succeeds_endedWith_ok _ _ _⟩

theorem reportsCause_wait (rsv : BitVec 19) (thr : BitVec 8) : s.ReportsCause (.wait t rsv thr) := by
  refine ⟨_, (waitResult s t rsv thr).1, State.reports_cons decide_eq_true_iff rfl fun _ => ?_⟩
  split_ifs
  · exact s.succeeds_endedWith_ok _ _ _
  · exact .inr ⟨congrArg _ (s.track_with_waitHold t _), .inr ⟨t, rsv, thr, rfl, rfl⟩⟩

theorem reportsCause_stat (rsv : BitVec 27) : s.ReportsCause (.stat t rsv) :=
  ⟨_, (statResult s t rsv).1, State.reports_cons decide_eq_true_iff rfl fun _ =>
    .inr ⟨congrArg _ (s.track_with_responses t _), .inl ⟨t, rsv, rfl⟩⟩⟩

/-- ATTACH has three causes of one code: its kind, its granularity or threshold, and the platform (44 R210). -/
theorem reportsCause_attach (kind gran : BitVec 2) (thresh : BitVec 8) (rsv : BitVec 15) (pin unit : BitVec 16) :
    s.ReportsCause (.attach t kind gran thresh rsv pin unit) := by
  obtain ⟨a, b, hrun⟩ := attachResult s t kind gran thresh rsv pin unit
  refine ⟨_, hrun,
    State.reports_cons decide_eq_true_iff rfl fun _ =>
    State.reports_cons decide_eq_true_iff rfl fun _ =>
    State.reports_cons (decide_eq_true_iff.trans (kind_reserved_iff kind)) rfl fun _ =>
    State.reports_cons decide_eq_true_iff rfl fun _ =>
    State.reports_cons (Bool.not_eq_true' _).to_iff rfl fun _ => ?_⟩
  by_cases hkind : kind = 1
  · rw [if_pos hkind]; exact s.succeeds_endedWith_ok _ _ _
  · rw [if_neg hkind]; exact s.succeeds_endedWith_ok _ _ _

end

/-- Every command reports the first of its causes, or succeeds (60 R231). -/
theorem reportsCause_of_isCommand (hi : i.isCommand = true) (s : State) : s.ReportsCause i := by
  cases i with
  | load t idx nbits rsv rep buf => exact reportsCause_load t s idx nbits rsv rep buf
  | seqw t idx nbits rsv rep buf => exact reportsCause_seqw t s idx nbits rsv rep buf
  | sched t rsv cnt => exact reportsCause_sched t s rsv cnt
  | kill t rsv => exact reportsCause_kill t s rsv
  | wait t rsv thr => exact reportsCause_wait t s rsv thr
  | stat t rsv => exact reportsCause_stat t s rsv
  | attach t kind gran thresh rsv pin unit => exact reportsCause_attach t s kind gran thresh rsv pin unit
  | illegal0 t rest => exact ⟨_, rfl, s.status_eq t .eIllegal⟩
  | illegal8F op t rest => exact ⟨_, rfl, s.status_eq t .eIllegal⟩
  | pullBit | pullByte | pullPacket => cases hi

/-- Settles O21: the tests of each command, in their order, are the causes of the table. -/
theorem firstCauseIsReported : Obligations.FirstCauseIsReported := by
  intro s i hi
  obtain ⟨s', hrun, hreports⟩ := reportsCause_of_isCommand hi s
  unfold State.Reports at hreports
  cases hcause : firstCause (s.causes i) with
  | some c => rw [hcause] at hreports; exact hrun.trans (congrArg _ hreports)
  | none => rw [hcause] at hreports; exact ⟨s', hrun, hreports⟩

end Machine

end Sys2Proof
end

section
/-!
Reset (70 R260, R261): every piece of state takes its reset value; and a track that nothing was loaded to rotates among
registers 1, ..., `maxLoaded`, which is register 1 alone, and it holds `RESET_PACKET`.
-/
namespace Sys2Proof.Machine

open TrackState

variable {p : Params}

theorem State.resetInput_track_eq (s : State) (t : Track) :
    s.resetInput.track t = TrackState.resetWith s.params (s.params.nreg t) :=
  (s.resetInput_track t).trans (State.resetWith_track s.params t)

/-- Settles O50: the reset state has the table's values by definition. -/
theorem resetValues : Obligations.ResetValues := by
  refine fun s => ⟨s.resetInput, rfl, rfl, rfl, rfl, rfl, fun t => ?_⟩
  intro ts k
  have hreset : ts = TrackState.resetWith s.params (s.params.nreg t) := s.resetInput_track_eq t
  rw [hreset]
  and_intros <;> rfl

theorem TrackState.resetWith_register {n : Nat} {r : BitVec 7} (hr : r.toNat < n) :
    (TrackState.resetWith p n).register r = resetRegister p := by
  simp [register, TrackState.resetWith, hr]

/-- After reset nothing but the rotation has a claim (42 R144). -/
theorem TrackState.Rotates.resetWith (p : Params) (n : Nat) : (TrackState.resetWith p n).Rotates where
  idle := rfl
  noRequest := rfl
  noRepeat := nofun

/-- From reset the rotation has a cycle of one register, and the newest packet there is `RESET_PACKET` (70 R261). -/
theorem TrackState.advances_resetWith (hp : p.Legal) (t : Track) (n : Nat) :
    ((TrackState.resetWith p (p.nreg t)).advances (n + 1)).curReg = 1 ∧
      ((TrackState.resetWith p (p.nreg t)).advances (n + 1)).latch = p.resetPacket.latch := by
  have hI : (TrackState.resetWith p (p.nreg t)).Inv p t := .resetWith hp t
  have hrot : (TrackState.resetWith p (p.nreg t)).Rotates := .resetWith p _
  have hone : (1 : BitVec 7).toNat < p.nreg t := (nreg_range hp t).1
  have hcur : ((TrackState.resetWith p (p.nreg t)).advances (n + 1)).curReg = 1 := BitVec.eq_of_toNat_eq <|
    calc ((TrackState.resetWith p (p.nreg t)).advances (n + 1)).curReg.toNat
      _ = (1 + 1 - 1 + (n + 1)) % 1 + 1 := hrot.advances_curReg hp hI n
      _ = 1 := by rw [Nat.mod_one]
  refine ⟨hcur, ?_⟩
  rw [hrot.advances_latch hp hI, hcur, TrackState.resetWith_register hone]
  rfl

/-- Settles O51: the reset value of the track, and the rotation from it. -/
theorem unloadedTrackIdles : Obligations.UnloadedTrackIdles := fun p t n hp => by
  rw [State.resetWith_track]
  exact TrackState.advances_resetWith hp t n

end Sys2Proof.Machine
end

section
/-!
What only reset takes back (70 R271): the high-water mark, `UNDERRUN` and `MIX` rise and never fall, and the remaining length
of a sequence falls, unless a SCHED of the track sets it.
-/
namespace Sys2Proof.Machine

open TrackState

variable {p : Params} {t : Track} {ts u : TrackState} {s s' : State} {i : Instr} {m : Move}

/-- The high-water mark is not lower, and the sticky flags are not cleared (40 R113, 44 R215). -/
structure TrackState.StatusRises (ts u : TrackState) : Prop where
  mark : ts.maxLoaded.toNat ≤ u.maxLoaded.toNat
  underrun : ts.underrunFlag = true → u.underrunFlag = true
  mix : ts.mix = true → u.mix = true

theorem TrackState.StatusRises.refl (ts : TrackState) : ts.StatusRises ts := ⟨le_rfl, id, id⟩

/-- The mark becomes the larger of itself and the register loaded (40 R113). -/
theorem TrackState.statusRises_loadRegister (ts : TrackState) (r : BitVec 7) (k : Packet) :
    ts.StatusRises (ts.loadRegister r k) := by
  have hmark : ts.maxLoaded.toNat ≤ (if ts.maxLoaded < r then r else ts.maxLoaded).toNat := by
    split_ifs with hlt
    · exact (BitVec.lt_def.1 hlt).le
    · exact le_rfl
  rw [loadRegister_eq]
  exact ⟨hmark, id, id⟩

theorem CommandUpdate.statusRises (hu : CommandUpdate p t ts i u) : ts.StatusRises u := by
  cases hu with
  | load idx => exact ts.statusRises_loadRegister idx _
  | seqw | sched | kill | attachTimer | attachRing => exact ⟨le_rfl, id, id⟩

theorem TrackState.kept_pullUnit (ts : TrackState) : ts.PullKeeps ts.pullUnit.2 := by
  unfold pullUnit
  cases ts.cfg.gran with
  | bit => exact kept_nextBit ts
  | byte => exact kept_nextBits 8 ts
  | packet => exact kept_nextPacket ts

theorem TrackState.PullKeeps.underrunFlag_eq (h : ts.PullKeeps u) : u.underrunFlag = ts.underrunFlag := by
  rw [← h.driver]; rfl

/-- A pull of a packet may set `MIX`; none clears it (10_state R37). -/
theorem TrackState.pullUnit_mix_of_mix (h : ts.mix = true) : ts.pullUnit.2.mix = true := by
  unfold pullUnit
  cases ts.cfg.gran with
  | bit => exact (nextBit_mix ts).trans h
  | byte => exact (nextBits_mix 8 ts).trans h
  | packet => dsimp only; rw [nextPacket_eq, h, Bool.true_or]

theorem TrackState.statusRises_pullUnit (ts : TrackState) : ts.StatusRises ts.pullUnit.2 where
  mark := (congrArg BitVec.toNat ts.kept_pullUnit.mark).ge
  underrun := ts.kept_pullUnit.underrunFlag_eq.trans
  mix := pullUnit_mix_of_mix

theorem TrackState.statusRises_nextBit (ts : TrackState) : ts.StatusRises ts.nextBit.2 where
  mark := (congrArg BitVec.toNat ts.kept_nextBit.mark).ge
  underrun := ts.kept_nextBit.underrunFlag_eq.trans
  mix := (nextBit_mix ts).trans

theorem EventUpdate.statusRises (hu : EventUpdate p t ts m u) : ts.StatusRises u := by
  cases hu with
  | ta now => rw [ta_eq]; exact { ts.statusRises_nextBit with }
  | tb => exact { StatusRises.refl ts with }
  | refill => rw [refill_eq]; exact { ts.statusRises_pullUnit with }
  | drain => rw [drain_eq]; exact { StatusRises.refl ts with }
  | underrun => exact { StatusRises.refl ts with underrun := fun _ => rfl }

theorem TrackEffect.statusRises (h : TrackEffect s t m u) : (s.track t).StatusRises u := by
  cases h with
  | kept | ended => exact { StatusRises.refl (s.track t) with }
  | command w i after u hw hd hu => exact { hu.statusRises with }
  | event u hu => exact hu.statusRises

/-- An entry that retires leaves one less, of at least one (42 R141). -/
theorem TrackState.Inv.retire_seqLen_le (hI : ts.Inv p t) : ts.retire.seqLen.toNat ≤ ts.seqLen.toNat := by
  unfold TrackState.retire
  split
  · next hdue =>
    have hlen : (1 : BitVec 8) ≤ ts.seqLen := hI.activeLen.1 (hI.retireActive hdue)
    exact (BitVec.toNat_sub_of_le hlen).trans_le (Nat.sub_le _ _)
  · exact le_rfl

/-- Steps 1 to 4 leave the remaining length (42 R141). -/
theorem TrackState.advance_seqLen (ts : TrackState) : ts.advance.seqLen = ts.retire.seqLen := by
  rcases ts.advance_cases with ⟨-, e⟩ | ⟨-, -, -, e⟩ | ⟨-, -, e⟩ <;> rw [e]
  · rw [sendEntry_eq]
  · rfl
  · rfl

theorem TrackState.Inv.advance_seqLen_le (hI : ts.Inv p t) : ts.advance.seqLen.toNat ≤ ts.seqLen.toNat := by
  rw [advance_seqLen]; exact hI.retire_seqLen_le

theorem TrackState.Inv.nextBit_seqLen_le (hI : ts.Inv p t) : ts.nextBit.2.seqLen.toNat ≤ ts.seqLen.toNat := by
  show ts.boundary.seqLen.toNat ≤ _
  unfold TrackState.boundary
  split
  · exact hI.advance_seqLen_le
  · exact le_rfl

theorem TrackState.Inv.nextBits_seqLen_le (hp : p.Legal) (n : Nat) :
    ∀ {ts : TrackState}, ts.Inv p t → (ts.nextBits n).2.seqLen.toNat ≤ ts.seqLen.toNat := by
  induction n with
  | zero => exact fun _ => le_rfl
  | succ n ih => exact fun hI => (ih (hI.nextBit hp)).trans hI.nextBit_seqLen_le

theorem TrackState.Inv.pullUnit_seqLen_le (hp : p.Legal) (hI : ts.Inv p t) :
    ts.pullUnit.2.seqLen.toNat ≤ ts.seqLen.toNat := by
  unfold TrackState.pullUnit
  cases ts.cfg.gran with
  | bit => exact hI.nextBit_seqLen_le
  | byte => exact hI.nextBits_seqLen_le hp 8
  | packet => dsimp only; rw [nextPacket_eq]; exact hI.advance_seqLen_le

/-- No driver event lengthens a sequence. -/
theorem EventUpdate.seqLen_le (hu : EventUpdate p t ts m u) (hp : p.Legal) (hI : ts.Inv p t) :
    u.seqLen.toNat ≤ ts.seqLen.toNat := by
  cases hu with
  | ta now => rw [ta_eq]; exact hI.nextBit_seqLen_le
  | tb | underrun => exact le_rfl
  | refill => rw [refill_eq]; exact hI.pullUnit_seqLen_le hp
  | drain => rw [drain_eq]

/-- Of the commands only SCHED lengthens a sequence, and only where none is active (41 R121, R122). -/
theorem CommandUpdate.seqLen_le_or_sched (hu : CommandUpdate p t ts i u) :
    u.seqLen.toNat ≤ ts.seqLen.toNat ∨ ∃ cnt, i = .sched t 0 cnt ∧ ts.seqActive = false := by
  cases hu with
  | load => rw [loadRegister_eq]; exact .inl le_rfl
  | sched cnt hidle => exact .inr ⟨cnt, rfl, hidle⟩
  | kill => exact .inl (Nat.zero_le _)
  | seqw | attachTimer | attachRing => exact .inl le_rfl

theorem TrackEffect.seqLen_le_or_sched (h : TrackEffect s t m u) (hI : s.Inv) :
    u.seqLen.toNat ≤ (s.track t).seqLen.toNat ∨
      ∃ w cnt after, m = .word w ∧ decode (s.cmdWords ++ [w]) = .ok (.sched t 0 cnt, after) ∧
        (s.track t).seqActive = false := by
  cases h with
  | kept | ended => exact .inl le_rfl
  | command w i after u hw hd hu =>
    refine hu.seqLen_le_or_sched.imp_right ?_
    rintro ⟨cnt, rfl, hidle⟩
    exact ⟨w, cnt, after, hw, hd, hidle⟩
  | event u hu => exact .inl (hu.seqLen_le hI.params (hI.tracks t))

/-- Settles O57: what a move but reset leaves of a track, field by field. -/
theorem monotoneStatusFields : Obligations.MonotoneStatusFields := by
  intro s s' m t hI hm hs
  have effect : TrackEffect s t m (s'.track t) := (moveEffect_of_applyMove hs).trackEffect hm t
  obtain ⟨hmark, hunderrun, hmix⟩ := effect.statusRises
  exact ⟨hmark, hunderrun, hmix, effect.seqLen_le_or_sched hI⟩

end Sys2Proof.Machine
end

section
/-!
A driver is attached once (70 R276): the configuration changes only by an ATTACH of an unattached track, and another ATTACH
ends with EATTACHED (44 R210).
-/
namespace Sys2Proof.Machine

variable {p : Params} {t : Track} {ts u : TrackState} {s s' : State} {i : Instr} {m : Move}

/-- Of the commands only ATTACH writes the configuration (10_state R39). -/
theorem CommandUpdate.attach_of_cfg_ne (hu : CommandUpdate p t ts i u) (hne : u.cfg ≠ ts.cfg) :
    ∃ kind gran thresh pin unit, i = .attach t kind gran thresh 0 pin unit := by
  cases hu with
  | load => rw [TrackState.loadRegister_eq] at hne; exact absurd rfl hne
  | seqw | sched | kill => exact absurd rfl hne
  | attachTimer kind gran thresh pin unit => exact ⟨kind, gran, thresh, pin, unit, rfl⟩
  | attachRing kind gran g thresh pin unit => exact ⟨kind, gran, thresh, pin, unit, rfl⟩

theorem TrackEffect.attach_of_cfg_ne (h : TrackEffect s t m u) (hne : u.cfg ≠ (s.track t).cfg) :
    ∃ w kind gran thresh pin unit after, m = .word w ∧
      decode (s.cmdWords ++ [w]) = .ok (.attach t kind gran thresh 0 pin unit, after) := by
  cases h with
  | kept | ended => exact absurd rfl hne
  | command w i after u hw hd hu =>
    obtain ⟨kind, gran, thresh, pin, unit, rfl⟩ := hu.attach_of_cfg_ne hne
    exact ⟨w, kind, gran, thresh, pin, unit, after, hw, hd⟩
  | event u hu => exact absurd hu.cfg_eq hne

/-- A second ATTACH (44 R210, 60 R231). -/
theorem exec_attach_of_attached (h : (s.track t).cfg.kind ≠ .none) (kind gran : BitVec 2) (thresh : BitVec 8)
    (pin unit : BitVec 16) : exec (.attach t kind gran thresh 0 pin unit) s = .next (s.endedWith t .eAttached 7) := by
  have hrun : exec (.attach t kind gran thresh 0 pin unit) s = .next (s.status t .eAttached) := congrArg _ (if_pos h)
  rw [hrun, State.status_eq]; rfl

/-- Settles O58: the configuration over what a move does to the driver and to the track, and the refusal of ATTACH. -/
theorem attachIsOncePerReset : Obligations.AttachIsOncePerReset := fun _ _ _ t hm hs =>
  ⟨(driverStep_of_applyMove hs hm t).cfg_eq, ((moveEffect_of_applyMove hs).trackEffect hm t).attach_of_cfg_ne,
    exec_attach_of_attached⟩

end Sys2Proof.Machine
end

section
/-!
The hang of 70 R274: a WAIT above its threshold on an unattached track has no end but reset, since no driver advances the
sequence (44 R211) and the port takes no command that could (41 R126).
-/
namespace Sys2Proof.Machine

variable {s s' : State} {m : Move} {h : WaitHold}

/-- The port is held by a WAIT above its threshold, on a track without a driver. -/
structure State.Hung (s : State) (h : WaitHold) : Prop where
  held : s.waitHold = some h
  unattached : (s.track h.track).cfg.kind = .none
  above : h.thr.toNat < (s.track h.track).seqLen.toNat

theorem State.Hung.waitDone_eq_false (hs : s.Hung h) : s.waitDone h = false :=
  Bool.eq_false_iff.2 fun hd => Nat.not_le.2 hs.above ((State.waitDone_iff h).1 hd)

/-- The only moves that do anything are events of the other track's driver and the reset input. -/
theorem MoveEffect.hung (he : MoveEffect s m s') (hs : s.Hung h) (hm : m ≠ .reset) :
    s'.Hung h ∧ s'.cmdWords = s.cmdWords ∧ s'.responses = s.responses := by
  have ⟨hheld, hnone, habove⟩ := hs
  cases he with
  | kept => exact ⟨hs, rfl, rfl⟩
  | collected w e hw => exact absurd (hheld.symm.trans hw) nofun
  | command w i after s' hw => exact absurd (hheld.symm.trans hw) nofun
  | waitEnded h' hw hd =>
    obtain rfl : h = h' := Option.some.inj (hheld.symm.trans hw)
    exact absurd (hs.waitDone_eq_false.symm.trans hd) Bool.false_ne_true
  | event m t u hu =>
    have hne : h.track ≠ t := by rintro rfl; exact hu.attached hnone
    have hkept : (s.setTrack t u).track h.track = s.track h.track := s.track_setTrack_of_ne hne u
    exact ⟨⟨(s.setTrack_waitHold t u).trans hheld, hkept ▸ hnone, hkept ▸ habove⟩, s.setTrack_cmdWords t u,
      s.setTrack_responses t u⟩
  | reset => exact absurd rfl hm

/-- Settles O59: no move but reset ends the hang. -/
theorem waitOnUnattachedTrackHangs : Obligations.WaitOnUnattachedTrackHangs := by
  intro s s' m h hheld hnone habove hm hs
  obtain ⟨⟨hheld', hnone', habove'⟩, hwords, hresponses⟩ :=
    (moveEffect_of_applyMove hs).hung ⟨hheld, hnone, habove⟩ hm
  exact ⟨hheld', hnone', habove', hwords, hresponses⟩

end Sys2Proof.Machine
end
